-- ==== Sys2Proof/Word.lean ====
section
/-! DEFINITION. The values of the block: bytes, nibbles, virtual time, line and digit indices, wiring permutations. -/

namespace Sys2Proof

/-- Every register of the block is 8 bits wide (rule R9). -/
abbrev Byte := BitVec 8

/-- A field of 4 bits: a keypad line's columns, half of a read result (R99, R100). -/
abbrev Nibble := BitVec 4

/-- Virtual time in nanoseconds, a natural number, unbounded (R15). -/
abbrev Time := Nat

/-- A line: one select bit and its decay timer (R17). The record has room for the six lines of CONSOLE; the lines
that exist are those below `numLines` (R8). -/
abbrev Line := Fin 6

/-- A 7-segment digit, 0..3; digit `i` is driven by line `i` (R8). -/
abbrev Digit := Fin 4

/-- The line that drives a digit (R23). -/
def Digit.line (i : Digit) : Line := i.castLE (by decide)

/-- A wiring of 8 bit positions: entry `k` is the logical position that reaches physical position `k` (R14). -/
abbrev BitPerm := Vector (Fin 8) 8

/-- What the keypad collaborator answers to one poll (R211): in CHESS one 4-bit mask per keypad line, in CONSOLE
the raw words of group A and group B. One record serves both variants; each reads only its own part. -/
structure KeypadAnswer where
  lines  : Vector Nibble 4
  groupA : Nat
  groupB : Nibble
  deriving DecidableEq, Repr, Inhabited

end Sys2Proof
end

