-- ==== Sys2Proof/Config.lean ====
section
/-! DEFINITION. The parameters of the block (rule R8): the variant, the parameters the source leaves OPEN, those the
spec gives a value but keeps as parameters (93_implementation_defined.md), and the free values. What the variant alone
fixes (line counts, polarity, the reset byte) and the values the spec gives are in Machine/Values.lean. -/

namespace Sys2Proof

/-- The two configurations of the block (R2). -/
inductive Variant
  | chess
  | console
  deriving DecidableEq, Repr, Inhabited

/-- The two readings of "at most one pending recompute" (R124): KEEP is the spec's decision, RESCHEDULE its
admitted alternative (D12). -/
inductive DebounceMode
  | keep
  | reschedule
  deriving DecidableEq, Repr, Inhabited

/-- The two bus registers: offset 0 is DATA, offset 1 is SEL (R70). -/
inductive Register
  | data
  | sel
  deriving DecidableEq, Repr, Inhabited

/-- What the CONSOLE's companion chip does on a CPU write to `port`, while what it holds latched is `latched` (R71,
R128; log entry 21). Entry `v` of a table is for the byte `v` the CPU writes. DESIGN CHOICE (log entry 21; R71 and D11
leave it OPEN): a CPU write reaches write handlers only, any number of them, and no read handler. -/
structure PortWrite where
  latched : Nat
  port    : Byte
  /-- The handler writes that reach the block, in order: the register and the byte it sees. -/
  reaches : Vector (List (Register × Byte)) 256
  /-- What the chip holds latched afterwards. -/
  after   : Vector Nat 256
  deriving DecidableEq, Repr, Inhabited

/-- What the chip does on a CPU read of `port`, while what it holds latched is `latched` (R71, R128; log entry 21).
Entry `x` of a table is for the byte `x` the block answers, entry 0 where no handler is reached. DESIGN CHOICE (log entry 21;
R71 and D11 leave it OPEN): a CPU read reaches at most one read handler and no write handler, so a chip whose handshake
output changes on a read, and with it an input of the block, cannot be written as a `PortMap`. -/
structure PortRead where
  latched  : Nat
  port     : Byte
  /-- The register whose read handler is reached, if one is. -/
  register : Option Register
  /-- The byte the CPU gets. -/
  answers  : Vector Byte 256
  /-- What the chip holds latched afterwards. -/
  after    : Vector Nat 256
  deriving DecidableEq, Repr, Inhabited

/-- `CONSOLE_PORT_MAP` (R8, R71): which ports and directions reach which handler, and "whatever the chip latches or
inverts before the block sees a byte" (R128). A content of the chip's latches is written as a number; there are as many
as the map says. DESIGN CHOICE (log entry 21): the chip acts only on a CPU access, and as the tables say. -/
structure PortMap where
  /-- What the chip holds latched at first. -/
  initial : Nat
  writes  : List PortWrite
  reads   : List PortRead
  deriving DecidableEq, Repr, Inhabited

/-- The parameters the source does not settle (OPEN in R8). -/
structure OpenParams where
  segPermChess   : BitPerm
  segPermConsole : BitPerm
  clzWidth       : Nat
  clzOffset      : Nat
  keyAWidth      : Nat
  consolePortMap : PortMap
  deriving DecidableEq, Repr, Inhabited

/-- `P` is a bijection on bit positions 0..7 (R14): no logical position is used twice. -/
abbrev BitPerm.Bijective (P : BitPerm) : Prop := ∀ j k : Fin 8, P[j] = P[k] → j = k

/-- The constraint of R8 and R215 on the counted word, read literally (log entry 15). -/
abbrev OpenParams.ClzAdmitted (o : OpenParams) : Prop :=
  1 ≤ o.keyAWidth ∧ o.keyAWidth ≤ o.clzWidth ∧
    o.clzWidth - o.keyAWidth ≤ o.clzOffset ∧ o.clzWidth - o.clzOffset ≤ 15

/-- The values the spec admits for the OPEN parameters (R8, R152, R154, R215). -/
abbrev OpenParams.Admitted (o : OpenParams) : Prop :=
  BitPerm.Bijective o.segPermChess ∧ BitPerm.Bijective o.segPermConsole ∧ o.ClzAdmitted

/-- The example parameters EX-C and EX-S of 95_test_vectors.md, "not hardware values": identity wiring, a 32-bit
counted word, offset 17, 15 keys. -/
def OpenParams.exampleHardware : OpenParams where
  segPermChess   := #v[0, 1, 2, 3, 4, 5, 6, 7]
  segPermConsole := #v[0, 1, 2, 3, 4, 5, 6, 7]
  clzWidth       := 32
  clzOffset      := 17
  keyAWidth      := 15
  consolePortMap := ⟨0, [], []⟩

/-- FREE VALUE (log entry 3): the OPEN parameters as the hardware has them. The spec gives none of them. -/
opaque Config.hardware : OpenParams

/-- The OPEN parameters of the machine at reset: `Config.hardware` where that is admitted. Whatever admitted
parameters the hardware has, they are a value of `Config.hardware`; the example stands in only for values the
spec excludes. -/
def Config.openParams : OpenParams :=
  if Config.hardware.Admitted then Config.hardware else OpenParams.exampleHardware

/-- FREE VALUE (log entry 9): `Draw8()`, the byte a read of SEL returns, one per draw (R13, R126). -/
opaque Config.draw8 : Nat → Byte

/-- FREE VALUE (log entry 10): the keypad's answer to a poll, where the environment has stated none (R211). -/
opaque Config.keypadAnswer : Nat → KeypadAnswer

/-- The parameters a machine runs with (R8). Arguments of the model, fixed for a run, no state of the block (R37). -/
structure Params where
  variant       : Variant
  /-- `DECAY_DELAY`. -/
  decayDelay    : Time
  /-- `DEBOUNCE_DELAY`, CONSOLE. -/
  debounceDelay : Time
  /-- `DEBOUNCE_MODE`, CONSOLE. -/
  debounceMode  : DebounceMode
  /-- `BLINK_PERIOD`, CHESS. -/
  blinkPeriod   : Time
  /-- `BLINK_SHOW`, CHESS. -/
  blinkShow     : Bool
  /-- `NO_KEY_CODE`, CONSOLE. -/
  noKeyCode     : Nibble
  wiring        : OpenParams
  deriving DecidableEq, Repr, Inhabited

end Sys2Proof
end

