-- ==== Sys2Proof/Syntax.lean ====
section
/-! DEFINITION. The block's state record, the snapshot image, the stimulus word with its out-of-band operands, and
the stimulus forms: one constructor of `Instr` per row of spec/opcode_table.json. -/

namespace Sys2Proof

/-- The block's state: the record of rule R20, element by element. In CHESS lines 4 and 5 and the two lamps do not
exist; their places here carry no meaning and no rule reads them, but RESTORE's test that nothing stands in them (log
entry 12). -/
structure Block where
  /-- SEL, the digit-select register (R23). -/
  sel : Byte
  /-- SEG, the digit-data register, in logical bit order (R25). -/
  seg : Byte
  /-- ACT, the active mask (R26). -/
  act : Vector Bool 6
  /-- BPH, the blink phase (R28). -/
  bph : Bool
  /-- OUT, the rendered digits, in physical bit order (R29). -/
  out : Vector Byte 4
  /-- LAMP_LOSE, CONSOLE (R30). -/
  lampLose : Bool
  /-- LAMP_WIN, CONSOLE (R30). -/
  lampWin : Bool
  /-- DECAY_DL, the strobe-decay timer bank (R32). -/
  decayDl : Vector (Option Time) 6
  /-- DEB_DL, the debounced recompute, CONSOLE (R33). -/
  debDl : Option Time
  /-- BLINK_DL, the next blink tick, CHESS (R34). -/
  blinkDl : Option Time
  /-- RST, the sampled level of the reset line (R35). -/
  rst : Bool
  /-- now, the shared virtual clock (R36). -/
  now : Time
  deriving DecidableEq, Repr

/-- A snapshot image: every element of R20, together with VARIANT (R232). -/
structure Image where
  variant : Variant
  block   : Block
  deriving DecidableEq, Repr

/-- The stimulus forms, one constructor per row of spec/opcode_table.json. -/
inductive Instr
  /-- RD DATA, `read_inputs()` (R125). -/
  | rdData
  /-- RD SEL (R126). -/
  | rdSel
  /-- WR DATA, `write_segment_data(v)` (R121). -/
  | wrData (v : Byte)
  /-- WR SEL, `write_select(v)` (R122). -/
  | wrSel (v : Byte)
  /-- DECAY_FIRE of the line of the 3-bit field `n` (R182). -/
  | decayFire (n : Fin 8)
  /-- BLINK_TICK, CHESS (R201). -/
  | blinkTick
  /-- DEBOUNCE_FIRE, CONSOLE (R186). -/
  | debounceFire
  /-- RESET, the reset line takes level `v` (R231). -/
  | reset (v : Bool)
  /-- ADVANCE by the out-of-band duration `d` (R230). -/
  | advance (d : Time)
  /-- SAVE (R232). -/
  | save
  /-- RESTORE of the out-of-band image (R233). -/
  | restore (img : Image)
  deriving DecidableEq, Repr

/-- One step input: the 12-bit stimulus word and the two out-of-band operands (R90). Every stimulus carries both
operands; only ADVANCE reads `duration` and only RESTORE reads `image` (log entry 19). -/
structure Stimulus where
  word     : BitVec 12
  duration : Time
  image    : Image
  deriving DecidableEq, Repr

end Sys2Proof
end

