-- ==== Sys2Proof/Machine/Values.lean ====
section
/-! DEFINITION. What the variant alone fixes of rule R8, the values the spec gives the parameters, and the power-on
values of R40. -/

namespace Sys2Proof.Machine

/-- `NUM_LINES` (R8). -/
def numLines : Variant → Nat
  | .chess => 4
  | .console => 6

/-- `SEL_ACTIVE_LOW` (R8, D8). -/
def selActiveLow : Variant → Bool
  | .chess => true
  | .console => false

/-- `SEL_RESET`, the "all deselected" select byte (R40, D9). -/
def selReset : Variant → Byte
  | .chess => 0xFF
  | .console => 0x00

/-- `DP_PHYS`, the physical position of the decimal point (R101, D6). -/
def dpPhys : Fin 8 := 7

/-- The parameters of a machine of variant `v` as the spec gives them (R8): the delays of the source (D3, log entry 6),
DEBOUNCE_MODE, BLINK_SHOW and NO_KEY_CODE as the spec decides (D12, D7, D17; log entries 4, 5, 16), the OPEN ones free
(log entry 3). A parameter a variant does not have is never read in it. -/
def defaultParams (v : Variant) : Params where
  variant       := v
  decayDelay    := match v with
    | .chess => 20000000
    | .console => 25000000
  debounceDelay := 15000
  debounceMode  := .keep
  blinkPeriod   := 250000000
  blinkShow     := true
  noKeyCode     := 0xF
  wiring        := Config.openParams

/-- When the blink oscillator first ticks after it starts at `t`: one period later in CHESS, never in CONSOLE
(R40, R202, R273). -/
def blinkStart (p : Params) (t : Time) : Option Time :=
  match p.variant with
  | .chess => some (t + p.blinkPeriod)
  | .console => none

/-- The power-on column of R40 (R270). -/
def powerOn (p : Params) : Block where
  sel      := selReset p.variant
  seg      := 0
  act      := .replicate 6 false
  bph      := false
  out      := .replicate 4 0
  lampLose := false
  lampWin  := false
  decayDl  := .replicate 6 none
  debDl    := none
  blinkDl  := blinkStart p 0
  rst      := false
  now      := 0

end Sys2Proof.Machine
end

