-- ==== Sys2Proof/Machine/State.lean ====
section
/-! DEFINITION. The machine's state: the parameters it runs with, the block (rule R20), the environment's pending
inputs (stimuli, keypad answers), the counter of free values, and what the block has put out. Faults and refusals. -/

namespace Sys2Proof.Machine

/-- One render record: the virtual time, the four digits, and in CONSOLE the lamps LOSE and WIN (R38, R158). -/
structure RenderRecord where
  time  : Time
  out   : Vector Byte 4
  lamps : Option (Bool × Bool)
  deriving DecidableEq, Repr

/-- Why the machine stops without a next state. The hardware has no faults (R240). These are the spec's "no step"
(R242; "stuck" in 93_implementation_defined.md), under names; each is lifted by another step (log entry 7). -/
inductive Fault
  /-- Raised by `step` when no agent has offered a stimulus. Safe: the block does nothing on its own (R22; log entry 1). -/
  | noStimulus
  /-- Raised by DECAY_FIRE, DEBOUNCE_FIRE and BLINK_TICK when the timer's deadline is not `now` (R61, R242). Safe: the
  hardware has no such step. -/
  | notDue
  /-- Raised by ADVANCE when a pending deadline lies before the new time (R230, R242). Safe: the hardware has no such
  step. -/
  | passesDeadline
  deriving DecidableEq, Repr

/-- Why a stimulus is refused (R241). A refusal ends the run, which is the spec's refused mark (log entry 8). -/
inductive Refusal
  /-- Raised by a dispatch arm that has no meaning yet; no arm is left so. Safe. -/
  | notModelled (mnemonic : String)
  /-- `Refuse(reserved_encoding)`: raised by `step` for a word that does not decode, and by DECAY_FIRE, BLINK_TICK and
  DEBOUNCE_FIRE for a form absent from the variant (R94). Safe: the stimulus names nothing. -/
  | reservedEncoding
  /-- `Refuse(bad_snapshot)`: raised by RESTORE (R233). Safe: errs toward unprovable (D26). -/
  | badSnapshot
  deriving DecidableEq, Repr

/-- The machine. -/
structure State where
  /-- The parameters of R8, fixed for a run (R37; log entries 2 to 6, 16). No step writes them. -/
  params : Params
  /-- The block's state, R20. -/
  block : Block
  /-- The stimuli the agents have put in order and the sequencer has not yet taken (R10, R60; log entry 1). -/
  stimuli : List Stimulus
  /-- The keypad collaborator's answers to the next polls, where the environment states them (R211; log entry 10). -/
  keypad : List KeypadAnswer
  /-- How many free values have been drawn (log entries 9, 10). -/
  draws : Nat
  /-- What the render sink has received, oldest first (R158, R234; log entry 20). -/
  records : List RenderRecord
  /-- The bytes returned by bus reads, oldest first (R125, R126). -/
  reads : List Byte
  /-- The images SAVE has returned, oldest first (R232). -/
  snapshots : List Image
  deriving DecidableEq, Repr

/-- A machine with parameters `p` at power-on (R270): nothing offered, nothing put out. -/
def State.powerOn (p : Params) : State where
  params    := p
  block     := Machine.powerOn p
  stimuli   := []
  keypad    := []
  draws     := 0
  records   := []
  reads     := []
  snapshots := []

/-- The machine right after power-on, R270. The spec has two configurations and no default: this is CHESS (DESIGN
CHOICE, log entry 2). `State.powerOn (defaultParams .console)` is the other. -/
def State.reset : State := State.powerOn (defaultParams .chess)

end Sys2Proof.Machine
end

