-- ==== Sys2Proof/Machine/Ops.lean ====
section
/-! DEFINITION. The named operations: select predicate, wiring, leading zeros (rule R14), select edges (R122), timers
(R61, R181), the render sink (R158), the reset edge (R271). The block takes no exception and returns from none
(R240, R246), so there is no exception entry here; the reset edge is its one shared forced transition. -/

namespace Sys2Proof.Machine

/-- All six line positions of the record; which of them exist is `isLine`. -/
def lines : List Line := List.finRange 6

/-- The four digits. -/
def digits : List Digit := List.finRange 4

/-- Line `i` exists in variant `v` (R8). -/
def isLine (v : Variant) (i : Line) : Bool := decide (i.val < numLines v)

/-- `asserted(s, i)`: line `i` is logically selected by the select byte `s` (R14). -/
def asserted (v : Variant) (s : Byte) (i : Line) : Bool :=
  if selActiveLow v then !s.getLsbD i.val else s.getLsbD i.val

/-- `permute(P, s)`: bit `k` of the result is `s[P[k]]` (R14). -/
def permute (P : BitPerm) (s : Byte) : Byte := BitVec.ofFnLE fun k : Fin 8 => s.getLsbD P[k].val

/-- `clz_W(x)`: the zero bits above the highest set bit of the `W`-bit word `x`; `W` for `x = 0` (R14). -/
def clz : Nat → Nat → Nat
  | 0, _ => 0
  | w + 1, x => if x.testBit w then 0 else clz w x + 1

/-- Rising edge of line `i` between two select bytes (R17). -/
def rising (v : Variant) (old new : Byte) (i : Line) : Bool :=
  isLine v i && !asserted v old i && asserted v new i

/-- Deselect edge of line `i` between two select bytes (R17). -/
def deselect (v : Variant) (old new : Byte) (i : Line) : Bool :=
  isLine v i && asserted v old i && !asserted v new i

/-- The loop of WR SEL over the lines (R122): a deselect edge arms the line's decay timer, replacing any earlier
deadline (R181); a rising edge sets ACT and leaves the timer alone (R184). -/
def applyEdges (p : Params) (old new : Byte) (b : Block) : Block :=
  { b with
    act := .ofFn fun i : Line => b.act[i] || rising p.variant old new i
    decayDl := .ofFn fun i : Line =>
      if deselect p.variant old new i then some (b.now + p.decayDelay) else b.decayDl[i] }

/-- Every pending deadline of the block: the decay timers of the lines that exist, DEB_DL and BLINK_DL (R230). -/
def pendingDeadlines (v : Variant) (b : Block) : List Time :=
  lines.filterMap (fun i => if isLine v i then b.decayDl[i] else none) ++ b.debDl.toList ++ b.blinkDl.toList

/-- A timer event is enabled exactly when its deadline equals `now` (R61); otherwise there is no step (R242). -/
def whenDue (deadline : Option Time) (now : Time) (after : State) : Host.Outcome State Fault Refusal :=
  if deadline = some now then .next after else .fault .notDue

/-- The same machine with another block state. -/
def State.withBlock (s : State) (b : Block) : State := { s with block := b }

/-- The render record of the block's present outputs; CHESS has no lamps (R158). -/
def renderRecord (v : Variant) (b : Block) : RenderRecord where
  time  := b.now
  out   := b.out
  lamps := match v with
    | .chess => none
    | .console => some (b.lampLose, b.lampWin)

/-- `Emit()`: one record to the render sink (R158, R234). -/
def emit (s : State) : State :=
  { s with records := s.records ++ [renderRecord s.params.variant s.block] }

/-- `ResetEdge()` on the block (R271, R40): every element takes its power-on value, but `now` is unchanged, RST is what
the RESET stimulus made it, and the blink oscillator restarts from `now` (R273, R275). It computes no select edge and
arms no decay timer (R272). In CHESS too it clears DEB_DL and the lamps, as R40 says (DEDUCED, log entry 13). -/
def resetBlock (p : Params) (b : Block) : Block :=
  { powerOn p with blinkDl := blinkStart p b.now, rst := b.rst, now := b.now }

/-- `ResetEdge()` with its one render record (R271). -/
def resetEdge (s : State) : State := emit (s.withBlock (resetBlock s.params s.block))

end Sys2Proof.Machine
end

