-- ==== Sys2Proof/Machine/Keypad.lean ====
section
/-! DEFINITION. The Keypad Scanner, 44_keypad_scanner.md: pure functions of SEG and the keypad's answer. -/

namespace Sys2Proof.Machine

/-- The columns of line `i`, if SEG's low bits select the line (R213). -/
def selectedColumns (seg : Byte) (k : Vector Nibble 4) (i : Fin 4) : Nibble :=
  if seg.getLsbD i.val then k[i] else 0

/-- CHESS low nibble: bit `i` says that some pressed button of line `i` lies in a column enabled by SEG[3:0] (R212). -/
def lineHits (seg : Byte) (k : Vector Nibble 4) : Nibble :=
  BitVec.ofFnLE fun i : Fin 4 => k[i] &&& seg.extractLsb' 0 4 != 0

/-- CHESS high nibble: the OR of the pressed columns over every selected line (R213). -/
def columnHits (seg : Byte) (k : Vector Nibble 4) : Nibble :=
  selectedColumns seg k 0 ||| selectedColumns seg k 1 ||| selectedColumns seg k 2 ||| selectedColumns seg k 3

/-- `{hi, lo}` of two nibbles: `hi` in bits 7..4, `lo` in bits 3..0 (R11). -/
def joinNibbles (hi lo : Nibble) : Byte := hi ++ lo

/-- `ChessScan(s, k)` (R212, R213; fields of R99). -/
def chessScan (seg : Byte) (k : Vector Nibble 4) : Byte := joinNibbles (columnHits seg k) (lineHits seg k)

/-- The word of group A as polled: bits at or above KEY_A_WIDTH are 0 (R211; DEDUCED, log entry 11). -/
def groupAWord (o : OpenParams) (a : Nat) : Nat := a % 2 ^ o.keyAWidth

/-- `CODE` of a group-A word: NO_KEY_CODE for 0, else `(clz_W(a) - CLZ_OFFSET) mod 16`, the difference taken as an
integer (R215, R218, R220). -/
def keyCode (p : Params) (a : Nat) : Nibble :=
  if a = 0 then p.noKeyCode else BitVec.ofInt 4 ((clz p.wiring.clzWidth a : Int) - (p.wiring.clzOffset : Int))

/-- `ConsoleScan(a, b)`: the inverted group-B word above the code (R216, R217). -/
def consoleScan (p : Params) (a : Nat) (b : Nibble) : Byte :=
  joinNibbles (~~~b) (keyCode p (groupAWord p.wiring a))

/-- The byte RD DATA returns for a keypad answer (R125). -/
def scan (p : Params) (seg : Byte) (k : KeypadAnswer) : Byte :=
  match p.variant with
  | .chess => chessScan seg k.lines
  | .console => consoleScan p k.groupA k.groupB

end Sys2Proof.Machine
end

