-- ==== Sys2Proof/Machine/Operands.lean ====
section
/-! DEFINITION. The operand forms that need the machine: the line index, the keypad poll, the unconstrained draw, and
where a read's byte goes (rules R94, R126, R211). The write byte, the reset level and the out-of-band operands are
plain arguments of their instructions (R102). -/

namespace Sys2Proof.Machine

theorem numLines_le_six (v : Variant) : numLines v ≤ 6 := by cases v <;> decide

/-- The line of a 3-bit line index, if the variant has it (R92, R94). -/
def lineOf (v : Variant) (n : Fin 8) : Option Line :=
  if h : n.val < numLines v then some ⟨n.val, Nat.lt_of_lt_of_le h (numLines_le_six v)⟩ else none

/-- `Keypad()`: one poll of the keypad collaborator (R211). It answers what the environment has stated next, or a free
value where it has stated nothing (log entry 10). -/
def pollKeypad (s : State) : KeypadAnswer × State :=
  match s.keypad with
  | [] => (Config.keypadAnswer s.draws, { s with draws := s.draws + 1 })
  | k :: rest => (k, { s with keypad := rest })

/-- `Draw8()`: an unconstrained byte (R13), a free value (log entry 9). -/
def drawByte (s : State) : Byte × State := (Config.draw8 s.draws, { s with draws := s.draws + 1 })

/-- A bus read answers `x` to the CPU; the block does not store it (R125). -/
def answer (s : State) (x : Byte) : State := { s with reads := s.reads ++ [x] }

end Sys2Proof.Machine
end

