-- ==== Sys2Proof/Machine/Render.lean ====
section
/-! DEFINITION. The Display Multiplexer, 41_display_multiplexer.md: `Recompute()` of both variants. -/

namespace Sys2Proof.Machine

/-- `DPL`, the logical SegmentData bit of the decimal point (R8, R152). -/
def dpl (p : Params) : Fin 8 := p.wiring.segPermChess[dpPhys]

/-- The digit shows blink mode: `SEG[DPL] = 1`, whatever the other bits are (R153). -/
def blinkMode (p : Params) (seg : Byte) : Bool := seg.getLsbD (dpl p).val

/-- `ChessRender(s, b)` (R152, R153). -/
def chessRender (p : Params) (seg : Byte) (bph : Bool) : Byte :=
  let shown := permute p.wiring.segPermChess seg
  if blinkMode p seg then
    if bph = p.blinkShow then shown &&& 0x7F else 0
  else shown

/-- What a selected digit shows: the CHESS rendering, or in CONSOLE the permuted segment byte, which it latches
(R151, R154). -/
def shownPattern (p : Params) (b : Block) : Byte :=
  match p.variant with
  | .chess => chessRender p b.seg b.bph
  | .console => permute p.wiring.segPermConsole b.seg

/-- One digit of a recompute: a selected digit shows the data, an unselected inactive one is blank, an unselected
active one keeps its pattern (R151, R154, R157). -/
def digitOutput (p : Params) (b : Block) (i : Digit) : Byte :=
  if asserted p.variant b.sel i.line then shownPattern p b
  else if b.act[i.line] then b.out[i]
  else 0

/-- The outputs of `Recompute()`: the digits, and in CONSOLE the lamps from ACT[4] and ACT[5] (R150, R155). -/
def renderOutputs (p : Params) (b : Block) : Block :=
  match p.variant with
  | .chess => { b with out := .ofFn (digitOutput p b) }
  | .console => { b with out := .ofFn (digitOutput p b), lampLose := b.act[4], lampWin := b.act[5] }

/-- `Recompute()`: write the outputs, emit one render record (R150, R158). -/
def recompute (s : State) : State := emit (s.withBlock (renderOutputs s.params s.block))

end Sys2Proof.Machine
end

