-- ==== Sys2Proof/Machine/BusAdapter.lean ====
section
/-! DEFINITION. The bus operations, 40_bus_adapter.md: RD DATA, RD SEL, WR DATA, WR SEL. No bus operation is ever
refused and none faults (rules R77, R120). -/

namespace Sys2Proof.Machine

/-- RD DATA (R125): the scanner's byte for a fresh poll; no state of the block is written. -/
def execRdData (s : State) : Host.Outcome State Fault Refusal :=
  let polled := pollKeypad s
  .next (answer polled.2 (scan s.params s.block.seg polled.1))

/-- RD SEL (R126): an unconstrained byte; no state of the block is written. -/
def execRdSel (s : State) : Host.Outcome State Fault Refusal :=
  let drawn := drawByte s
  .next (answer drawn.2 drawn.1)

/-- WR DATA (R121): store the segment byte, recompute in the same step. -/
def execWrData (v : Byte) (s : State) : Host.Outcome State Fault Refusal :=
  .next (recompute (s.withBlock { s.block with seg := v }))

/-- The debounced recompute WR SEL schedules in CONSOLE (R124): with KEEP a pending one keeps its deadline, with
RESCHEDULE every write sets it anew. -/
def scheduleDebounce (p : Params) (b : Block) : Block :=
  if b.debDl = none ∨ p.debounceMode = .reschedule then { b with debDl := some (b.now + p.debounceDelay) } else b

/-- The state after WR SEL has stored the byte and handled the select edges, before the variant's tail (R122). -/
def storeSelect (v : Byte) (s : State) : State :=
  s.withBlock (applyEdges s.params s.block.sel v { s.block with sel := v })

/-- WR SEL (R122): CHESS recomputes in the same step (R123), CONSOLE schedules a recompute (R124). -/
def execWrSel (v : Byte) (s : State) : Host.Outcome State Fault Refusal :=
  let stored := storeSelect v s
  match s.params.variant with
  | .chess => .next (recompute stored)
  | .console => .next (stored.withBlock (scheduleDebounce s.params stored.block))

end Sys2Proof.Machine
end

