-- ==== Sys2Proof/Machine/Images.lean ====
section
/-! DEFINITION. Which blocks a reachable state can show (rule R233, decision D26): RESTORE refuses an image that no
reachable state could produce. The tests below are what the step rules leave behind in every state reached from
power-on without RESTORE, beyond the list of R233's pseudocode (Machine/HostOps.lean); that together they are exactly
those states is claimed in the statements (DEDUCED, log entry 14). -/

namespace Sys2Proof.Machine

/-! ## Timers -/

/-- The earliest time at which the state's history can begin: power-on at 0, or the reset edge that started the
oscillator whose next tick and phase the block holds (R201, R273). BPH is 0 before an odd tick and 1 before an even
one, so the start is a whole number of double periods before the tick, one period more while BPH is 0. -/
def earliestStart (p : Params) (b : Block) : Time :=
  match p.variant, b.blinkDl with
  | .chess, some t => (if b.bph then t else t - p.blinkPeriod) % (2 * p.blinkPeriod)
  | .chess, none => 0
  | .console, _ => 0

/-- A line's timer and its ACT bit: a pending timer was armed by a deselect edge at `deadline - DECAY_DELAY`, not before
the earliest start and not after `now`, and its line stays active until it fires (R26, R122, R181, R182). A line the
variant lacks has neither (log entry 12). -/
def producibleLine (p : Params) (b : Block) (i : Line) : Bool :=
  if isLine p.variant i then
    b.decayDl[i].all fun t =>
      b.act[i] && decide (earliestStart p b + p.decayDelay ≤ t) && decide (t ≤ b.now + p.decayDelay)
  else !b.act[i] && b.decayDl[i].isNone

/-- The times of the deselect edges that armed the pending decay timers (R181). -/
def armTimes (p : Params) (b : Block) : List Time :=
  lines.filterMap fun i => b.decayDl[i].map (· - p.decayDelay)

/-! ## CHESS -/

/-- The oscillator's next tick is at most a period away; the first comes a period after a start, and BPH = 1 only after
it (R40, R201, R273). -/
def producibleBlink (p : Params) (b : Block) : Bool :=
  b.blinkDl.all fun t =>
    decide (t ≤ b.now + p.blinkPeriod) && decide ((if b.bph then 2 * p.blinkPeriod else p.blinkPeriod) ≤ t)

/-- In CHESS every change is recomputed in its own step: a selected digit shows the data, and no decimal point is lit
(R123, R151, R160). -/
def producibleChessDigit (p : Params) (b : Block) (i : Digit) : Bool :=
  !b.out[i].getLsbD dpPhys.val && (!asserted p.variant b.sel i.line || b.out[i] == shownPattern p b)

/-- What CHESS adds. The lamps do not exist (R30; log entry 12). -/
def producibleChess (p : Params) (b : Block) : Bool :=
  producibleBlink p b && digits.all (producibleChessDigit p b) && !b.lampLose && !b.lampWin

/-! ## CONSOLE: which times the select writes of the past can have had -/

/-- The debounce periods of KEEP, from `p` on and ending by `limit`, each `delay` long and none overlapping the one
before, can cover a group of times and the times of the list. `first` and `last` are the ends of the group that the
next period covers: the next time joins the group, or the period is placed as early as the group allows and the time
begins the next group. -/
def debouncesFit (delay limit : Nat) (p first last : Nat) : List Nat → Bool
  | [] => decide (max p (last - delay) + delay ≤ limit)
  | t :: rest =>
    (decide (t ≤ first + delay) && debouncesFit delay limit p first t rest) ||
    (decide (max p (last - delay) + delay ≤ t) &&
      debouncesFit delay limit (max p (last - delay) + delay) t t rest)

/-- Every time of the list can lie in a completed debounce period, with KEEP (R124, R186): a select write arms the
debounce, or finds it pending. -/
def debouncesCover (delay limit : Nat) (times : List Nat) : Bool :=
  match times.insertionSort (· ≤ ·) with
  | [] => true
  | t :: rest => debouncesFit delay limit 0 t t rest

/-- Select writes at these times can all have had their recompute by `limit`, when none is pending (R124). With
RESCHEDULE the last of them set the deadline. -/
def writesSettled (p : Params) (limit : Time) (times : List Time) : Bool :=
  match p.debounceMode with
  | .keep => debouncesCover p.debounceDelay limit times
  | .reschedule => times.all fun t => decide (t + p.debounceDelay ≤ limit)

/-- Select writes at these times can have gone before a pending recompute at `e` (R124). With KEEP the pending one was
scheduled at `e - DEBOUNCE_DELAY`, and the writes before that had theirs by then; with RESCHEDULE the last write was
then. -/
def writesBefore (p : Params) (e : Time) (times : List Time) : Bool :=
  match p.debounceMode with
  | .keep =>
    debouncesCover p.debounceDelay (e - p.debounceDelay) (times.filter fun t => decide (t + p.debounceDelay < e))
  | .reschedule => times.all fun t => decide (t + p.debounceDelay ≤ e)

/-! ## CONSOLE: the outputs -/

/-- No recompute pending: the outputs are recomputed, and any select write at all has had its recompute (R124, R154,
R155). -/
def producibleSettled (p : Params) (b : Block) : Bool :=
  digits.all (fun i => !asserted p.variant b.sel i.line || b.out[i] == shownPattern p b) &&
  b.lampLose == b.act[4] && b.lampWin == b.act[5] &&
  ((b.sel == 0 && lines.all fun i => !b.act[i]) || decide (p.debounceDelay ≤ b.now)) &&
  writesSettled p b.now (armTimes p b)

/-- A selected digit with no timer, while a recompute is pending: it was selected at the last recompute and shows the
data, or was still inactive then and is blank (R154). -/
def producibleWaitingDigit (p : Params) (b : Block) (i : Digit) : Bool :=
  !asserted p.variant b.sel i.line || b.decayDl[i.line].isSome || b.out[i] == 0 || b.out[i] == shownPattern p b

/-- A dark lamp of an active line, while a recompute is pending at `e`: the line was selected after the last recompute, so
if its timer runs, that was armed since. With KEEP no recompute has come since `e - DEBOUNCE_DELAY` only; with
RESCHEDULE further writes can have kept it away longer, unless it is due at once (R124, R155). -/
def producibleWaitingLamp (p : Params) (b : Block) (e : Time) (lamp : Bool) (i : Line) : Bool :=
  lamp || !b.act[i] ||
  (decide (p.debounceMode = .reschedule) && decide (0 < p.debounceDelay)) ||
  b.decayDl[i].all fun t => decide (e + p.decayDelay ≤ t + p.debounceDelay)

/-- A recompute pending at `e` (R124). -/
def producibleWaiting (p : Params) (b : Block) (e : Time) : Bool :=
  decide (p.debounceDelay ≤ e) && decide (e ≤ b.now + p.debounceDelay) &&
  digits.all (producibleWaitingDigit p b) &&
  producibleWaitingLamp p b e b.lampLose 4 && producibleWaitingLamp p b e b.lampWin 5 &&
  writesBefore p e (armTimes p b)

/-- What CONSOLE adds. -/
def producibleConsole (p : Params) (b : Block) : Bool :=
  match b.debDl with
  | none => producibleSettled p b
  | some e => producibleWaiting p b e

/-- The tests beyond the pseudocode's list. -/
def producible (p : Params) (b : Block) : Bool :=
  lines.all (producibleLine p b) &&
  match p.variant with
  | .chess => producibleChess p b
  | .console => producibleConsole p b

end Sys2Proof.Machine
end

