-- ==== Sys2Proof/Machine/HostOps.lean ====
section
/-! DEFINITION. The host operations, 45_host_interface.md: RESET, ADVANCE, SAVE, RESTORE. -/

namespace Sys2Proof.Machine

/-- RESET v (R231): the line takes level `v`; only a 0 to 1 transition runs the reset edge. -/
def execReset (v : Bool) (s : State) : Host.Outcome State Fault Refusal :=
  let levelled := s.withBlock { s.block with rst := v }
  if s.block.rst = false ∧ v = true then .next (resetEdge levelled) else .next levelled

/-- ADVANCE d (R230): time passes by `d`, but never past a pending deadline. -/
def execAdvance (d : Time) (s : State) : Host.Outcome State Fault Refusal :=
  if (pendingDeadlines s.params.variant s.block).any (fun t => decide (t < s.block.now + d)) then
    .fault .passesDeadline
  else .next (s.withBlock { s.block with now := s.block.now + d })

/-- The snapshot image of the machine (R232). -/
def snapshot (s : State) : Image := ⟨s.params.variant, s.block⟩

/-- SAVE (R232): hand out the image, change no state of the block. -/
def execSave (s : State) : Host.Outcome State Fault Refusal :=
  .next { s with snapshots := s.snapshots ++ [snapshot s] }

/-- The parts of R233's list that one variant alone makes. -/
def listedVariantFault (v : Variant) (b : Block) : Bool :=
  match v with
  | .chess => b.blinkDl.isNone || b.debDl.isSome
  | .console => (b.lampLose && !b.act[4]) || (b.lampWin && !b.act[5]) || b.blinkDl.isSome || b.bph

/-- The list of R233's pseudocode, clause by clause: the image of another variant; a deadline before its `now`; an
asserted line not active; an active unasserted line with no timer; a lit digit whose line is not active; the variant's
own part. -/
def listedFault (v : Variant) (img : Image) : Bool :=
  decide (img.variant ≠ v) ||
  (pendingDeadlines v img.block).any (fun t => decide (t < img.block.now)) ||
  lines.any (fun i => isLine v i && asserted v img.block.sel i && !img.block.act[i]) ||
  lines.any (fun i => isLine v i && !asserted v img.block.sel i && img.block.act[i] && img.block.decayDl[i].isNone) ||
  digits.any (fun i => img.block.out[i] != 0 && !img.block.act[i.line]) ||
  listedVariantFault v img.block

/-- R233: an image is refused that fails the pseudocode's list or, as its sentence and decision D26 say, that no
reachable state could produce (DEDUCED, log entry 14). -/
def badSnapshot (p : Params) (img : Image) : Bool := listedFault p.variant img || !producible p img.block

/-- RESTORE img (R233): refuse a bad image, else replace every element of the block's state; no recompute and no
record. -/
def execRestore (img : Image) (s : State) : Host.Outcome State Fault Refusal :=
  if badSnapshot s.params img then .refused .badSnapshot else .next (s.withBlock img.block)

end Sys2Proof.Machine
end

