-- ==== Sys2Proof/Machine/Flags.lean ====
section
/-! DEFINITION. The block's only flag, BPH (rule R28). BLINK_TICK toggles it; the reset edge clears it (`resetBlock`)
and RESTORE replaces it with the rest of the block; no other operation writes it. -/

namespace Sys2Proof.Machine

/-- `BPH <- not BPH` (R201). -/
def toggleBlinkPhase (b : Block) : Block := { b with bph := !b.bph }

end Sys2Proof.Machine
end

