-- ==== Sys2Proof/Machine/Timers.lean ====
section
/-! DEFINITION. The timer events, 42_strobe_decay_timers.md and 43_blink_oscillator.md: DECAY_FIRE, DEBOUNCE_FIRE,
BLINK_TICK. -/

namespace Sys2Proof.Machine

/-- The expiry of line `i`'s decay timer: disarm it, and clear ACT if the line is still not asserted (R182, R183). -/
def expireDecay (v : Variant) (i : Line) (b : Block) : Block :=
  { b with
    decayDl := b.decayDl.set i none
    act := b.act.set i (b.act[i] && asserted v b.sel i) }

/-- DECAY_FIRE n (R182): refused for a line the variant lacks (R94), no step unless due (R61); then the expiry and a
recompute, whether or not ACT was cleared. -/
def execDecayFire (n : Fin 8) (s : State) : Host.Outcome State Fault Refusal :=
  match lineOf s.params.variant n with
  | none => .refused .reservedEncoding
  | some i =>
    whenDue s.block.decayDl[i] s.block.now
      (recompute (s.withBlock (expireDecay s.params.variant i s.block)))

/-- BLINK_TICK (R201): CHESS only (R94), no step unless due; toggle BPH, rearm one period later, recompute. -/
def execBlinkTick (s : State) : Host.Outcome State Fault Refusal :=
  match s.params.variant with
  | .console => .refused .reservedEncoding
  | .chess =>
    whenDue s.block.blinkDl s.block.now
      (recompute (s.withBlock
        { toggleBlinkPhase s.block with blinkDl := some (s.block.now + s.params.blinkPeriod) }))

/-- DEBOUNCE_FIRE (R186): CONSOLE only (R94), no step unless due; disarm and recompute with the state as it is now. -/
def execDebounceFire (s : State) : Host.Outcome State Fault Refusal :=
  match s.params.variant with
  | .chess => .refused .reservedEncoding
  | .console =>
    whenDue s.block.debDl s.block.now (recompute (s.withBlock { s.block with debDl := none }))

end Sys2Proof.Machine
end

