-- ==== Sys2Proof/Machine/Dispatch.lean ====
section
/-! DEFINITION. The dispatch: each stimulus form to its meaning. -/

namespace Sys2Proof.Machine

def exec (i : Instr) (s : State) : Host.Outcome State Fault Refusal :=
  match i with
  | .rdData => Sys2Proof.Machine.execRdData s
  | .rdSel => Sys2Proof.Machine.execRdSel s
  | .wrData v => Sys2Proof.Machine.execWrData v s
  | .wrSel v => Sys2Proof.Machine.execWrSel v s
  | .decayFire n => Sys2Proof.Machine.execDecayFire n s
  | .blinkTick => Sys2Proof.Machine.execBlinkTick s
  | .debounceFire => Sys2Proof.Machine.execDebounceFire s
  | .reset v => Sys2Proof.Machine.execReset v s
  | .advance d => Sys2Proof.Machine.execAdvance d s
  | .save => Sys2Proof.Machine.execSave s
  | .restore img => Sys2Proof.Machine.execRestore img s

end Sys2Proof.Machine
end

