-- ==== Sys2Proof/WellFormed.lean ====
section
/-! DEFINITION. Which stimulus forms exist in a variant (rules R94, R103). -/

namespace Sys2Proof

/-- The form exists in variant `v`: the line of DECAY_FIRE is below NUM_LINES, BLINK_TICK exists in CHESS only,
DEBOUNCE_FIRE in CONSOLE only; every other form exists in both (R94). -/
def Instr.wellFormed (v : Variant) : Instr → Bool
  | .rdData => true
  | .rdSel => true
  | .wrData _ => true
  | .wrSel _ => true
  | .decayFire n => decide (n.val < Machine.numLines v)
  | .blinkTick => decide (v = .chess)
  | .debounceFire => decide (v = .console)
  | .reset _ => true
  | .advance _ => true
  | .save => true
  | .restore _ => true

/-- `i.wellFormed v`, as a proposition. -/
abbrev Instr.WellFormed (v : Variant) (i : Instr) : Prop := i.wellFormed v = true

end Sys2Proof
end

