-- ==== Sys2Proof/Decode.lean ====
section
/-! DEFINITION. The stimulus encoding of 30_encoding.md: the opcode table, the decoder (total, refusing by name in
Machine/Step.lean), the encoder, and the assembler text of R104. -/

namespace Sys2Proof

/-- The rows of spec/opcode_table.json. -/
inductive Form
  | rdData | rdSel | wrData | wrSel | decayFire | blinkTick | debounceFire | reset | advance | save | restore
  deriving DecidableEq, Repr

/-- One row: a word `S` matches when `S & mask = pattern` (R103). -/
structure OpcodeRow where
  form    : Form
  pattern : BitVec 12
  mask    : BitVec 12
  deriving DecidableEq, Repr

/-- spec/opcode_table.json, row by row. -/
def opcodeTable : List OpcodeRow :=
  [ ⟨.rdData,       0x000, 0xF00⟩,
    ⟨.rdSel,        0x100, 0xF00⟩,
    ⟨.wrData,       0x200, 0xF00⟩,
    ⟨.wrSel,        0x300, 0xF00⟩,
    ⟨.decayFire,    0x400, 0xFF8⟩,
    ⟨.blinkTick,    0x500, 0xFFF⟩,
    ⟨.debounceFire, 0x600, 0xFFF⟩,
    ⟨.reset,        0x800, 0xFFE⟩,
    ⟨.advance,      0x900, 0xFFF⟩,
    ⟨.save,         0xA00, 0xFFF⟩,
    ⟨.restore,      0xB00, 0xFFF⟩ ]

/-- The row matches the word (R103). -/
def OpcodeRow.hits (r : OpcodeRow) (w : BitVec 12) : Bool := w &&& r.mask == r.pattern

/-- The form of a stimulus word, whatever the variant: none for a word matching no row (R103). -/
def formOf (w : BitVec 12) : Option Form := (opcodeTable.find? (·.hits w)).map (·.form)

/-- The table row an instruction belongs to. -/
def Instr.form : Instr → Form
  | .rdData => .rdData
  | .rdSel => .rdSel
  | .wrData _ => .wrData
  | .wrSel _ => .wrSel
  | .decayFire _ => .decayFire
  | .blinkTick => .blinkTick
  | .debounceFire => .debounceFire
  | .reset _ => .reset
  | .advance _ => .advance
  | .save => .save
  | .restore _ => .restore

/-- The write byte `D = S[7:0]`, unmodified (R91, R102). -/
def byteField (w : BitVec 12) : Byte := w.extractLsb' 0 8

/-- The line index `L = S[2:0]`, zero-extended (R92, R102). -/
def lineField (w : BitVec 12) : Fin 8 := (w.extractLsb' 0 3).toFin

/-- The reset level `V = S[0]` (R93, R102). -/
def levelField (w : BitVec 12) : Bool := w.getLsbD 0

/-- Operands as R102 assembles them: fields of the word, and the two out-of-band operands. -/
def operands (st : Stimulus) : Form → Instr
  | .rdData => .rdData
  | .rdSel => .rdSel
  | .wrData => .wrData (byteField st.word)
  | .wrSel => .wrSel (byteField st.word)
  | .decayFire => .decayFire (lineField st.word)
  | .blinkTick => .blinkTick
  | .debounceFire => .debounceFire
  | .reset => .reset (levelField st.word)
  | .advance => .advance st.duration
  | .save => .save
  | .restore => .restore st.image

/-- The decoder, total on every stimulus (R103): a word matching no row, or of a form absent from the configured
variant, or a DECAY_FIRE of a line the variant lacks, decodes to nothing (R94). -/
def decode (v : Variant) (st : Stimulus) : Option Instr :=
  ((formOf st.word).map (operands st)).filter (·.wellFormed v)

/-- The image the encoder and `decodeTableWord` put in the out-of-band place of a stimulus: the power-on image of
CHESS. RESTORE alone reads that place (log entry 19). -/
def defaultImage : Image := ⟨.chess, Machine.powerOn (Machine.defaultParams .chess)⟩

/-- The stimulus of a bare word: duration 0 and the default image out of band. -/
def Stimulus.ofWord (w : BitVec 12) : Stimulus := ⟨w, 0, defaultImage⟩

/-- The assembled stimulus (R104); the don't-care bits of the reads are 0. -/
def encode : Instr → Stimulus
  | .rdData => .ofWord 0x000
  | .rdSel => .ofWord 0x100
  | .wrData v => .ofWord (0x200 ||| v.setWidth 12)
  | .wrSel v => .ofWord (0x300 ||| v.setWidth 12)
  | .decayFire n => .ofWord (0x400 ||| BitVec.ofNat 12 n.val)
  | .blinkTick => .ofWord 0x500
  | .debounceFire => .ofWord 0x600
  | .reset v => .ofWord (0x800 ||| (BitVec.ofBool v).setWidth 12)
  | .advance d => ⟨0x900, d, defaultImage⟩
  | .save => .ofWord 0xA00
  | .restore img => ⟨0xB00, 0, img⟩

/-- For the host: the instruction the decoder reads from a bare word of the opcode table. A word above 12 bits is no
stimulus word. The table has no variant, so the word is read as the variant reads it in which its form exists,
CHESS first; the out-of-band operands are those of `Stimulus.ofWord` (log entry 18). -/
def decodeTableWord (_nbits w : Nat) : Option Instr :=
  if w < 4096 then
    let st := Stimulus.ofWord (BitVec.ofNat 12 w)
    (decode .chess st).or (decode .console st)
  else none

/-- The hexadecimal digit of a number below 16, in capitals as the spec's examples have it. -/
def hexDigit (n : Nat) : String := String.singleton (Nat.digitChar n).toUpper

/-- A byte as the assembler writes it, `0x` and two digits (R104). -/
def hexByte (v : Byte) : String := "0x" ++ hexDigit (v.toNat / 16) ++ hexDigit (v.toNat % 16)

/-- The assembler text of a stimulus (R104). An image has no text of its own: RESTORE is written with the operand
name `img`. -/
def Instr.asmText : Instr → String
  | .rdData => "RD DATA"
  | .rdSel => "RD SEL"
  | .wrData v => "WR DATA, " ++ hexByte v
  | .wrSel v => "WR SEL, " ++ hexByte v
  | .decayFire n => "DECAY_FIRE " ++ toString n.val
  | .blinkTick => "BLINK_TICK"
  | .debounceFire => "DEBOUNCE_FIRE"
  | .reset v => "RESET " ++ (if v then "1" else "0")
  | .advance d => "ADVANCE " ++ toString d ++ " ns"
  | .save => "SAVE"
  | .restore _ => "RESTORE img"

end Sys2Proof
end

