-- ==== Sys2Proof/Machine/Fetch.lean ====
section
/-! DEFINITION. Where the next stimulus comes from. The block fetches no instructions (rules R22, R66): the agents
put stimuli in order (R10, R60) and the sequencer takes the first. -/

namespace Sys2Proof.Machine

/-- The next stimulus in the total order, and the machine without it. -/
def takeStimulus (s : State) : Option (Stimulus × State) :=
  match s.stimuli with
  | [] => none
  | st :: rest => some (st, { s with stimuli := rest })

/-- Put a stimulus before all others. -/
def offer (s : State) (st : Stimulus) : State := { s with stimuli := st :: s.stimuli }

/-- The unit of variant `v` at power-on, with the same wiring and everything outside the block as it was; the machine
itself where it already is that variant. Used by `placeWord` alone (log entry 17). -/
def configuredAs (v : Variant) (s : State) : State :=
  if s.params.variant = v then s
  else
    let p := { defaultParams v with wiring := s.params.wiring }
    { s with params := p, block := powerOn p }

/-- A variant in which line index `n` exists, the present one where it does. -/
def variantWithLine (v : Variant) (n : Fin 8) : Variant := if n.val < numLines v then v else .console

/-- The machine in which the scheduler may issue the form (R10, R61): the variant that has the form, its timer due.
Bus and host forms may be issued at any time (R236), so for them nothing changes. -/
def readyFor (s : State) : Option Instr → State
  | some (.decayFire n) =>
    let c := configuredAs (variantWithLine s.params.variant n) s
    match lineOf c.params.variant n with
    | none => s
    | some i => c.withBlock { c.block with decayDl := c.block.decayDl.set i (some c.block.now) }
  | some .blinkTick =>
    let c := configuredAs .chess s
    c.withBlock { c.block with blinkDl := some c.block.now }
  | some .debounceFire =>
    let c := configuredAs .console s
    c.withBlock { c.block with debDl := some c.block.now }
  | _ => s

/-- For the host: `s` about to take the bare word `w` of the opcode table as its next stimulus, in a machine in which
that stimulus is enabled (log entry 17). Out of band: duration 0 and the power-on image of the machine's variant. A
number above 12 bits is no stimulus word: the reserved word 0xFFF stands for it. -/
def placeWord (s : State) (w : Nat) : State :=
  if w < 4096 then
    let word := BitVec.ofNat 12 w
    let c := readyFor s ((formOf word).map (operands (Stimulus.ofWord word)))
    offer c ⟨word, 0, ⟨c.params.variant, powerOn c.params⟩⟩
  else offer s (Stimulus.ofWord 0xFFF)

end Sys2Proof.Machine
end

