-- ==== Sys2Proof/Machine/Step.lean ====
section
/-! DEFINITION. One step: take the next stimulus, decode it, execute it (rules R60, R103, R241). -/

namespace Sys2Proof.Machine

/-- One step of the machine. With no stimulus offered there is no step; a word that does not decode is refused and
changes no state (R94, R241). -/
def step (s : State) : Host.Outcome State Fault Refusal :=
  match takeStimulus s with
  | none => .fault .noStimulus
  | some (st, rest) =>
    match decode s.params.variant st with
    | none => .refused .reservedEncoding
    | some i => exec i rest

/-- For the host: `s` with the instruction of a bare opcode-table word where `step` takes its next stimulus
(`placeWord`; log entry 17). -/
def State.withFetchWord (s : State) (_nbits w : Nat) : State := placeWord s w

end Sys2Proof.Machine
end

