-- ==== Sys2Proof/Machine/BusMap.lean ====
section
/-! DEFINITION. The register space and its binding to the CPU's ports, 20_memory.md rules R70 to R72. The binding is
outside the block: no step reads it (R127). -/

namespace Sys2Proof.Machine

/-- `MemRead(off, 1)`: the read action of a register (R70, R72). -/
def memRead : Register → Instr
  | .data => .rdData
  | .sel => .rdSel

/-- `MemWrite(off, 1, v)`: the write action of a register (R70, R72). -/
def memWrite : Register → Byte → Instr
  | .data, v => .wrData v
  | .sel, v => .wrSel v

/-! ## The CPU's ports (R71)

In CHESS a port is bound to a register. In CONSOLE an access goes through the companion chip, which is out of scope (R6):
what it holds latched is its own, so the functions below take it and answer what it is afterwards; nothing of it is
state of the block. -/

/-- CHESS: port 0x00 is DATA, port 0x01 is SEL (R71, D11). -/
def chessPort (port : Byte) : Option Register :=
  if port = 0x00 then some .data else if port = 0x01 then some .sel else none

/-- CONSOLE: the chip has the ports 0xF4 to 0xF7 (R71). -/
def isConsolePort (port : Byte) : Bool := decide (0xF4 ≤ port.toNat) && decide (port.toNat ≤ 0xF7)

/-- The entry of CONSOLE_PORT_MAP for a CPU write (R71, R128). -/
def consoleWrite (m : PortMap) (latched : Nat) (port : Byte) : Option PortWrite :=
  if isConsolePort port then m.writes.find? fun r => r.latched == latched && r.port == port else none

/-- The entry of CONSOLE_PORT_MAP for a CPU read (R71, R128). -/
def consoleRead (m : PortMap) (latched : Nat) (port : Byte) : Option PortRead :=
  if isConsolePort port then m.reads.find? fun r => r.latched == latched && r.port == port else none

/-- A CPU write of `v` to a port (R71, R128): the bus forms that reach the block, in order, and what the chip holds latched
afterwards. -/
def portWrite (p : Params) (latched : Nat) (port v : Byte) : List Instr × Nat :=
  match p.variant with
  | .chess => ((chessPort port).toList.map (memWrite · v), latched)
  | .console =>
    match consoleWrite p.wiring.consolePortMap latched port with
    | none => ([], latched)
    | some r => (r.reaches[v.toFin].map fun h => memWrite h.1 h.2, r.after[v.toFin])

/-- The register whose read handler a CPU read of a port reaches, if one is (R71, R128). -/
def portReadRegister (p : Params) (latched : Nat) (port : Byte) : Option Register :=
  match p.variant with
  | .chess => chessPort port
  | .console => (consoleRead p.wiring.consolePortMap latched port).bind (·.register)

/-- The bus form a CPU read of a port runs, if it reaches the block. -/
def portRead (p : Params) (latched : Nat) (port : Byte) : Option Instr :=
  (portReadRegister p latched port).map memRead

/-- What the CPU gets from a port and what the chip holds latched afterwards, when the block has answered `x` (0 where the
read does not reach it); no byte from a port the unit does not have (R128). -/
def portAnswer (p : Params) (latched : Nat) (port x : Byte) : Option Byte × Nat :=
  match p.variant with
  | .chess => ((chessPort port).map fun _ => x, latched)
  | .console =>
    match consoleRead p.wiring.consolePortMap latched port with
    | none => (none, latched)
    | some r => (some r.answers[x.toFin], r.after[x.toFin])

end Sys2Proof.Machine
end

