-- ==== Sys2Proof/Machine/Pseudo.lean ====
section
/-! DEFINITION. The pseudo-instructions of rule R105 as sequences of stimulus forms. -/

namespace Sys2Proof.Machine

/-- `SHOW s, v` (R105). -/
def pseudoShow (sel data : Byte) : List Instr := [.wrData data, .wrSel sel]

/-- `PULSE_RESET` (R105). -/
def pseudoPulseReset : List Instr := [.reset true, .reset false]

/-- The timer event of a line, if it is due. -/
def dueDecay (s : State) (i : Line) : Option Instr :=
  if isLine s.params.variant i = true ∧ s.block.decayDl[i] = some s.block.now then
    some (.decayFire (i.castLE (by decide)))
  else none

/-- Every timer event due at `now` (R61): what `RUN_DUE` issues, in any order (R105). -/
def dueEvents (s : State) : List Instr :=
  lines.filterMap (dueDecay s) ++
  (if s.params.variant = .chess ∧ s.block.blinkDl = some s.block.now then [.blinkTick] else []) ++
  (if s.params.variant = .console ∧ s.block.debDl = some s.block.now then [.debounceFire] else [])

/-- Where `RUN` lets time go next: the least pending deadline that is at most `endTime`, or `endTime` (R105). -/
def nextStop (endTime : Time) (s : State) : Time :=
  (pendingDeadlines s.params.variant s.block).foldl min endTime

/-- `RUN_DUE` ends in `t`: due events are issued, in any order, until none is due (R105; log entry 23). -/
inductive RunsDueTo : State → State → Prop
  | done (s : State) : dueEvents s = [] → RunsDueTo s s
  | issue (s t u : State) (i : Instr) :
      i ∈ dueEvents s → exec i s = .next t → RunsDueTo t u → RunsDueTo s u

/-- `RUN`'s loop to `endTime` ends in `t` (R105): while `now < endTime`, an ADVANCE to the next stop, then every event due
there; after the loop, the events due at the end. -/
inductive RunsUntil (endTime : Time) : State → State → Prop
  | done (s t : State) : endTime ≤ s.block.now → RunsDueTo s t → RunsUntil endTime s t
  | turn (s a b t : State) : s.block.now < endTime →
      exec (.advance (nextStop endTime s - s.block.now)) s = .next a → RunsDueTo a b → RunsUntil endTime b t →
      RunsUntil endTime s t

/-- `RUN d` ends in `t` (R105): the loop with `end = now + d`, `now` being that at the start. Every order of same-time
events is a run (R62; log entry 23). -/
def RunsTo (d : Time) (s t : State) : Prop := RunsUntil (s.block.now + d) s t

end Sys2Proof.Machine
end

