-- ==== Sys2Proof/Safety.lean ====
section
/-! DEFINITION. The terms claims are stated in: the invariant of reachable states (rules R27, R28, R31, R33, R34, R61),
the recompute as the spec describes it (R151 to R155), records, frames, reserved words (R94), runs (R236). -/

namespace Sys2Proof.Safety

open Sys2Proof.Machine

/-- What holds of the block in every reachable state, and what a RESTORE image must satisfy (R233). -/
structure Inv (v : Variant) (b : Block) : Prop where
  /-- No deadline has passed (R61). -/
  decay_ahead : ∀ (i : Line) (t : Time), isLine v i = true → b.decayDl[i] = some t → b.now ≤ t
  debounce_ahead : ∀ t : Time, b.debDl = some t → b.now ≤ t
  blink_ahead : ∀ t : Time, b.blinkDl = some t → b.now ≤ t
  /-- An asserted line is active (R27). -/
  asserted_active : ∀ i : Line, isLine v i = true → asserted v b.sel i = true → b.act[i] = true
  /-- An active line that is not asserted has its decay timer pending (R27). -/
  active_armed : ∀ i : Line, isLine v i = true → asserted v b.sel i = false → b.act[i] = true → b.decayDl[i] ≠ none
  /-- A digit that shows anything is active (R31). -/
  lit_active : ∀ i : Digit, b.out[i] ≠ 0 → b.act[i.line] = true
  /-- A lit lamp's line is active (R31). -/
  lamps_active : v = .console → (b.lampLose = true → b.act[4] = true) ∧ (b.lampWin = true → b.act[5] = true)
  /-- In CHESS the oscillator runs and no debounce is pending (R33, R34). -/
  chess_timers : v = .chess → b.blinkDl ≠ none ∧ b.debDl = none
  /-- In CONSOLE there is no oscillator and BPH is 0 (R28, R34). -/
  console_blink : v = .console → b.blinkDl = none ∧ b.bph = false

/-- The invariant of a machine. -/
def Consistent (s : State) : Prop := Inv s.params.variant s.block

/-- Every digit's physical decimal point is dark (R160). -/
def DecimalPointDark (b : Block) : Prop := ∀ i : Digit, b.out[i].getLsbD 7 = false

/-- What bit `k` of a selected digit shows: the wired segment bit; in CHESS with SEG[DPL] = 1 only while BPH is the
showing phase, and never the decimal point (R152, R153, R154). -/
def shownBit (p : Params) (b : Block) (k : Fin 8) : Bool :=
  match p.variant with
  | .console => b.seg.getLsbD p.wiring.segPermConsole[k].val
  | .chess =>
    if b.seg.getLsbD p.wiring.segPermChess[(7 : Fin 8)].val = true then
      decide (b.bph = p.blinkShow) && decide (k ≠ 7) && b.seg.getLsbD p.wiring.segPermChess[k].val
    else b.seg.getLsbD p.wiring.segPermChess[k].val

/-- The outputs of `after` are those of a recompute of `after`'s own SEL, SEG, ACT and BPH, with the outputs of `before`
held where the rules hold them (R151, R154, R155, R157). -/
structure Recomputed (p : Params) (before after : Block) : Prop where
  selected : ∀ i : Digit, asserted p.variant after.sel i.line = true →
    ∀ k : Fin 8, after.out[i].getLsbD k.val = shownBit p after k
  held : ∀ i : Digit, asserted p.variant after.sel i.line = false → after.act[i.line] = true →
    after.out[i] = before.out[i]
  blank : ∀ i : Digit, asserted p.variant after.sel i.line = false → after.act[i.line] = false → after.out[i] = 0
  console_lamps : p.variant = .console → after.lampLose = after.act[4] ∧ after.lampWin = after.act[5]
  chess_lamps : p.variant = .chess → after.lampLose = before.lampLose ∧ after.lampWin = before.lampWin

/-- The two blocks have the same outputs. -/
def SameOutputs (b c : Block) : Prop := c.out = b.out ∧ c.lampLose = b.lampLose ∧ c.lampWin = b.lampWin

/-- The step has put exactly one record into the render sink, with the time and outputs it leaves (R158). -/
def EmitsOne (s t : State) : Prop :=
  ∃ r : RenderRecord, t.records = s.records ++ [r] ∧ r.time = t.block.now ∧ r.out = t.block.out ∧
    r.lamps = (if s.params.variant = .console then some (t.block.lampLose, t.block.lampWin) else none)

/-- Nothing outside the block but the render sink has changed. -/
def SameSurroundings (s t : State) : Prop :=
  t.params = s.params ∧ t.stimuli = s.stimuli ∧ t.keypad = s.keypad ∧ t.draws = s.draws ∧
    t.reads = s.reads ∧ t.snapshots = s.snapshots

/-- The forms that call `Recompute()` (R159). -/
def callsRecompute (v : Variant) : Instr → Bool
  | .wrData _ => true
  | .wrSel _ => decide (v = .chess)
  | .debounceFire => true
  | .decayFire _ => true
  | .blinkTick => true
  | .rdData => false
  | .rdSel => false
  | .reset _ => false
  | .advance _ => false
  | .save => false
  | .restore _ => false

/-- The form runs the reset edge in this state (R231). -/
def IsResetEdge (s : State) (i : Instr) : Prop := i = .reset true ∧ s.block.rst = false

/-- The form is a RESTORE. -/
def IsRestore (i : Instr) : Prop := ∃ img, i = .restore img

/-- The reserved and illegal words of R94, field by field: class 11; EVENT with K = 11, with S[7:3] nonzero, with L
nonzero for another kind than DECAY_FIRE, of a line the variant lacks, or absent from the variant; HOST with S[7:1]
nonzero, or with V nonzero for another action than RESET. -/
def ReservedWord (v : Variant) (w : BitVec 12) : Prop :=
  w.extractLsb' 10 2 = 3 ∨
  (w.extractLsb' 10 2 = 1 ∧
    (w.extractLsb' 8 2 = 3 ∨ w.extractLsb' 3 5 ≠ 0 ∨
      (w.extractLsb' 8 2 ≠ 0 ∧ w.extractLsb' 0 3 ≠ 0) ∨
      (w.extractLsb' 8 2 = 0 ∧ numLines v ≤ (w.extractLsb' 0 3).toNat) ∨
      (w.extractLsb' 8 2 = 1 ∧ v = .console) ∨ (w.extractLsb' 8 2 = 2 ∧ v = .chess))) ∨
  (w.extractLsb' 10 2 = 2 ∧
    (w.extractLsb' 1 7 ≠ 0 ∨ (w.extractLsb' 8 2 ≠ 0 ∧ w.getLsbD 0 = true)))

/-- States reached from power-on without RESTORE, each step by a form that answers a next state (R27, R31). -/
inductive Reaches (p : Params) : State → Prop
  | start : Reaches p (State.powerOn p)
  | next (s t : State) (i : Instr) : Reaches p s → ¬ IsRestore i → exec i s = .next t → Reaches p t

/-- The host's liveness duty (R236): along an endless run every pending deadline is some time fired or replaced. The
model's step does not force it (log entry 22). -/
def FairRun (run : Nat → State) : Prop :=
  (∀ n, ∃ i, exec i (run n) = .next (run (n + 1))) ∧
  (∀ n (l : Line) t, isLine (run n).params.variant l = true → (run n).block.decayDl[l] = some t →
    ∃ m, n ≤ m ∧ (run m).block.decayDl[l] ≠ some t) ∧
  (∀ n t, (run n).block.debDl = some t → ∃ m, n ≤ m ∧ (run m).block.debDl ≠ some t) ∧
  (∀ n t, (run n).block.blinkDl = some t → ∃ m, n ≤ m ∧ (run m).block.blinkDl ≠ some t)

end Sys2Proof.Safety
end

