-- ==== Sys2Proof/Certificates/Slice0/Obligations.lean ====
section
/-! DEFINITION. The statements for the provers. Each docstring names the rules it formalises; a statement that rests on a
point the spec marks as its own choice ([decision], [derived]) or on a log entry says so. -/

open Sys2Proof Sys2Proof.Machine Sys2Proof.Safety

/-! ## Encoding -/

/-- R102, R103, R104 (decision D23): decoding the encoded form gives it back, with every operand at every value, in
every variant that has the form. -/
def Obligations.DecodeOfEncodeIsIdentity : Prop :=
  ∀ (v : Variant) (i : Instr), i.WellFormed v → decode v (encode i) = some i

/-- R95, R102, R103 (decisions D23, D40): the other direction. Encoding what was decoded gives the stimulus word back, up
to the don't-care bits of the two reads, and the out-of-band operand. -/
def Obligations.EncodeOfDecodeGivesTheWordBack : Prop :=
  ∀ (v : Variant) (st : Stimulus) (i : Instr), decode v st = some i →
    (encode i).word = (if st.word.extractLsb' 9 3 = 0 then st.word &&& 0xF00 else st.word) ∧
    (∀ d, i = .advance d → d = st.duration) ∧ (∀ img, i = .restore img → img = st.image)

/-- R94 (decision D24): the reserved and illegal words are exactly those the decoder refuses, and a step that meets one
is refused with `reserved_encoding`. -/
def Obligations.ReservedWordsAreRefused : Prop :=
  (∀ (v : Variant) (st : Stimulus), decode v st = none ↔ ReservedWord v st.word) ∧
  (∀ (s : State) (st : Stimulus) (rest : List Stimulus), s.stimuli = st :: rest →
    ReservedWord s.params.variant st.word → step s = .refused .reservedEncoding)

/-- 30_encoding.md section 4 and 95_test_vectors.md section 2.7: a few words of the spec decode to the forms they stand
for. -/
def Obligations.SampleWordsDecode : Prop :=
  decode .chess (.ofWord 0x2AB) = some (.wrData 0xAB) ∧
  decode .console (.ofWord 0x30F) = some (.wrSel 0x0F) ∧
  decode .chess (.ofWord 0x403) = some (.decayFire 3) ∧
  decode .chess (.ofWord 0x405) = none ∧
  decode .console (.ofWord 0x405) = some (.decayFire 5) ∧
  decode .chess (.ofWord 0x500) = some .blinkTick ∧
  decode .console (.ofWord 0x600) = some .debounceFire ∧
  decode .chess (.ofWord 0x801) = some (.reset true) ∧
  decode .console (.ofWord 0xA00) = some .save

/-- R95 (decision D40): the data bits of a read stimulus are ignored. -/
def Obligations.ReadDataBitsAreIgnored : Prop :=
  ∀ (v : Variant) (x : Byte) (d : Time) (img : Image),
    decode v ⟨0x000 ||| x.setWidth 12, d, img⟩ = some .rdData ∧
    decode v ⟨0x100 ||| x.setWidth 12, d, img⟩ = some .rdSel

/-- R60, R103: a step takes the first offered stimulus away and executes the form it decodes to. That stimuli stand in a
list is the model's choice (log entry 1). -/
def Obligations.StepRunsTheOfferedStimulus : Prop :=
  ∀ (s : State) (st : Stimulus) (rest : List Stimulus) (i : Instr), s.stimuli = st :: rest →
    decode s.params.variant st = some i → step s = exec i { s with stimuli := rest }

/-- R94 (decision D24): the meanings themselves refuse a form absent from the variant. -/
def Obligations.AbsentFormsAreRefused : Prop :=
  ∀ (s : State) (i : Instr), ¬ i.WellFormed s.params.variant → exec i s = .refused .reservedEncoding

/-! ## Power-on and the parameters -/

/-- R40, R270: every element at power-on, in both variants. The select byte (D9), the first blink tick (D15) and RST (D38)
are the spec's own choices; that `State.reset` is the CHESS unit is the model's (log entry 2). -/
def Obligations.PowerOnValues : Prop :=
  (∀ p : Params,
    let b := (State.powerOn p).block
    b.sel = (if p.variant = .chess then 0xFF else 0x00) ∧ b.seg = 0 ∧ (∀ i : Line, b.act[i] = false) ∧ b.bph = false ∧
    (∀ i : Digit, b.out[i] = 0) ∧ b.lampLose = false ∧ b.lampWin = false ∧ (∀ i : Line, b.decayDl[i] = none) ∧
    b.debDl = none ∧ b.blinkDl = (if p.variant = .chess then some p.blinkPeriod else none) ∧ b.rst = false ∧ b.now = 0 ∧
    (∀ i : Line, isLine p.variant i = true → asserted p.variant b.sel i = false) ∧ (State.powerOn p).records = []) ∧
  State.reset = State.powerOn (defaultParams .chess)

/-- R8 (decisions D3, D7, D12, D17): what the spec gives each variant: CHESS has 4 lines, a decay of 20 ms, a blink period
of 250 ms and BLINK_SHOW = 1; CONSOLE has 6 lines, a decay of 25 ms, a debounce of 15 us with KEEP, and the no-key code
0xF. That these stand in `defaultParams` is the model's choice (log entries 4 to 6 and 16), and so is that the OPEN
parameters there meet the constraints of R14 and R215 (log entry 3: a stand-in replaces what the spec excludes). -/
def Obligations.ParametersHaveTheSpecsValues : Prop :=
  (numLines .chess = 4 ∧
    let p := defaultParams .chess
    p.variant = .chess ∧ p.decayDelay = 20000000 ∧ p.blinkPeriod = 250000000 ∧ p.blinkShow = true) ∧
  (numLines .console = 6 ∧
    let p := defaultParams .console
    p.variant = .console ∧ p.decayDelay = 25000000 ∧ p.debounceDelay = 15000 ∧ p.debounceMode = .keep ∧
      p.noKeyCode = 0xF) ∧
  ∀ v, (defaultParams v).wiring.Admitted

/-- R14, R23, R152 (decision D8): line `i` is asserted by a clear select bit in CHESS and by a set one in CONSOLE, and
`permute` moves bit `P[k]` to bit `k`. -/
def Obligations.SelectPolarityAndWiring : Prop :=
  (∀ (s : Byte) (i : Line), (asserted .chess s i = true ↔ s.getLsbD i.val = false) ∧
    (asserted .console s i = true ↔ s.getLsbD i.val = true)) ∧
  (∀ (P : BitPerm) (s : Byte) (k : Fin 8), (permute P s).getLsbD k.val = s.getLsbD P[k].val)

/-- R2, R37: the parameters, the variant among them, are fixed for a run. -/
def Obligations.StepsNeverChangeTheParameters : Prop :=
  ∀ s t : State, step s = .next t → t.params = s.params

/-- R38, R158, R210, R234: what lies outside the block (the render sink, the bytes read, the images handed out, the
keypad, later stimuli) never influences the block's state. -/
def Obligations.SurroundingsNeverInfluenceTheBlock : Prop :=
  ∀ (i : Instr) (s s' t : State), s'.params = s.params → s'.block = s.block → exec i s = .next t →
    ∃ t', exec i s' = .next t' ∧ t'.block = t.block

/-! ## The bus -/

/-- R77: "Every access to offsets 0 and 1 is accepted". -/
def Obligations.EveryBusAccessIsAccepted : Prop :=
  ∀ (s : State) (r : Register) (v : Byte),
    (∃ t, exec (memWrite r v) s = .next t) ∧ (∃ t, exec (memRead r) s = .next t)

/-- R121: WR DATA stores the byte and recomputes in the same step; it touches no other element and emits one record. -/
def Obligations.WrDataStoresAndRecomputes : Prop :=
  ∀ (s : State) (v : Byte), ∃ t, exec (.wrData v) s = .next t ∧
    t.block.seg = v ∧ Recomputed s.params s.block t.block ∧ EmitsOne s t ∧ SameSurroundings s t ∧
    t.block.sel = s.block.sel ∧ t.block.act = s.block.act ∧ t.block.bph = s.block.bph ∧
    t.block.decayDl = s.block.decayDl ∧ t.block.debDl = s.block.debDl ∧ t.block.blinkDl = s.block.blinkDl ∧
    t.block.rst = s.block.rst ∧ t.block.now = s.block.now

/-- R123: in CHESS, WR SEL ends with a recompute in the same step, which sees the new SEL and ACT. -/
def Obligations.WrSelRecomputesAtOnceInChess : Prop :=
  ∀ (s : State) (v : Byte), s.params.variant = .chess → ∃ t, exec (.wrSel v) s = .next t ∧
    t.block.sel = v ∧ Recomputed s.params s.block t.block ∧ EmitsOne s t

/-- R122, R181, R24 (decisions D8, D30): in both variants WR SEL stores the byte; a deselect edge arms the line's timer
at `now + DECAY_DELAY` whatever it held; a rising edge sets ACT and leaves the timer; other lines, those the variant
lacks among them, keep both; nothing else changes but outputs, DEB_DL and the record. -/
def Obligations.WrSelHandlesSelectEdges : Prop :=
  ∀ (s : State) (v : Byte),
    let w := s.params.variant
    ∃ t, exec (.wrSel v) s = .next t ∧ t.block.sel = v ∧
    (∀ i : Line,
      if isLine w i = true ∧ asserted w s.block.sel i = true ∧ asserted w v i = false then
        t.block.decayDl[i] = some (s.block.now + s.params.decayDelay) ∧
          t.block.act[i] = s.block.act[i]
      else if isLine w i = true ∧ asserted w s.block.sel i = false ∧ asserted w v i = true then
        t.block.act[i] = true ∧ t.block.decayDl[i] = s.block.decayDl[i]
      else t.block.act[i] = s.block.act[i] ∧ t.block.decayDl[i] = s.block.decayDl[i]) ∧
    t.block.seg = s.block.seg ∧ t.block.bph = s.block.bph ∧ t.block.blinkDl = s.block.blinkDl ∧
    t.block.rst = s.block.rst ∧ t.block.now = s.block.now ∧ (w = .chess → t.block.debDl = s.block.debDl) ∧
    SameSurroundings s t

/-- R124, R129, R278 (decision D12): in CONSOLE, WR SEL leaves the outputs alone, emits no record, and has one recompute
pending: the one already pending with KEEP, one DEBOUNCE_DELAY from now with RESCHEDULE or with none pending. -/
def Obligations.WrSelSchedulesOneRecomputeInConsole : Prop :=
  ∀ (s : State) (v : Byte), s.params.variant = .console → ∃ t, exec (.wrSel v) s = .next t ∧
    SameOutputs s.block t.block ∧ t.records = s.records ∧
    (∀ u, s.block.debDl = some u → s.params.debounceMode = .keep → t.block.debDl = some u) ∧
    (s.block.debDl = none ∨ s.params.debounceMode = .reschedule → t.block.debDl = some (s.block.now + s.params.debounceDelay))

/-- R75, R125, R126 (decisions D10, D32): a read changes no element of the block, emits no record, and answers one
byte; RD SEL answers a free value. At most one keypad answer or one free value is used up. -/
def Obligations.ReadsLeaveTheBlockAlone : Prop :=
  (∀ s : State, ∃ t x, exec .rdData s = .next t ∧ t.block = s.block ∧ t.records = s.records ∧
    t.reads = s.reads ++ [x] ∧ t.params = s.params ∧ t.stimuli = s.stimuli ∧ t.snapshots = s.snapshots ∧
    (if s.keypad = [] then t.keypad = [] ∧ t.draws = s.draws + 1
      else t.keypad = s.keypad.tail ∧ t.draws = s.draws)) ∧
  (∀ s : State, ∃ t, exec .rdSel s = .next t ∧ t.block = s.block ∧ t.records = s.records ∧
    t.reads = s.reads ++ [Config.draw8 s.draws] ∧ t.params = s.params ∧ t.stimuli = s.stimuli ∧
    t.snapshots = s.snapshots ∧ t.keypad = s.keypad ∧ t.draws = s.draws + 1)

/-! ## The keypad -/

/-- R213: in CHESS, bit `4 + j` of the byte read says that some line selected by SEG has the button of column `j`
pressed. -/
def Obligations.ChessReadHighNibbleIsTheColumnsOfSelectedLines : Prop :=
  ∀ s : State, s.params.variant = .chess → ∃ t x, exec .rdData s = .next t ∧ t.reads = s.reads ++ [x] ∧
    ∀ j : Fin 4, x.getLsbD (4 + j.val) = true ↔
      ∃ i : Fin 4, s.block.seg.getLsbD i.val = true ∧ (pollKeypad s).1.lines[i].getLsbD j.val = true

/-- R212 (decision D20): in CHESS, bit `i` of the byte read says that line `i` has a pressed button in a column enabled by
SEG[3:0]. -/
def Obligations.ChessReadLowNibbleIsTheLinesWithAnEnabledButton : Prop :=
  ∀ s : State, s.params.variant = .chess → ∃ t x, exec .rdData s = .next t ∧ t.reads = s.reads ++ [x] ∧
    ∀ i : Fin 4, x.getLsbD i.val = true ↔
      ∃ j : Fin 4, s.block.seg.getLsbD j.val = true ∧ (pollKeypad s).1.lines[i].getLsbD j.val = true

/-- R215 to R218 (decisions D17, D18, D19): in CONSOLE the high nibble is the inverted group-B word; the low nibble is the
no-key code for an empty group-A word, and `(CLZ_WIDTH - 1 - h - CLZ_OFFSET) mod 16` for one whose highest pressed key
is `h`. The word decoded is the polled one without its bits at or above KEY_A_WIDTH, which R211 says are 0: that cut is
the model's (DEDUCED, log entry 11). R219 asks a claim about a program not to rely on the code of several keys; this one
is about the scanner. -/
def Obligations.ConsoleReadDecodesBothGroups : Prop :=
  ∀ s : State, s.params.variant = .console →
    let o := s.params.wiring
    let k := (pollKeypad s).1
    let a := k.groupA % 2 ^ o.keyAWidth
    ∃ t x, exec .rdData s = .next t ∧ t.reads = s.reads ++ [x] ∧
    (∀ j : Fin 4, x.getLsbD (4 + j.val) = !k.groupB.getLsbD j.val) ∧
    (a = 0 → x.extractLsb' 0 4 = s.params.noKeyCode) ∧
    (∀ h : Nat, h < o.clzWidth → a.testBit h = true → (∀ m, h < m → a.testBit m = false) →
      (x.extractLsb' 0 4).toNat = (((o.clzWidth : Int) - 1 - h - o.clzOffset) % 16).toNat)

/-- R215 (decision D18), with the constraint turned the way its consequence needs (log entry 15): where
`CLZ_OFFSET <= CLZ_WIDTH - KEY_A_WIDTH` and `CLZ_WIDTH - CLZ_OFFSET <= 15`, different keys have different codes and none
is the no-key code 0xF (decision D17). -/
def Obligations.OneHotKeyCodesAreDistinct : Prop :=
  ∀ p : Params, p.noKeyCode = 0xF → p.wiring.keyAWidth ≤ p.wiring.clzWidth →
    p.wiring.clzOffset ≤ p.wiring.clzWidth - p.wiring.keyAWidth → p.wiring.clzWidth - p.wiring.clzOffset ≤ 15 →
    ∀ j k : Nat, j < p.wiring.keyAWidth → k < p.wiring.keyAWidth →
      (keyCode p (2 ^ j) = keyCode p (2 ^ k) → j = k) ∧ keyCode p (2 ^ k) ≠ keyCode p 0

/-- R215 read literally (log entry 15): its constraint does not have the consequence it names; some admitted parameters
give a key the no-key code 0xF. -/
def Obligations.LiteralKeyConstraintAdmitsACollision : Prop :=
  ∃ p : Params, p.noKeyCode = 0xF ∧ p.wiring.ClzAdmitted ∧
    ∃ k, k < p.wiring.keyAWidth ∧ keyCode p (2 ^ k) = keyCode p 0

/-! ## The display multiplexer -/

/-- R150: a recompute writes the outputs and one record and nothing else; which outputs depends on SEL, SEG, ACT and, in
CHESS, BPH, and on the outputs held. -/
def Obligations.RecomputeWritesOnlyTheOutputs : Prop :=
  (∀ s : State, Recomputed s.params s.block (recompute s).block ∧ EmitsOne s (recompute s) ∧
    SameSurroundings s (recompute s) ∧
    (recompute s).block = { s.block with
      out := (recompute s).block.out
      lampLose := (recompute s).block.lampLose
      lampWin := (recompute s).block.lampWin }) ∧
  (∀ s s' : State, s'.params = s.params → s'.block.sel = s.block.sel → s'.block.seg = s.block.seg →
    s'.block.act = s.block.act → (s.params.variant = .chess → s'.block.bph = s.block.bph) →
    SameOutputs s.block s'.block → SameOutputs (recompute s).block (recompute s').block)

/-- R156: a second recompute changes nothing and sends an equal record. -/
def Obligations.RecomputeIsIdempotent : Prop :=
  ∀ s : State, (recompute (recompute s)).block = (recompute s).block ∧
    ∃ r, (recompute (recompute s)).records = s.records ++ [r, r]

/-- R159, with R158: the forms that recompute do so at the end of their own step, and no other form does; the reset edge
writes the outputs itself; the sink hears of a step exactly if it recomputes or is a reset edge. -/
def Obligations.RecomputeIsCalledByExactlyTheseSteps : Prop :=
  ∀ (i : Instr) (s t : State), exec i s = .next t →
    (callsRecompute s.params.variant i = true → Recomputed s.params s.block t.block ∧ EmitsOne s t) ∧
    (IsResetEdge s i → (∀ d : Digit, t.block.out[d] = 0) ∧
      (s.params.variant = .console → t.block.lampLose = false ∧ t.block.lampWin = false) ∧ EmitsOne s t) ∧
    (callsRecompute s.params.variant i = false → ¬ IsResetEdge s i →
      t.records = s.records ∧ (¬ IsRestore i → SameOutputs s.block t.block))

/-- R203, R154: the blink phase matters to the outputs only in CHESS and only while SEG[DPL] is 1. -/
def Obligations.BlinkPhaseMattersOnlyInBlinkMode : Prop :=
  ∀ (s : State) (x : Bool),
    s.params.variant = .console ∨ s.block.seg.getLsbD (s.params.wiring.segPermChess[(7 : Fin 8)]).val = false →
    SameOutputs (recompute s).block (recompute (s.withBlock { s.block with bph := x })).block

/-- R160: in CHESS no form lights a decimal point. That RESTORE refuses an image with a lit one rests on R233's sentence
(decision D26; log entry 14). -/
def Obligations.DecimalPointStaysDarkInChess : Prop :=
  ∀ (i : Instr) (s t : State), s.params.variant = .chess → DecimalPointDark s.block → exec i s = .next t →
    DecimalPointDark t.block

/-! ## Who writes what -/

/-- R26: ACT of a line is set at once by a rising edge of that line and otherwise only by RESTORE; it is cleared by a
DECAY_FIRE of the line that finds it not asserted, by the reset edge, by RESTORE, and by nothing else. -/
def Obligations.ActiveMaskHasOnlyItsWriters : Prop :=
  (∀ (s : State) (v : Byte) (l : Line), isLine s.params.variant l = true →
    asserted s.params.variant s.block.sel l = false → asserted s.params.variant v l = true →
    ∃ t, exec (.wrSel v) s = .next t ∧ t.block.act[l] = true) ∧
  (∀ (s : State) (n : Fin 8) (l : Line), l.val = n.val → isLine s.params.variant l = true →
    s.block.decayDl[l] = some s.block.now → asserted s.params.variant s.block.sel l = false →
    ∃ t, exec (.decayFire n) s = .next t ∧ t.block.act[l] = false) ∧
  (∀ (s : State) (l : Line), s.block.rst = false → ∃ t, exec (.reset true) s = .next t ∧ t.block.act[l] = false) ∧
  (∀ (s t : State) (img : Image), exec (.restore img) s = .next t → t.block.act = img.block.act) ∧
  (∀ (i : Instr) (s t : State) (l : Line), exec i s = .next t → s.block.act[l] = false → t.block.act[l] = true →
    (∃ v, i = .wrSel v ∧ isLine s.params.variant l = true ∧
      asserted s.params.variant s.block.sel l = false ∧ asserted s.params.variant v l = true) ∨ IsRestore i) ∧
  (∀ (i : Instr) (s t : State) (l : Line), exec i s = .next t → s.block.act[l] = true → t.block.act[l] = false →
    (∃ n, i = .decayFire n ∧ n.val = l.val ∧ asserted s.params.variant s.block.sel l = false) ∨
      IsResetEdge s i ∨ IsRestore i)

/-- R184: a rising edge does not disarm the line's timer; only DECAY_FIRE of the line, rearming by a deselect edge of
the line, the reset edge and RESTORE change its deadline. -/
def Obligations.DecayDeadlineHasOnlyItsWriters : Prop :=
  (∀ (s t : State) (v : Byte) (l : Line), asserted s.params.variant v l = true → exec (.wrSel v) s = .next t →
    t.block.decayDl[l] = s.block.decayDl[l]) ∧
  (∀ (i : Instr) (s t : State) (l : Line), exec i s = .next t → t.block.decayDl[l] ≠ s.block.decayDl[l] →
    (∃ n, i = .decayFire n ∧ n.val = l.val) ∨
    (∃ v, i = .wrSel v ∧ asserted s.params.variant s.block.sel l = true ∧ asserted s.params.variant v l = false) ∨
    IsResetEdge s i ∨ IsRestore i)

/-- The "written by" column of R20's table (with R28, R35, R36; decisions D25, D31): every other element changes only by
the steps named for it. -/
def Obligations.OtherElementsHaveOnlyTheirWriters : Prop :=
  ∀ (i : Instr) (s t : State), exec i s = .next t → ¬ IsResetEdge s i → ¬ IsRestore i →
    (t.block.sel ≠ s.block.sel → ∃ v, i = .wrSel v) ∧
    (t.block.seg ≠ s.block.seg → ∃ v, i = .wrData v) ∧
    (t.block.bph ≠ s.block.bph → i = .blinkTick ∧ s.params.variant = .chess) ∧
    (t.block.debDl ≠ s.block.debDl → s.params.variant = .console ∧ ((∃ v, i = .wrSel v) ∨ i = .debounceFire)) ∧
    (t.block.blinkDl ≠ s.block.blinkDl → i = .blinkTick ∧ s.params.variant = .chess) ∧
    (t.block.rst ≠ s.block.rst → ∃ v, i = .reset v) ∧
    (t.block.now ≠ s.block.now → ∃ d, i = .advance d)

/-! ## Timers and time -/

/-- R61: a timer event is enabled exactly when its deadline equals `now`, and ADVANCE exactly when it passes no pending
deadline. -/
def Obligations.TimerEventsAreEnabledExactlyWhenDue : Prop :=
  (∀ (s : State) (n : Fin 8) (l : Line), l.val = n.val → isLine s.params.variant l = true →
    ((∃ t, exec (.decayFire n) s = .next t) ↔ s.block.decayDl[l] = some s.block.now)) ∧
  (∀ s : State, s.params.variant = .console →
    ((∃ t, exec .debounceFire s = .next t) ↔ s.block.debDl = some s.block.now)) ∧
  (∀ s : State, s.params.variant = .chess →
    ((∃ t, exec .blinkTick s = .next t) ↔ s.block.blinkDl = some s.block.now)) ∧
  (∀ (s : State) (d : Time), (∃ t, exec (.advance d) s = .next t) ↔
    (∀ (l : Line) u, isLine s.params.variant l = true → s.block.decayDl[l] = some u → s.block.now + d ≤ u) ∧
    (∀ u, s.block.debDl = some u → s.block.now + d ≤ u) ∧ (∀ u, s.block.blinkDl = some u → s.block.now + d ≤ u))

/-- R242: what is not enabled has no step, under the model's names for it (log entry 7). -/
def Obligations.UndueStimuliHaveNoStep : Prop :=
  (∀ (s : State) (n : Fin 8) (l : Line), l.val = n.val → isLine s.params.variant l = true →
    s.block.decayDl[l] ≠ some s.block.now → exec (.decayFire n) s = .fault .notDue) ∧
  (∀ s : State, s.params.variant = .console → s.block.debDl ≠ some s.block.now →
    exec .debounceFire s = .fault .notDue) ∧
  (∀ s : State, s.params.variant = .chess → s.block.blinkDl ≠ some s.block.now →
    exec .blinkTick s = .fault .notDue) ∧
  (∀ (s : State) (d : Time) (u : Time), u ∈ pendingDeadlines s.params.variant s.block → u < s.block.now + d →
    exec (.advance d) s = .fault .passesDeadline)

/-- R182, R183, R180 (decision D35): a due DECAY_FIRE disarms its timer, clears ACT exactly if its line is still not
asserted, recomputes in either case, and touches no other line and no other element. -/
def Obligations.DecayFireExpiresItsLine : Prop :=
  ∀ (s : State) (n : Fin 8) (l : Line), l.val = n.val → isLine s.params.variant l = true →
    s.block.decayDl[l] = some s.block.now → ∃ t, exec (.decayFire n) s = .next t ∧
    t.block.decayDl[l] = none ∧
    t.block.act[l] = (if asserted s.params.variant s.block.sel l = true then s.block.act[l] else false) ∧
    (∀ m : Line, m ≠ l → t.block.decayDl[m] = s.block.decayDl[m] ∧ t.block.act[m] = s.block.act[m]) ∧
    Recomputed s.params s.block t.block ∧ EmitsOne s t ∧ SameSurroundings s t ∧
    t.block.sel = s.block.sel ∧ t.block.seg = s.block.seg ∧ t.block.bph = s.block.bph ∧
    t.block.debDl = s.block.debDl ∧ t.block.blinkDl = s.block.blinkDl ∧ t.block.rst = s.block.rst ∧
    t.block.now = s.block.now

/-- R183: a stale fire, from a state whose outputs are already recomputed, changes nothing but its own timer. -/
def Obligations.StaleFireOnlyDisarmsItself : Prop :=
  ∀ (s : State) (n : Fin 8) (l : Line), l.val = n.val → isLine s.params.variant l = true →
    s.block.decayDl[l] = some s.block.now → asserted s.params.variant s.block.sel l = true →
    (recompute s).block = s.block → ∃ t, exec (.decayFire n) s = .next t ∧
      t.block = { s.block with decayDl := s.block.decayDl.set l.val none }

/-- R186 (decision D12): a due DEBOUNCE_FIRE disarms and recomputes with the state as it is at the fire. -/
def Obligations.DebounceFireRecomputes : Prop :=
  ∀ s : State, s.params.variant = .console → s.block.debDl = some s.block.now →
    ∃ t, exec .debounceFire s = .next t ∧ t.block.debDl = none ∧
    Recomputed s.params s.block t.block ∧ EmitsOne s t ∧ SameSurroundings s t ∧
    t.block.sel = s.block.sel ∧ t.block.seg = s.block.seg ∧ t.block.act = s.block.act ∧
    t.block.bph = s.block.bph ∧ t.block.decayDl = s.block.decayDl ∧ t.block.blinkDl = s.block.blinkDl ∧
    t.block.rst = s.block.rst ∧ t.block.now = s.block.now

/-- R201: a due BLINK_TICK toggles BPH, comes again BLINK_PERIOD later, and recomputes. -/
def Obligations.BlinkTickTogglesAndRecomputes : Prop :=
  ∀ s : State, s.params.variant = .chess → s.block.blinkDl = some s.block.now →
    ∃ t, exec .blinkTick s = .next t ∧ t.block.bph = (!s.block.bph) ∧
    t.block.blinkDl = some (s.block.now + s.params.blinkPeriod) ∧
    Recomputed s.params s.block t.block ∧ EmitsOne s t ∧ SameSurroundings s t ∧
    t.block.sel = s.block.sel ∧ t.block.seg = s.block.seg ∧ t.block.act = s.block.act ∧
    t.block.decayDl = s.block.decayDl ∧ t.block.debDl = s.block.debDl ∧
    t.block.rst = s.block.rst ∧ t.block.now = s.block.now

/-- R187: from its deselect edge on, a digit that is not selected again keeps its pattern, its ACT bit and its deadline
through every step up to the deadline (reset edge and RESTORE aside), and the fire at exactly the deadline blanks it. -/
def Obligations.DeselectedDigitBlanksExactlyAtItsDeadline : Prop :=
  (∀ (i : Instr) (s t : State) (l : Digit) (d : Time), asserted s.params.variant s.block.sel l.line = false →
    s.block.act[l.line] = true → s.block.decayDl[l.line] = some d → s.block.now ≤ d →
    (∀ n, i = .decayFire n → n.val ≠ l.val) →
    (∀ v, i = .wrSel v → asserted s.params.variant v l.line = false) →
    ¬ IsResetEdge s i → ¬ IsRestore i → exec i s = .next t →
    t.block.out[l] = s.block.out[l] ∧ t.block.act[l.line] = true ∧ t.block.decayDl[l.line] = some d ∧
      t.block.now ≤ d ∧ asserted t.params.variant t.block.sel l.line = false) ∧
  (∀ (s : State) (n : Fin 8) (l : Digit), n.val = l.val → asserted s.params.variant s.block.sel l.line = false →
    s.block.decayDl[l.line] = some s.block.now →
    ∃ t, exec (.decayFire n) s = .next t ∧ t.block.out[l] = 0 ∧ t.block.act[l.line] = false ∧
      t.block.decayDl[l.line] = none)

/-- R188: a digit selected again before its deadline stays active, shows the data without a blank between, and the old
timer's fire does not clear it. -/
def Obligations.ReselectedDigitSurvivesItsOldTimer : Prop :=
  (∀ (s : State) (v : Byte) (l : Digit), asserted s.params.variant v l.line = true → s.block.act[l.line] = true →
    ∃ t, exec (.wrSel v) s = .next t ∧ t.block.act[l.line] = true ∧
      t.block.decayDl[l.line] = s.block.decayDl[l.line] ∧
      (s.params.variant = .console → t.block.out[l] = s.block.out[l]) ∧
      (s.params.variant = .chess → ∀ k : Fin 8, t.block.out[l].getLsbD k.val = shownBit s.params t.block k)) ∧
  (∀ (s : State) (n : Fin 8) (l : Digit), n.val = l.val → asserted s.params.variant s.block.sel l.line = true →
    s.block.act[l.line] = true → s.block.decayDl[l.line] = some s.block.now →
    ∃ t, exec (.decayFire n) s = .next t ∧ t.block.act[l.line] = true ∧
      ∀ k : Fin 8, t.block.out[l].getLsbD k.val = shownBit s.params s.block k)

/-- R62, R180 (decision D16): two decay timers due at the same instant may fire in either order; the block they leave is
the same. -/
def Obligations.SameTimeDecayFiresCommute : Prop :=
  ∀ (s : State) (m n : Fin 8) (k l : Line), k.val = m.val → l.val = n.val → k ≠ l →
    isLine s.params.variant k = true → isLine s.params.variant l = true →
    s.block.decayDl[k] = some s.block.now → s.block.decayDl[l] = some s.block.now →
    ∃ a b c d, exec (.decayFire m) s = .next a ∧ exec (.decayFire n) a = .next b ∧
      exec (.decayFire n) s = .next c ∧ exec (.decayFire m) c = .next d ∧ d.block = b.block

/-- R61, R105 (decision D23): what RUN and RUN_DUE may issue at an instant is every timer event that is enabled then, and
nothing else. -/
def Obligations.DueEventsAreTheEnabledTimerEvents : Prop :=
  ∀ (s : State) (i : Instr), i ∈ dueEvents s ↔
    ((∃ n, i = .decayFire n) ∨ i = .blinkTick ∨ i = .debounceFire) ∧ ∃ t, exec i s = .next t

/-- R105 (decision D23): a RUN of `d` that ends does so exactly `d` later, with nothing due, the stimuli not yet taken
and the parameters as they were. -/
def Obligations.RunLastsExactlyItsDuration : Prop :=
  ∀ (d : Time) (s t : State), RunsTo d s t →
    t.block.now = s.block.now + d ∧ dueEvents t = [] ∧ t.params = s.params ∧ t.stimuli = s.stimuli

/-- R242, R230: in every consistent state time can go on: ADVANCE to the earliest pending deadline is admitted, and any
ADVANCE where none is pending. -/
def Obligations.TimeCanReachTheNextDeadline : Prop :=
  ∀ s : State, Consistent s →
    (∀ e, e ∈ pendingDeadlines s.params.variant s.block →
      (∀ u ∈ pendingDeadlines s.params.variant s.block, e ≤ u) →
      ∃ t, exec (.advance (e - s.block.now)) s = .next t ∧ t.block.now = e) ∧
    (pendingDeadlines s.params.variant s.block = [] → ∀ d, ∃ t, exec (.advance d) s = .next t)

/-! ## The host -/

/-- R230 (decisions D2, D33): an admitted ADVANCE moves the clock by `d` and changes nothing else. -/
def Obligations.AdvanceMovesOnlyTheClock : Prop :=
  ∀ (s : State) (d : Time), (∀ u ∈ pendingDeadlines s.params.variant s.block, s.block.now + d ≤ u) →
    exec (.advance d) s = .next { s with block := { s.block with now := s.block.now + d } }

/-- R40, R231, R271 to R275 (decisions D9, D13, D14, D25): a rising edge of the reset line deselects every line, zeroes
every output, mask and flag in its own step without decay, cancels the decay and debounce timers, restarts the blink
oscillator in CHESS, keeps the clock, and emits one record. That DEB_DL and the places of the lamps are cleared in CHESS
too is R40's table against R271's pseudocode, and the model's choice (DEDUCED, log entry 13). -/
def Obligations.ResetEdgeBlanksAtOnce : Prop :=
  ∀ s : State, s.block.rst = false → ∃ t, exec (.reset true) s = .next t ∧
    t.block.rst = true ∧ t.block.now = s.block.now ∧
    t.block.sel = (if s.params.variant = .chess then 0xFF else 0x00) ∧
    (∀ l : Line, isLine s.params.variant l = true → asserted s.params.variant t.block.sel l = false) ∧
    t.block.seg = 0 ∧ (∀ l : Line, t.block.act[l] = false) ∧ t.block.bph = false ∧
    (∀ d : Digit, t.block.out[d] = 0) ∧ t.block.lampLose = false ∧ t.block.lampWin = false ∧
    (∀ l : Line, t.block.decayDl[l] = none) ∧ t.block.debDl = none ∧
    t.block.blinkDl = (if s.params.variant = .chess then some (s.block.now + s.params.blinkPeriod) else none) ∧
    EmitsOne s t ∧ SameSurroundings s t

/-- R231, R276 (decision D25): a held level, a repeated assertion and a falling edge change only RST. -/
def Obligations.ResetWithoutAnEdgeSetsOnlyTheLevel : Prop :=
  ∀ (s : State) (v : Bool), v = false ∨ s.block.rst = true →
    exec (.reset v) s = .next { s with block := { s.block with rst := v } }

/-- R232 (decision D26): SAVE hands out every element with the variant and changes no state of the block. -/
def Obligations.SaveHandsOutTheWholeState : Prop :=
  ∀ s : State, exec .save s =
    .next { s with snapshots := s.snapshots ++ [(⟨s.params.variant, s.block⟩ : Image)] }

/-- R233: "Every image produced by SAVE from a reachable state is accepted" (decision D26). RESTORE then replaces every
element and nothing else. Reachable: from power-on with the machine's own parameters, without RESTORE. -/
def Obligations.RestoreTakesEveryReachableImage : Prop :=
  ∀ s t : State, Reaches s.params t →
    exec (.restore ⟨t.params.variant, t.block⟩) s = .next { s with block := t.block }

/-- R233, the other half of its sentence (decision D26, 93_implementation_defined.md item 15): an image that no reachable
state could produce is refused. Which blocks those are the spec leaves to be inferred, and the model's test of them is
its own (DEDUCED, log entry 14). The premises are R8's: a blink period that is one, wirings that are bijections (R14). -/
def Obligations.RestoreRefusesEveryUnreachableImage : Prop :=
  ∀ (s : State) (img : Image), 0 < s.params.blinkPeriod →
    BitPerm.Bijective s.params.wiring.segPermChess → BitPerm.Bijective s.params.wiring.segPermConsole →
    (¬ ∃ t, Reaches s.params t ∧ img = ⟨t.params.variant, t.block⟩) → exec (.restore img) s = .refused .badSnapshot

/-- R233's pseudocode with R160 (decisions D26, D41; log entry 14 for the decimal point and for what else is refused): an
image of the other variant, or that breaks a clause of the invariant, or in CHESS with a lit decimal point, is refused;
any image is either refused or replaces every element and nothing else. -/
def Obligations.RestoreRefusesInconsistentImages : Prop :=
  ∀ (s : State) (img : Image),
    (¬ (img.variant = s.params.variant ∧ Inv s.params.variant img.block) →
      exec (.restore img) s = .refused .badSnapshot) ∧
    (s.params.variant = .chess → ¬ DecimalPointDark img.block → exec (.restore img) s = .refused .badSnapshot) ∧
    (exec (.restore img) s = .refused .badSnapshot ∨
      exec (.restore img) s = .next { s with block := img.block })

/-- R233 (decision D26): what SAVE hands out in a reachable state, RESTORE accepts in any machine with the same
parameters, and it gives the saved block back, the clock included. -/
def Obligations.SavedImageRestoresTheSavedBlock : Prop :=
  ∀ s t : State, Reaches s.params s → exec .save s = .next t → ∃ img, t.snapshots = s.snapshots ++ [img] ∧
    ∀ u : State, u.params = s.params →
      ∃ r, exec (.restore img) u = .next r ∧ r.block = s.block ∧ r.records = u.records

/-! ## The invariant -/

/-- R27, R31, R40: the power-on state of either variant satisfies the invariant; `State.reset` is one of them. -/
def Obligations.PowerOnIsConsistent : Prop :=
  (∀ p : Params, Consistent (State.powerOn p)) ∧ Consistent State.reset

/-- R40, R233: the power-on state of either variant, with any parameters, has an image RESTORE takes. -/
def Obligations.PowerOnSnapshotIsRestorable : Prop :=
  ∀ p : Params, badSnapshot (State.powerOn p).params (snapshot (State.powerOn p)) = false

/-- R233 (decision D26; log entry 14): every step from a state whose image RESTORE takes leads to such a state, whatever
form is executed and whatever stimulus is offered. With `PowerOnSnapshotIsRestorable` it gives "Every image produced by
SAVE from a reachable state is accepted". -/
def Obligations.StepKeepsTheSnapshotRestorable : Prop :=
  (∀ (i : Instr) (s t : State), badSnapshot s.params (snapshot s) = false → exec i s = .next t →
    badSnapshot t.params (snapshot t) = false) ∧
  (∀ s t : State, badSnapshot s.params (snapshot s) = false → step s = .next t →
    badSnapshot t.params (snapshot t) = false)

/-- R27, R28, R31, R33, R34, R61: every step from a consistent state leads to a consistent state, whatever stimulus is
offered, RESTORE among them. -/
def Obligations.StepKeepsConsistency : Prop :=
  ∀ s t : State, Consistent s → step s = .next t → Consistent t

/-- R27, R31, R160: in every state reached from power-on without RESTORE the invariant holds, and in CHESS every decimal
point is dark. -/
def Obligations.ReachableStatesAreConsistent : Prop :=
  ∀ (p : Params) (s : State), Reaches p s →
    Consistent s ∧ s.params = p ∧ (p.variant = .chess → DecimalPointDark s.block)
end

