-- ==== Sys2Proof/Laws/State.lean ====
section
/-! SUPPORT. One lemma per field per update of the state: `withBlock`, `emit`, `answer`, `drawByte`, `pollKeypad`. -/

namespace Sys2Proof.Machine

@[simp] theorem withBlock_block (s : State) (b : Block) : (s.withBlock b).block = b := rfl
@[simp] theorem withBlock_params (s : State) (b : Block) : (s.withBlock b).params = s.params := rfl
@[simp] theorem withBlock_stimuli (s : State) (b : Block) : (s.withBlock b).stimuli = s.stimuli := rfl
@[simp] theorem withBlock_keypad (s : State) (b : Block) : (s.withBlock b).keypad = s.keypad := rfl
@[simp] theorem withBlock_draws (s : State) (b : Block) : (s.withBlock b).draws = s.draws := rfl
@[simp] theorem withBlock_records (s : State) (b : Block) : (s.withBlock b).records = s.records := rfl
@[simp] theorem withBlock_reads (s : State) (b : Block) : (s.withBlock b).reads = s.reads := rfl
@[simp] theorem withBlock_snapshots (s : State) (b : Block) : (s.withBlock b).snapshots = s.snapshots := rfl
@[simp] theorem withBlock_withBlock (s : State) (b c : Block) : (s.withBlock b).withBlock c = s.withBlock c := rfl

@[simp] theorem emit_block (s : State) : (emit s).block = s.block := rfl
@[simp] theorem emit_params (s : State) : (emit s).params = s.params := rfl
@[simp] theorem emit_stimuli (s : State) : (emit s).stimuli = s.stimuli := rfl
@[simp] theorem emit_keypad (s : State) : (emit s).keypad = s.keypad := rfl
@[simp] theorem emit_draws (s : State) : (emit s).draws = s.draws := rfl
@[simp] theorem emit_reads (s : State) : (emit s).reads = s.reads := rfl
@[simp] theorem emit_snapshots (s : State) : (emit s).snapshots = s.snapshots := rfl
@[simp] theorem emit_records (s : State) :
    (emit s).records = s.records ++ [renderRecord s.params.variant s.block] := rfl

@[simp] theorem answer_block (s : State) (x : Byte) : (answer s x).block = s.block := rfl
@[simp] theorem answer_params (s : State) (x : Byte) : (answer s x).params = s.params := rfl
@[simp] theorem answer_stimuli (s : State) (x : Byte) : (answer s x).stimuli = s.stimuli := rfl
@[simp] theorem answer_keypad (s : State) (x : Byte) : (answer s x).keypad = s.keypad := rfl
@[simp] theorem answer_draws (s : State) (x : Byte) : (answer s x).draws = s.draws := rfl
@[simp] theorem answer_records (s : State) (x : Byte) : (answer s x).records = s.records := rfl
@[simp] theorem answer_reads (s : State) (x : Byte) : (answer s x).reads = s.reads ++ [x] := rfl
@[simp] theorem answer_snapshots (s : State) (x : Byte) : (answer s x).snapshots = s.snapshots := rfl

@[simp] theorem drawByte_value (s : State) : (drawByte s).1 = Config.draw8 s.draws := rfl
@[simp] theorem drawByte_block (s : State) : (drawByte s).2.block = s.block := rfl
@[simp] theorem drawByte_params (s : State) : (drawByte s).2.params = s.params := rfl
@[simp] theorem drawByte_stimuli (s : State) : (drawByte s).2.stimuli = s.stimuli := rfl
@[simp] theorem drawByte_keypad (s : State) : (drawByte s).2.keypad = s.keypad := rfl
@[simp] theorem drawByte_draws (s : State) : (drawByte s).2.draws = s.draws + 1 := rfl
@[simp] theorem drawByte_records (s : State) : (drawByte s).2.records = s.records := rfl
@[simp] theorem drawByte_reads (s : State) : (drawByte s).2.reads = s.reads := rfl
@[simp] theorem drawByte_snapshots (s : State) : (drawByte s).2.snapshots = s.snapshots := rfl

/-- A poll takes the environment's next stated answer; it draws a free one where there is none. -/
theorem pollKeypad_cases (s : State) :
    (∃ k rest, s.keypad = k :: rest ∧ pollKeypad s = (k, { s with keypad := rest })) ∨
    (s.keypad = [] ∧ pollKeypad s = (Config.keypadAnswer s.draws, { s with draws := s.draws + 1 })) := by
  cases h : s.keypad with
  | nil => exact .inr ⟨rfl, by simp [pollKeypad, h]⟩
  | cons k rest => exact .inl ⟨k, rest, rfl, by simp [pollKeypad, h]⟩

@[simp] theorem pollKeypad_block (s : State) : (pollKeypad s).2.block = s.block := by
  rcases pollKeypad_cases s with ⟨k, rest, -, h⟩ | ⟨-, h⟩ <;> rw [h]
@[simp] theorem pollKeypad_params (s : State) : (pollKeypad s).2.params = s.params := by
  rcases pollKeypad_cases s with ⟨k, rest, -, h⟩ | ⟨-, h⟩ <;> rw [h]
@[simp] theorem pollKeypad_stimuli (s : State) : (pollKeypad s).2.stimuli = s.stimuli := by
  rcases pollKeypad_cases s with ⟨k, rest, -, h⟩ | ⟨-, h⟩ <;> rw [h]
@[simp] theorem pollKeypad_records (s : State) : (pollKeypad s).2.records = s.records := by
  rcases pollKeypad_cases s with ⟨k, rest, -, h⟩ | ⟨-, h⟩ <;> rw [h]
@[simp] theorem pollKeypad_reads (s : State) : (pollKeypad s).2.reads = s.reads := by
  rcases pollKeypad_cases s with ⟨k, rest, -, h⟩ | ⟨-, h⟩ <;> rw [h]
@[simp] theorem pollKeypad_snapshots (s : State) : (pollKeypad s).2.snapshots = s.snapshots := by
  rcases pollKeypad_cases s with ⟨k, rest, -, h⟩ | ⟨-, h⟩ <;> rw [h]

end Sys2Proof.Machine
end

