-- ==== Sys2Proof/Laws/Ops.lean ====
section
/-! SUPPORT. One lemma per shared operation, saying what it does; later proofs cite these instead of unfolding. -/

namespace Sys2Proof.Machine

open Sys2Proof.Safety

theorem isLine_console (i : Line) : isLine .console i = true := by
  simp [isLine, numLines]

theorem isLine_digit (v : Variant) (i : Digit) : isLine v i.line = true := by
  cases v <;> revert i <;> decide

theorem asserted_chess (s : Byte) (i : Line) : asserted .chess s i = !s.getLsbD i.val := rfl

theorem asserted_console (s : Byte) (i : Line) : asserted .console s i = s.getLsbD i.val := rfl

/-- No line is asserted by the reset select byte (R40, D9). -/
theorem asserted_selReset (v : Variant) (i : Line) (h : isLine v i = true) : asserted v (selReset v) i = false := by
  cases v <;> revert i <;> decide

/-- Bit `k` of a permuted byte is the wired logical bit (R14). -/
@[simp] theorem permute_getElem (P : BitPerm) (s : Byte) (k : Nat) (h : k < 8) :
    (permute P s)[k] = s[P[k].val] := by
  simp [permute]

theorem permute_getLsbD (P : BitPerm) (s : Byte) (k : Fin 8) :
    (permute P s).getLsbD k.val = s.getLsbD P[k].val := by
  simp [permute]

/-- `clz` of a word whose highest set bit is `h` counts the zero bits above it (R14). -/
theorem clz_of_highest (w x h : Nat) (hw : h < w) (hb : x.testBit h = true)
    (hz : ∀ m, h < m → x.testBit m = false) : clz w x = w - 1 - h := by
  induction w with
  | zero => omega
  | succ w ih =>
    by_cases e : h = w
    · subst e; simp [clz, hb]
    · have hz' := hz w (by omega)
      rw [clz, hz', if_neg (by simp), ih (by omega)]
      omega

/-- `whenDue` answers a next state exactly when the deadline is `now`. -/
theorem whenDue_next (dl : Option Time) (now : Time) (a t : State) :
    whenDue dl now a = .next t ↔ dl = some now ∧ t = a := by
  unfold whenDue; split <;> simp_all [eq_comm]

theorem whenDue_due (now : Time) (a : State) : whenDue (some now) now a = .next a := by
  simp [whenDue]

theorem whenDue_not_due (dl : Option Time) (now : Time) (a : State) (h : dl ≠ some now) :
    whenDue dl now a = .fault .notDue := by
  simp [whenDue, h]

/-- A pending deadline is one of a line's decay timer, the debounce timer or the blink oscillator (R230). -/
theorem mem_pendingDeadlines (v : Variant) (b : Block) (t : Time) :
    t ∈ pendingDeadlines v b ↔
      (∃ i : Line, isLine v i = true ∧ b.decayDl[i] = some t) ∨ b.debDl = some t ∨ b.blinkDl = some t := by
  simp [pendingDeadlines, lines]

@[simp] theorem applyEdges_act (p : Params) (old new : Byte) (b : Block) (k : Nat) (h : k < 6) :
    (applyEdges p old new b).act[k] = (b.act[k] || rising p.variant old new ⟨k, h⟩) := by
  simp [applyEdges]

@[simp] theorem applyEdges_decayDl (p : Params) (old new : Byte) (b : Block) (k : Nat) (h : k < 6) :
    (applyEdges p old new b).decayDl[k] =
      if deselect p.variant old new ⟨k, h⟩ = true then some (b.now + p.decayDelay) else b.decayDl[k] := by
  simp [applyEdges]

theorem rising_iff (v : Variant) (old new : Byte) (i : Line) :
    rising v old new i = true ↔ isLine v i = true ∧ asserted v old i = false ∧ asserted v new i = true := by
  simp [rising, and_assoc]

theorem deselect_iff (v : Variant) (old new : Byte) (i : Line) :
    deselect v old new i = true ↔ isLine v i = true ∧ asserted v old i = true ∧ asserted v new i = false := by
  simp [deselect, and_assoc]

/-- The select edges write ACT and DECAY_DL and nothing else. -/
theorem applyEdges_frame (p : Params) (old new : Byte) (b : Block) :
    applyEdges p old new b =
      { b with act := (applyEdges p old new b).act, decayDl := (applyEdges p old new b).decayDl } := rfl

/-- The line of a line index has that number and exists (R92, R94). -/
theorem lineOf_some (v : Variant) (n : Fin 8) (i : Line) :
    lineOf v n = some i ↔ i.val = n.val ∧ isLine v i = true := by
  simp only [lineOf, isLine, decide_eq_true_eq]
  constructor
  · intro h
    split at h
    · simp at h; subst h; simpa
    · simp at h
  · rintro ⟨h, hl⟩
    rw [dif_pos (by omega)]
    simp [← h]

theorem lineOf_none (v : Variant) (n : Fin 8) : lineOf v n = none ↔ numLines v ≤ n.val := by
  simp [lineOf]

/-- A recompute writes the outputs and nothing else (R150). -/
theorem renderOutputs_frame (p : Params) (b : Block) :
    renderOutputs p b =
      { b with
        out := (renderOutputs p b).out
        lampLose := (renderOutputs p b).lampLose
        lampWin := (renderOutputs p b).lampWin } := by
  unfold renderOutputs; split <;> rfl

@[simp] theorem renderOutputs_out_nat (p : Params) (b : Block) (k : Nat) (h : k < 4) :
    (renderOutputs p b).out[k] = digitOutput p b ⟨k, h⟩ := by
  unfold renderOutputs; split <;> simp

theorem renderOutputs_out (p : Params) (b : Block) (i : Digit) :
    (renderOutputs p b).out[i] = digitOutput p b i := by simp

theorem renderOutputs_lamps_chess (p : Params) (b : Block) (h : p.variant = .chess) :
    (renderOutputs p b).lampLose = b.lampLose ∧ (renderOutputs p b).lampWin = b.lampWin := by
  simp [renderOutputs, h]

theorem renderOutputs_lamps_console (p : Params) (b : Block) (h : p.variant = .console) :
    (renderOutputs p b).lampLose = b.act[4] ∧ (renderOutputs p b).lampWin = b.act[5] := by
  simp [renderOutputs, h]

theorem blinkMode_eq (p : Params) (seg : Byte) :
    blinkMode p seg = seg.getLsbD p.wiring.segPermChess[(7 : Fin 8)].val := rfl

/-- The CHESS rendering, bit by bit (R152, R153). -/
theorem chessRender_getLsbD (p : Params) (seg : Byte) (bph : Bool) (k : Fin 8) :
    (chessRender p seg bph).getLsbD k.val =
      if blinkMode p seg = true then
        decide (bph = p.blinkShow) && decide (k ≠ 7) && seg.getLsbD p.wiring.segPermChess[k].val
      else seg.getLsbD p.wiring.segPermChess[k].val := by
  unfold chessRender
  by_cases hb : blinkMode p seg = true
  · by_cases hs : bph = p.blinkShow
    · simp only [hb, hs, if_true, BitVec.getLsbD_and, permute_getLsbD]
      fin_cases k <;> simp
    · simp [hb, hs]
  · simp only [hb, Bool.false_eq_true, if_false]
    exact permute_getLsbD _ _ _

/-- What a selected digit shows, bit by bit (R152, R153, R154). -/
theorem shownPattern_getLsbD (p : Params) (b : Block) (k : Fin 8) :
    (shownPattern p b).getLsbD k.val = shownBit p b k := by
  unfold shownPattern shownBit
  cases p.variant
  · exact chessRender_getLsbD p b.seg b.bph k
  · exact permute_getLsbD _ _ _

@[simp] theorem renderOutputs_sel (p : Params) (b : Block) : (renderOutputs p b).sel = b.sel := by
  rw [renderOutputs_frame]
@[simp] theorem renderOutputs_seg (p : Params) (b : Block) : (renderOutputs p b).seg = b.seg := by
  rw [renderOutputs_frame]
@[simp] theorem renderOutputs_act (p : Params) (b : Block) : (renderOutputs p b).act = b.act := by
  rw [renderOutputs_frame]
@[simp] theorem renderOutputs_bph (p : Params) (b : Block) : (renderOutputs p b).bph = b.bph := by
  rw [renderOutputs_frame]
@[simp] theorem renderOutputs_decayDl (p : Params) (b : Block) : (renderOutputs p b).decayDl = b.decayDl := by
  rw [renderOutputs_frame]
@[simp] theorem renderOutputs_debDl (p : Params) (b : Block) : (renderOutputs p b).debDl = b.debDl := by
  rw [renderOutputs_frame]
@[simp] theorem renderOutputs_blinkDl (p : Params) (b : Block) : (renderOutputs p b).blinkDl = b.blinkDl := by
  rw [renderOutputs_frame]
@[simp] theorem renderOutputs_rst (p : Params) (b : Block) : (renderOutputs p b).rst = b.rst := by
  rw [renderOutputs_frame]
@[simp] theorem renderOutputs_now (p : Params) (b : Block) : (renderOutputs p b).now = b.now := by
  rw [renderOutputs_frame]

/-- The outputs a recompute writes are those the spec gives, whatever block with the same outputs came before (R151,
R154, R155). -/
theorem renderOutputs_recomputed (p : Params) (b0 b : Block) (h : SameOutputs b0 b) :
    Recomputed p b0 (renderOutputs p b) where
  selected i hs k := by
    rw [renderOutputs_sel] at hs
    have hb : shownBit p (renderOutputs p b) k = shownBit p b k := by simp [shownBit]
    rw [renderOutputs_out, hb, digitOutput, if_pos hs, shownPattern_getLsbD]
  held i hs ha := by
    rw [renderOutputs_sel] at hs
    rw [renderOutputs_act] at ha
    rw [renderOutputs_out, ← h.1, digitOutput, if_neg (by simp [hs]), if_pos ha]
  blank i hs ha := by
    rw [renderOutputs_sel] at hs
    rw [renderOutputs_act] at ha
    rw [renderOutputs_out, digitOutput, if_neg (by simp [hs]), if_neg (by simp [ha])]
  console_lamps hv := by simpa using renderOutputs_lamps_console p b hv
  chess_lamps hv := by
    rw [← h.2.1, ← h.2.2]
    exact renderOutputs_lamps_chess p b hv

/-- Appending the record of a step's own outputs is emitting one record (R158). -/
theorem emitsOne_of_record (s t : State) (h : t.records = s.records ++ [renderRecord s.params.variant t.block]) :
    EmitsOne s t := by
  refine ⟨_, h, rfl, rfl, ?_⟩
  unfold renderRecord
  cases s.params.variant <;> rfl

@[simp] theorem recompute_block (s : State) : (recompute s).block = renderOutputs s.params s.block := rfl
@[simp] theorem recompute_params (s : State) : (recompute s).params = s.params := rfl
@[simp] theorem recompute_stimuli (s : State) : (recompute s).stimuli = s.stimuli := rfl
@[simp] theorem recompute_keypad (s : State) : (recompute s).keypad = s.keypad := rfl
@[simp] theorem recompute_draws (s : State) : (recompute s).draws = s.draws := rfl
@[simp] theorem recompute_reads (s : State) : (recompute s).reads = s.reads := rfl
@[simp] theorem recompute_snapshots (s : State) : (recompute s).snapshots = s.snapshots := rfl
@[simp] theorem recompute_records (s : State) :
    (recompute s).records = s.records ++ [renderRecord s.params.variant (renderOutputs s.params s.block)] := rfl

@[simp] theorem expireDecay_act (v : Variant) (i : Line) (b : Block) (k : Nat) (h : k < 6) :
    (expireDecay v i b).act[k] = if i.val = k then b.act[k] && asserted v b.sel i else b.act[k] := by
  by_cases e : i.val = k
  · subst e; simp [expireDecay]
  · simp [expireDecay, e, Vector.getElem_set_ne _ _ e]

@[simp] theorem expireDecay_decayDl (v : Variant) (i : Line) (b : Block) (k : Nat) (h : k < 6) :
    (expireDecay v i b).decayDl[k] = if i.val = k then none else b.decayDl[k] := by
  by_cases e : i.val = k
  · subst e; simp [expireDecay]
  · simp [expireDecay, e, Vector.getElem_set_ne _ _ e]

/-- The expiry writes DECAY_DL and ACT and nothing else. -/
theorem expireDecay_frame (v : Variant) (i : Line) (b : Block) :
    expireDecay v i b = { b with decayDl := (expireDecay v i b).decayDl, act := (expireDecay v i b).act } := rfl

/-- Scheduling the debounced recompute writes DEB_DL and nothing else (R124). -/
theorem scheduleDebounce_frame (p : Params) (b : Block) :
    scheduleDebounce p b = { b with debDl := (scheduleDebounce p b).debDl } := by
  unfold scheduleDebounce; split <;> rfl

theorem scheduleDebounce_debDl (p : Params) (b : Block) :
    (scheduleDebounce p b).debDl =
      if b.debDl = none ∨ p.debounceMode = .reschedule then some (b.now + p.debounceDelay) else b.debDl := by
  unfold scheduleDebounce; split <;> rfl

@[simp] theorem powerOn_act (p : Params) (k : Nat) (h : k < 6) : (powerOn p).act[k] = false := by
  simp [powerOn]
@[simp] theorem powerOn_decayDl (p : Params) (k : Nat) (h : k < 6) : (powerOn p).decayDl[k] = none := by
  simp [powerOn]
@[simp] theorem powerOn_out (p : Params) (k : Nat) (h : k < 4) : (powerOn p).out[k] = 0 := by
  simp [powerOn]

@[simp] theorem resetBlock_act (p : Params) (b : Block) (k : Nat) (h : k < 6) : (resetBlock p b).act[k] = false :=
  powerOn_act p k h
@[simp] theorem resetBlock_decayDl (p : Params) (b : Block) (k : Nat) (h : k < 6) : (resetBlock p b).decayDl[k] = none :=
  powerOn_decayDl p k h
@[simp] theorem resetBlock_out (p : Params) (b : Block) (k : Nat) (h : k < 4) : (resetBlock p b).out[k] = 0 :=
  powerOn_out p k h

/-- ADVANCE answers a next state exactly when no pending deadline lies before the new time (R230). -/
theorem execAdvance_next (d : Time) (s t : State) :
    execAdvance d s = .next t ↔
      (∀ u ∈ pendingDeadlines s.params.variant s.block, s.block.now + d ≤ u) ∧
        t = s.withBlock { s.block with now := s.block.now + d } := by
  unfold execAdvance
  split
  · rename_i h
    simp only [List.any_eq_true, decide_eq_true_eq] at h
    obtain ⟨u, hu, hlt⟩ := h
    exact ⟨fun h => by simp at h, fun h => absurd hlt (not_lt.mpr (h.1 u hu))⟩
  · rename_i h
    simp only [List.any_eq_true, decide_eq_true_eq, not_exists, not_and, not_lt] at h
    constructor
    · intro e; exact ⟨h, by simpa using e.symm⟩
    · rintro ⟨-, rfl⟩; rfl

/-- The reset edge as a function of the old state (R231, R271). -/
theorem execReset_edge (s : State) (h : s.block.rst = false) :
    execReset true s = .next (resetEdge (s.withBlock { s.block with rst := true })) := by
  simp [execReset, h]

theorem execReset_level (v : Bool) (s : State) (h : ¬ (s.block.rst = false ∧ v = true)) :
    execReset v s = .next (s.withBlock { s.block with rst := v }) := by
  simp [execReset, h]

theorem takeStimulus_nil (s : State) (h : s.stimuli = []) : takeStimulus s = none := by
  simp [takeStimulus, h]

theorem takeStimulus_cons (s : State) (st : Stimulus) (rest : List Stimulus) (h : s.stimuli = st :: rest) :
    takeStimulus s = some (st, { s with stimuli := rest }) := by
  simp [takeStimulus, h]

end Sys2Proof.Machine
end

