-- ==== Sys2Proof/Laws/Exec.lean ====
section
/-! SUPPORT. What each form can answer: one equivalence per constructor of Instr, of the shape "exec answers `t` exactly
if ... and `t` is ...". Later proofs cite these instead of unfolding a meaning. -/

namespace Sys2Proof.Machine

theorem exec_rdData_next (s t : State) :
    exec .rdData s = .next t ↔
      t = answer (pollKeypad s).2 (scan s.params s.block.seg (pollKeypad s).1) := by
  simp [exec, execRdData, eq_comm]

theorem exec_rdSel_next (s t : State) :
    exec .rdSel s = .next t ↔ t = answer (drawByte s).2 (Config.draw8 s.draws) := by
  simp [exec, execRdSel, eq_comm]

theorem exec_wrData_next (v : Byte) (s t : State) :
    exec (.wrData v) s = .next t ↔ t = recompute (s.withBlock { s.block with seg := v }) := by
  simp [exec, execWrData, eq_comm]

theorem exec_wrSel_next_chess (v : Byte) (s t : State) (h : s.params.variant = .chess) :
    exec (.wrSel v) s = .next t ↔ t = recompute (storeSelect v s) := by
  simp [exec, execWrSel, h, eq_comm]

theorem exec_wrSel_next_console (v : Byte) (s t : State) (h : s.params.variant = .console) :
    exec (.wrSel v) s = .next t ↔
      t = s.withBlock (scheduleDebounce s.params (storeSelect v s).block) := by
  simp only [exec, execWrSel, h, Host.Outcome.next.injEq]
  exact eq_comm

theorem exec_decayFire_next (n : Fin 8) (s t : State) :
    exec (.decayFire n) s = .next t ↔
      ∃ l : Line, l.val = n.val ∧ isLine s.params.variant l = true ∧
        s.block.decayDl[l] = some s.block.now ∧
        t = recompute (s.withBlock (expireDecay s.params.variant l s.block)) := by
  simp only [exec, execDecayFire]
  cases h : lineOf s.params.variant n with
  | none =>
    simp only [reduceCtorEq, false_iff, not_exists, not_and]
    intro l hl hi
    have := (lineOf_some _ n l).2 ⟨hl, hi⟩
    simp [h] at this
  | some l =>
    obtain ⟨hl, hi⟩ := (lineOf_some _ _ _).1 h
    simp only [whenDue_next]
    constructor
    · rintro ⟨hd, rfl⟩
      exact ⟨l, hl, hi, hd, rfl⟩
    · rintro ⟨m, hm, -, hd, rfl⟩
      obtain rfl : l = m := Fin.ext (hl.trans hm.symm)
      exact ⟨hd, rfl⟩

theorem exec_blinkTick_next (s t : State) :
    exec .blinkTick s = .next t ↔
      s.params.variant = .chess ∧ s.block.blinkDl = some s.block.now ∧
        t = recompute (s.withBlock
          { toggleBlinkPhase s.block with blinkDl := some (s.block.now + s.params.blinkPeriod) }) := by
  simp only [exec, execBlinkTick]
  cases h : s.params.variant <;> simp [whenDue_next]

theorem exec_debounceFire_next (s t : State) :
    exec .debounceFire s = .next t ↔
      s.params.variant = .console ∧ s.block.debDl = some s.block.now ∧
        t = recompute (s.withBlock { s.block with debDl := none }) := by
  simp only [exec, execDebounceFire]
  cases h : s.params.variant <;> simp [whenDue_next]

theorem exec_reset_next (v : Bool) (s t : State) :
    exec (.reset v) s = .next t ↔
      (s.block.rst = false ∧ v = true ∧ t = resetEdge (s.withBlock { s.block with rst := true })) ∨
      (¬ (s.block.rst = false ∧ v = true) ∧ t = s.withBlock { s.block with rst := v }) := by
  by_cases h : s.block.rst = false ∧ v = true
  · obtain ⟨h1, rfl⟩ := h
    simp [exec, execReset, h1, eq_comm]
  · simp only [exec, execReset, if_neg h, Host.Outcome.next.injEq]
    constructor
    · intro e; exact .inr ⟨h, e.symm⟩
    · rintro (⟨h1, h2, -⟩ | ⟨-, e⟩)
      · exact absurd ⟨h1, h2⟩ h
      · exact e.symm

theorem exec_advance_next (d : Time) (s t : State) :
    exec (.advance d) s = .next t ↔
      (∀ u ∈ pendingDeadlines s.params.variant s.block, s.block.now + d ≤ u) ∧
        t = s.withBlock { s.block with now := s.block.now + d } :=
  execAdvance_next d s t

theorem exec_save_next (s t : State) :
    exec .save s = .next t ↔ t = { s with snapshots := s.snapshots ++ [snapshot s] } := by
  simp [exec, execSave, eq_comm]

theorem exec_restore_next (img : Image) (s t : State) :
    exec (.restore img) s = .next t ↔
      badSnapshot s.params img = false ∧ t = s.withBlock img.block := by
  simp only [exec, execRestore]
  cases h : badSnapshot s.params img <;> simp [eq_comm]

/-- No form changes the parameters (R37). -/
theorem exec_params (i : Instr) (s t : State) (h : exec i s = .next t) : t.params = s.params := by
  cases i with
  | rdData => rw [exec_rdData_next] at h; subst h; simp
  | rdSel => rw [exec_rdSel_next] at h; subst h; simp
  | wrData v => rw [exec_wrData_next] at h; subst h; simp
  | wrSel v =>
    cases hv : s.params.variant with
    | chess => rw [exec_wrSel_next_chess _ _ _ hv] at h; subst h; rfl
    | console => rw [exec_wrSel_next_console _ _ _ hv] at h; subst h; rfl
  | decayFire n => rw [exec_decayFire_next] at h; obtain ⟨l, -, -, -, rfl⟩ := h; rfl
  | blinkTick => rw [exec_blinkTick_next] at h; obtain ⟨-, -, rfl⟩ := h; rfl
  | debounceFire => rw [exec_debounceFire_next] at h; obtain ⟨-, -, rfl⟩ := h; rfl
  | reset v => rw [exec_reset_next] at h; obtain ⟨-, -, rfl⟩ | ⟨-, rfl⟩ := h <;> rfl
  | advance d => rw [exec_advance_next] at h; obtain ⟨-, rfl⟩ := h; rfl
  | save => rw [exec_save_next] at h; subst h; rfl
  | restore img => rw [exec_restore_next] at h; obtain ⟨-, rfl⟩ := h; rfl

/-- A reached machine has the parameters it started with (R37). -/
theorem reaches_params {p : Params} {s : State} (h : Safety.Reaches p s) : s.params = p := by
  induction h with
  | start => rfl
  | next s t i _ _ e ih => exact (exec_params i s t e).trans ih

end Sys2Proof.Machine
end

