-- ==== Sys2Proof/Laws/Images.lean ====
section
/-! SUPPORT. What RESTORE's test says, as propositions: the list of R233's pseudocode is the invariant, the tests of
Machine/Images.lean clause by clause, and the search for debounce periods as the existence of them. -/

namespace Sys2Proof.Machine

open Sys2Proof.Safety

/-- Passing the pseudocode's list is being of the variant and satisfying the invariant (R233). -/
theorem listedFault_eq_false_iff (v : Variant) (img : Image) :
    listedFault v img = false ↔ img.variant = v ∧ Inv v img.block := by
  unfold listedFault
  simp only [Bool.or_eq_false_iff, decide_eq_false_iff_not, not_not, List.any_eq_false, decide_eq_true_eq, not_lt,
    mem_pendingDeadlines, lines, digits, List.mem_finRange, true_implies]
  constructor
  · rintro ⟨⟨⟨⟨⟨hv, hdl⟩, hact⟩, harm⟩, hlit⟩, hown⟩
    refine ⟨hv, ?_, fun t h => hdl t (.inr (.inl h)), fun t h => hdl t (.inr (.inr h)), ?_, ?_, ?_, ?_, ?_, ?_⟩
    · exact fun i t hi h => hdl t (.inl ⟨i, hi, h⟩)
    · intro i hi hs; simpa [hi, hs] using hact i
    · intro i hi hs ha; simpa [hi, hs, ha] using harm i
    · intro i ho; have := hlit i; simp only [bne_iff_ne, ne_eq, Bool.and_eq_true, Bool.not_eq_true'] at this
      simpa using fun h => this ⟨ho, h⟩
    · rintro rfl; simp [listedVariantFault] at hown; exact hown.1.1
    · rintro rfl; simp [listedVariantFault] at hown; exact ⟨Option.isSome_iff_ne_none.1 hown.1, hown.2⟩
    · rintro rfl; simp [listedVariantFault] at hown; exact ⟨hown.1.2, hown.2⟩
  · rintro ⟨hv, h⟩
    refine ⟨⟨⟨⟨⟨hv, ?_⟩, ?_⟩, ?_⟩, ?_⟩, ?_⟩
    · rintro t (⟨i, hi, ht⟩ | ht | ht)
      · exact h.decay_ahead i t hi ht
      · exact h.debounce_ahead t ht
      · exact h.blink_ahead t ht
    · intro i; simpa using fun hi hs => h.asserted_active i hi hs
    · intro i; simpa using fun hi hs ha => h.active_armed i hi hs ha
    · intro i; simpa using fun ho => h.lit_active i ho
    · cases v with
      | chess =>
        have := h.chess_timers rfl
        simp only [listedVariantFault, this.2, Option.isSome_none, Bool.or_false, Option.isNone_eq_false_iff]
        exact Option.isSome_iff_ne_none.2 this.1
      | console =>
        have hl := h.lamps_active rfl
        have hb := h.console_blink rfl
        simp [listedVariantFault, hb.1, hb.2]
        exact hl

/-- RESTORE refuses exactly what fails the list or is not producible (R233). -/
theorem badSnapshot_eq_false_iff (p : Params) (img : Image) :
    badSnapshot p img = false ↔
      (img.variant = p.variant ∧ Inv p.variant img.block) ∧ producible p img.block = true := by
  simp [badSnapshot, listedFault_eq_false_iff]

/-- `producible`, part by part. -/
theorem producible_iff (p : Params) (b : Block) :
    producible p b = true ↔
      (∀ i : Line, producibleLine p b i = true) ∧ (p.variant = .chess → producibleChess p b = true) ∧
        (p.variant = .console → producibleConsole p b = true) := by
  unfold producible
  cases h : p.variant <;> simp [lines]

theorem producibleLine_iff (p : Params) (b : Block) (i : Line) :
    producibleLine p b i = true ↔
      (isLine p.variant i = true → ∀ t, b.decayDl[i] = some t →
        b.act[i] = true ∧ earliestStart p b + p.decayDelay ≤ t ∧ t ≤ b.now + p.decayDelay) ∧
      (isLine p.variant i = false → b.act[i] = false ∧ b.decayDl[i] = none) := by
  unfold producibleLine
  cases h : isLine p.variant i <;> simp [Option.all_eq_true, and_assoc]

theorem producibleBlink_iff (p : Params) (b : Block) :
    producibleBlink p b = true ↔ ∀ t, b.blinkDl = some t →
      t ≤ b.now + p.blinkPeriod ∧ (if b.bph = true then 2 * p.blinkPeriod else p.blinkPeriod) ≤ t := by
  simp [producibleBlink, Option.all_eq_true]

theorem producibleChessDigit_iff (p : Params) (b : Block) (i : Digit) :
    producibleChessDigit p b i = true ↔
      b.out[i].getLsbD 7 = false ∧
        (asserted p.variant b.sel i.line = true → b.out[i] = shownPattern p b) := by
  unfold producibleChessDigit
  rw [Bool.and_eq_true, Bool.not_eq_true', Bool.or_eq_true, Bool.not_eq_true', beq_iff_eq]
  refine and_congr Iff.rfl ?_
  cases asserted p.variant b.sel i.line <;> simp

theorem mem_armTimes (p : Params) (b : Block) (u : Time) :
    u ∈ armTimes p b ↔ ∃ (i : Line) (t : Time), b.decayDl[i] = some t ∧ u = t - p.decayDelay := by
  simp [armTimes, lines, eq_comm]

/-! ## Debounce periods -/

/-- Periods of length `delay` that begin at the times of the list, one after the other, from `p` on, and end by
`limit`. -/
def PeriodsFit (delay limit : Nat) : Nat → List Nat → Prop
  | p, [] => p ≤ limit
  | p, w :: ws => p ≤ w ∧ PeriodsFit delay limit (w + delay) ws

/-- The time lies in one of the periods. -/
def InPeriod (delay : Nat) (starts : List Nat) (t : Nat) : Prop := ∃ w ∈ starts, w ≤ t ∧ t ≤ w + delay

theorem PeriodsFit.le_limit {delay limit p : Nat} {ws : List Nat} (h : PeriodsFit delay limit p ws) : p ≤ limit := by
  induction ws generalizing p with
  | nil => exact h
  | cons w ws ih => exact le_trans h.1 (le_trans (Nat.le_add_right w delay) (ih h.2))

/-- Periods that fit include any tail of them; the tail begins after every earlier period has ended. -/
theorem PeriodsFit.split {delay limit p w : Nat} {ws : List Nat} (h : PeriodsFit delay limit p ws) (hw : w ∈ ws) :
    ∃ vs, p ≤ w ∧ PeriodsFit delay limit (w + delay) vs ∧
      ∀ u ∈ ws, u ∈ w :: vs ∨ u + delay ≤ w := by
  induction ws generalizing p with
  | nil => cases hw
  | cons x xs ih =>
    by_cases e : w = x
    · subst e; exact ⟨xs, h.1, h.2, fun u hu => .inl hu⟩
    · obtain ⟨vs, hp, hf, hu⟩ := ih h.2 (List.mem_of_ne_of_mem e hw)
      refine ⟨vs, le_trans h.1 (le_trans (Nat.le_add_right x delay) hp), hf, fun u hm => ?_⟩
      rcases List.mem_cons.1 hm with rfl | hm
      · exact .inr hp
      · exact hu u hm

/-- The search finds periods: one for the group from `first` to `last`, and later ones for the rest. -/
theorem debouncesFit_sound (delay limit p f l : Nat) (ts : List Nat) (hp : p ≤ f) (hfl : f ≤ l) (hl : l ≤ f + delay)
    (hs : (l :: ts).Pairwise (· ≤ ·)) (h : debouncesFit delay limit p f l ts = true) :
    ∃ w ws, p ≤ w ∧ w ≤ f ∧ l ≤ w + delay ∧ PeriodsFit delay limit (w + delay) ws ∧
      ∀ t ∈ ts, InPeriod delay (w :: ws) t := by
  have hw : max p (l - delay) ≤ f ∧ l ≤ max p (l - delay) + delay := by omega
  induction ts generalizing p f l with
  | nil => exact ⟨_, [], le_max_left _ _, hw.1, hw.2, by simpa [debouncesFit, PeriodsFit] using h, by simp⟩
  | cons t ts ih =>
    have hlt : l ≤ t := (List.pairwise_cons.1 hs).1 t (by simp)
    have hs' := (List.pairwise_cons.1 hs).2
    simp only [debouncesFit, Bool.or_eq_true, Bool.and_eq_true, decide_eq_true_eq] at h
    rcases h with ⟨hj, h⟩ | ⟨hq, h⟩
    · obtain ⟨w, ws, h1, h2, h3, h4, h5⟩ := ih p f t hp (le_trans hfl hlt) hj hs' h (by omega)
      refine ⟨w, ws, h1, h2, le_trans hlt h3, h4, fun u hu => ?_⟩
      rcases List.mem_cons.1 hu with rfl | hu
      · exact ⟨w, by simp, by omega, h3⟩
      · exact h5 u hu
    · obtain ⟨w, ws, h1, h2, h3, h4, h5⟩ := ih _ t t hq le_rfl (Nat.le_add_right _ _) hs' h (by omega)
      refine ⟨_, w :: ws, le_max_left _ _, hw.1, hw.2, ⟨h1, h4⟩, fun u hu => ?_⟩
      rcases List.mem_cons.1 hu with rfl | hu
      · exact ⟨w, by simp, h2, h3⟩
      · obtain ⟨x, hx, h⟩ := h5 u hu
        exact ⟨x, List.mem_cons_of_mem _ hx, h⟩

/-- The search misses no periods. -/
theorem debouncesFit_complete (delay limit p f l w : Nat) (ws ts : List Nat) (hp : p ≤ w) (hw : w ≤ f) (hfl : f ≤ l)
    (hl : l ≤ w + delay) (hs : (l :: ts).Pairwise (· ≤ ·)) (hfit : PeriodsFit delay limit (w + delay) ws)
    (hc : ∀ t ∈ ts, InPeriod delay (w :: ws) t) : debouncesFit delay limit p f l ts = true := by
  have hq : max p (l - delay) + delay ≤ w + delay := by omega
  induction ts generalizing p f l w ws with
  | nil => exact decide_eq_true (le_trans hq hfit.le_limit)
  | cons t ts ih =>
    have hlt : l ≤ t := (List.pairwise_cons.1 hs).1 t (by simp)
    have hs' := (List.pairwise_cons.1 hs).2
    have hc' : ∀ u ∈ ts, InPeriod delay (w :: ws) u := fun u hu => hc u (List.mem_cons_of_mem _ hu)
    simp only [debouncesFit, Bool.or_eq_true, Bool.and_eq_true, decide_eq_true_eq]
    by_cases ht : t ≤ w + delay
    · exact .inl ⟨by omega, ih p f t w ws hp hw (le_trans hfl hlt) ht hs' hfit hc' (by omega)⟩
    · obtain ⟨x, hx, hxt, htx⟩ := hc t (by simp)
      have hx : x ∈ ws := by
        rcases List.mem_cons.1 hx with rfl | hx
        · exact absurd htx ht
        · exact hx
      obtain ⟨vs, hle, hfit', hsp⟩ := hfit.split hx
      refine .inr ⟨by omega, ih _ t t x vs (by omega) hxt le_rfl htx hs' hfit' (fun u hu => ?_) (by omega)⟩
      have htu : t ≤ u := (List.pairwise_cons.1 hs').1 u hu
      obtain ⟨y, hy, hyu, huy⟩ := hc' u hu
      rcases List.mem_cons.1 hy with rfl | hy
      · omega
      · rcases hsp y hy with hm | hlast
        · exact ⟨y, hm, hyu, huy⟩
        · exact ⟨x, by simp, by omega, by omega⟩

/-- Nats can lie in debounce periods that end by `limit` exactly if there are such periods (R124). -/
theorem debouncesCover_iff (delay limit : Nat) (times : List Nat) :
    debouncesCover delay limit times = true ↔
      ∃ starts, PeriodsFit delay limit 0 starts ∧ ∀ t ∈ times, InPeriod delay starts t := by
  have hperm := List.perm_insertionSort (· ≤ ·) times
  have hsort := List.pairwise_insertionSort (· ≤ ·) times
  have hmem : ∀ t, t ∈ times ↔ t ∈ times.insertionSort (· ≤ ·) := fun t => (hperm.mem_iff).symm
  simp only [hmem]
  unfold debouncesCover
  generalize times.insertionSort (· ≤ ·) = ts at hsort
  cases ts with
  | nil => simp only [List.not_mem_nil, false_implies, implies_true, and_true, true_iff]; exact ⟨[], Nat.zero_le _⟩
  | cons t ts =>
    constructor
    · intro h
      obtain ⟨w, ws, h1, h2, h3, h4, h5⟩ :=
        debouncesFit_sound delay limit 0 t t ts (Nat.zero_le _) le_rfl (Nat.le_add_right _ _) hsort h
      refine ⟨w :: ws, ⟨h1, h4⟩, fun u hu => ?_⟩
      rcases List.mem_cons.1 hu with rfl | hu
      · exact ⟨w, by simp, h2, h3⟩
      · exact h5 u hu
    · rintro ⟨starts, hfit, hc⟩
      obtain ⟨w, hw, hwt, htw⟩ := hc t (by simp)
      obtain ⟨vs, h0, hfit', hsp⟩ := hfit.split hw
      refine debouncesFit_complete delay limit 0 t t w vs ts h0 hwt le_rfl htw hsort hfit' fun u hu => ?_
      have htu : t ≤ u := (List.pairwise_cons.1 hsort).1 u hu
      obtain ⟨y, hy, hyu, huy⟩ := hc u (List.mem_cons_of_mem _ hu)
      rcases hsp y hy with hm | hlast
      · exact ⟨y, hm, hyu, huy⟩
      · exact ⟨w, by simp, by omega, by omega⟩

end Sys2Proof.Machine
end

