-- ==== Sys2Proof/Laws/Keypad.lean ====
section
/-! SUPPORT. The keypad scanner's functions, bit by bit (rules R212, R213, R215 to R218). -/

namespace Sys2Proof.Machine

/-- Some column is enabled and pressed exactly if the bit-AND of the two nibbles is not zero (R212). -/
theorem nibble_and_ne_zero (a b : Nibble) : (a &&& b) ≠ 0 ↔ ∃ j : Fin 4, a.getLsbD j.val = true ∧ b.getLsbD j.val = true := by
  revert a b
  decide

theorem lineHits_getLsbD (seg : Byte) (k : Vector Nibble 4) (i : Fin 4) :
    (lineHits seg k).getLsbD i.val = true ↔
      ∃ j : Fin 4, seg.getLsbD j.val = true ∧ k[i].getLsbD j.val = true := by
  have h : (lineHits seg k).getLsbD i.val = (k[i] &&& seg.extractLsb' 0 4 != 0) := by
    simp [lineHits]
  rw [h, bne_iff_ne, nibble_and_ne_zero]
  simp [and_comm]

theorem columnHits_getLsbD (seg : Byte) (k : Vector Nibble 4) (j : Fin 4) :
    (columnHits seg k).getLsbD j.val = true ↔
      ∃ i : Fin 4, seg.getLsbD i.val = true ∧ k[i].getLsbD j.val = true := by
  have h : ∀ i : Fin 4, (selectedColumns seg k i).getLsbD j.val = (seg.getLsbD i.val && k[i].getLsbD j.val) := by
    intro i; unfold selectedColumns; split <;> simp_all
  simp only [columnHits, BitVec.getLsbD_or, h, Fin.exists_fin_succ]
  simp [or_assoc]

theorem joinNibbles_low (hi lo : Nibble) (i : Fin 4) : (joinNibbles hi lo).getLsbD i.val = lo.getLsbD i.val :=
  (BitVec.getLsbD_append (x := hi) (y := lo)).trans (by simp)

theorem joinNibbles_high (hi lo : Nibble) (j : Fin 4) : (joinNibbles hi lo).getLsbD (4 + j.val) = hi.getLsbD j.val :=
  (BitVec.getLsbD_append (x := hi) (y := lo)).trans (by simp)

/-- The low nibble of the CHESS scan (R212). -/
theorem chessScan_low (seg : Byte) (k : Vector Nibble 4) (i : Fin 4) :
    (chessScan seg k).getLsbD i.val = (lineHits seg k).getLsbD i.val := joinNibbles_low _ _ i

/-- The high nibble of the CHESS scan (R213). -/
theorem chessScan_high (seg : Byte) (k : Vector Nibble 4) (j : Fin 4) :
    (chessScan seg k).getLsbD (4 + j.val) = (columnHits seg k).getLsbD j.val := joinNibbles_high _ _ j

/-- The low nibble of the CONSOLE scan is the key code (R217). -/
theorem consoleScan_low (p : Params) (a : Nat) (b : Nibble) :
    (consoleScan p a b).extractLsb' 0 4 = keyCode p (groupAWord p.wiring a) := by
  apply BitVec.eq_of_getLsbD_eq
  intro i hi
  have h := joinNibbles_low (~~~b) (keyCode p (groupAWord p.wiring a)) ⟨i, hi⟩
  rw [BitVec.getLsbD_extractLsb']
  simpa [consoleScan, hi] using h

/-- The high nibble of the CONSOLE scan is the inverted group-B word (R216). -/
theorem consoleScan_high (p : Params) (a : Nat) (b : Nibble) (j : Fin 4) :
    (consoleScan p a b).getLsbD (4 + j.val) = !b.getLsbD j.val :=
  (joinNibbles_high _ _ j).trans (by simp)

/-- The key code of a nonzero word, as a number (R215, R220). -/
theorem keyCode_toNat (p : Params) (a : Nat) (h : a ≠ 0) :
    (keyCode p a).toNat = (((clz p.wiring.clzWidth a : Int) - p.wiring.clzOffset) % 16).toNat := by
  simp [keyCode, h, BitVec.toNat_ofInt]

theorem keyCode_zero (p : Params) : keyCode p 0 = p.noKeyCode := by
  simp [keyCode]

end Sys2Proof.Machine
end

