-- ==== Sys2Proof/Laws/PerInstr.lean ====
section
/-! SUPPORT. Per-instruction facts about the encoding: the word of every instruction is a word of its own row of the
opcode table. -/

namespace Sys2Proof.Laws

/-- The encoded word of the instruction is recognised as a word of its row (rule R103). -/
def HitsItsRow.Statement (i : Instr) : Prop := formOf (encode i).word = some i.form

theorem HitsItsRow.rdData : HitsItsRow.Statement .rdData := by
  show formOf 0x000 = some .rdData; decide
theorem HitsItsRow.rdSel : HitsItsRow.Statement .rdSel := by
  show formOf 0x100 = some .rdSel; decide
theorem HitsItsRow.wrData (v : Byte) : HitsItsRow.Statement (.wrData v) := by
  revert v; unfold Statement encode Stimulus.ofWord; decide
theorem HitsItsRow.wrSel (v : Byte) : HitsItsRow.Statement (.wrSel v) := by
  revert v; unfold Statement encode Stimulus.ofWord; decide
theorem HitsItsRow.decayFire (n : Fin 8) : HitsItsRow.Statement (.decayFire n) := by
  revert n; unfold Statement encode Stimulus.ofWord; decide
theorem HitsItsRow.blinkTick : HitsItsRow.Statement .blinkTick := by
  show formOf 0x500 = some .blinkTick; decide
theorem HitsItsRow.debounceFire : HitsItsRow.Statement .debounceFire := by
  show formOf 0x600 = some .debounceFire; decide
theorem HitsItsRow.reset (v : Bool) : HitsItsRow.Statement (.reset v) := by
  revert v; unfold Statement encode Stimulus.ofWord; decide
theorem HitsItsRow.advance (d : Time) : HitsItsRow.Statement (.advance d) := by
  show formOf 0x900 = some .advance; decide
theorem HitsItsRow.save : HitsItsRow.Statement .save := by
  show formOf 0xA00 = some .save; decide
theorem HitsItsRow.restore (img : Image) : HitsItsRow.Statement (.restore img) := by
  show formOf 0xB00 = some .restore; decide

/-- No word hits two rows of the opcode table (R103). -/
theorem opcodeTable_disjoint :
    opcodeTable.Pairwise fun r q => r.pattern &&& q.mask ≠ q.pattern &&& r.mask := by decide

end Sys2Proof.Laws
end

