-- ==== Sys2Proof/Tests/Slice0.lean ====
section
/-! SUPPORT. Tests. Expected values come from 95_test_vectors.md (the vector is named) and from the encoding tables of
30_encoding.md. A theorem test_… checks one step or one word; a theorem witness_… gives a state and operands that meet the
hypotheses of a statement. -/

namespace Sys2Proof.Tests

open Sys2Proof.Machine Sys2Proof.Safety

/-! ## Helpers -/

/-- EX-C and EX-S of 95_test_vectors.md section 0. -/
def exampleParams (v : Variant) : Params := { defaultParams v with wiring := .exampleHardware }

/-- The power-on state with the example parameters. -/
def chess : State := .powerOn (exampleParams .chess)
def console : State := .powerOn (exampleParams .console)

/-- The same machine with its block changed. -/
def with' (s : State) (f : Block → Block) : State := s.withBlock (f s.block)

/-- The outcome is a next state with property `p`. -/
def nextHas (o : Host.Outcome State Fault Refusal) (p : State → Bool) : Bool :=
  match o with
  | .next t => p t
  | .fault _ => false
  | .refused _ => false

def refusedBy (o : Host.Outcome State Fault Refusal) (r : Refusal) : Bool :=
  match o with
  | .refused q => decide (q = r)
  | .fault _ => false
  | .next _ => false

def faultedBy (o : Host.Outcome State Fault Refusal) (f : Fault) : Bool :=
  match o with
  | .fault g => decide (g = f)
  | .refused _ => false
  | .next _ => false

/-- B-4: digit 0 selected and showing 0x3F, `now = 1000`. -/
def digit0Lit : State := with' chess fun b =>
  { b with sel := 0xFE, seg := 0x3F, act := b.act.set 0 true, out := b.out.set 0 0x3F, now := 1000 }

/-- V-DC1 after step 5: digit 0 deselected at 1 ms, one ns before its deadline. -/
def digit0Decaying : State := with' chess fun b =>
  { b with seg := 0x06, act := b.act.set 0 true, out := b.out.set 0 0x06,
           decayDl := b.decayDl.set 0 (some 21000000), now := 20999999 }

/-- V-DC1 after step 8: the deadline is now. -/
def digit0Due : State := with' digit0Decaying fun b => { b with now := 21000000 }

/-- V-DO1 before its step 8: the same, with line 0 selected again. -/
def digit0Reselected : State := with' digit0Due fun b => { b with sel := 0xFE }

/-- V-BG1: line 0 selected, the first blink tick due. -/
def blinking (seg : Byte) : State := with' chess fun b =>
  { b with sel := 0xFE, seg := seg, act := b.act.set 0 true, now := 250000000 }

/-- V-RS1: lines 0 and 1 selected, line 2 deselected and decaying, the blink phase on. -/
def busyChess : State := with' chess fun b =>
  { b with sel := 0xFC, seg := 0x86, act := #v[true, true, true, false, false, false], bph := true,
           out := #v[0x06, 0x06, 0x06, 0], decayDl := b.decayDl.set 2 (some 303000000),
           blinkDl := some 500000000, now := 300000000 }

/-- CONSOLE: line 0 selected; line 1 decaying; lines 2 and 5 due; both lamps lit; a debounced recompute pending. -/
def busyConsole : State := with' console fun b =>
  { b with sel := 0x11, seg := 0xAB, act := #v[true, true, true, false, true, true], out := #v[0xAB, 0x12, 0x34, 0],
           lampLose := true, lampWin := true,
           decayDl := #v[none, some 34000000, some 30000000, none, none, some 30000000],
           debDl := some 30010000, now := 30000000 }

/-- B-10: a debounced recompute pending. -/
def debouncePending (m : DebounceMode) : State :=
  { with' console fun b => { b with sel := 0x01, act := b.act.set 0 true, debDl := some 15000, now := 10000 } with
    params := { exampleParams .console with debounceMode := m } }

/-- T-9: the debounced recompute is due. -/
def debounceDue : State := with' console fun b =>
  { b with sel := 0x01, seg := 0x5A, act := b.act.set 0 true, debDl := some 15000, now := 15000 }

/-- A machine whose keypad answers `k` to the next poll. -/
def pressing (s : State) (seg : Byte) (k : KeypadAnswer) : State :=
  { with' s fun b => { b with seg := seg } with keypad := [k] }

/-! ## Well-formedness: an ill-formed term for each check -/

theorem test_decayFire_needs_its_line :
    Instr.wellFormed .chess (.decayFire 4) = false ∧ Instr.wellFormed .console (.decayFire 6) = false ∧
    Instr.wellFormed .chess (.decayFire 3) = true ∧ Instr.wellFormed .console (.decayFire 5) = true := by decide

theorem test_blinkTick_is_chess : Instr.wellFormed .console .blinkTick = false ∧
    Instr.wellFormed .chess .blinkTick = true := by decide

theorem test_debounceFire_is_console : Instr.wellFormed .chess .debounceFire = false ∧
    Instr.wellFormed .console .debounceFire = true := by decide

/-! ## Decoding: the words of 95_test_vectors.md section 2.7, written field by field as class, selector, low byte -/

/-- Class 00: bit 9 is read (0) or write (1), bit 8 the register, bits 7..0 the data byte. -/
theorem test_decode_bus (v : Variant) :
    decode v (.ofWord 0b000000000000) = some .rdData ∧ decode v (.ofWord 0b000011111111) = some .rdData ∧
    decode v (.ofWord 0b000110101011) = some .rdSel ∧ decode v (.ofWord 0b001010101011) = some (.wrData 0xAB) ∧
    decode v (.ofWord 0b001100001111) = some (.wrSel 0x0F) := by cases v <;> decide

/-- Class 01: bits 9..8 the kind, bits 2..0 the line. -/
theorem test_decode_event :
    decode .chess (.ofWord 0b010000000011) = some (.decayFire 3) ∧
    decode .console (.ofWord 0b010000000101) = some (.decayFire 5) ∧
    decode .chess (.ofWord 0b010100000000) = some .blinkTick ∧
    decode .console (.ofWord 0b011000000000) = some .debounceFire := by decide

/-- A word whose row is known decodes to the operands of that row. -/
theorem decode_of_form (v : Variant) (st : Stimulus) (f : Form) (hf : formOf st.word = some f)
    (hw : (operands st f).wellFormed v = true) : decode v st = some (operands st f) := by
  simp [decode, hf, hw]

theorem advance_row : formOf 0b100100000000 = some .advance := by decide
theorem restore_row : formOf 0b101100000000 = some .restore := by decide

/-- Class 10: bits 9..8 the action, bit 0 the level. -/
theorem test_decode_host (v : Variant) (d : Time) (img : Image) :
    decode v (.ofWord 0b100000000000) = some (.reset false) ∧
    decode v (.ofWord 0b100000000001) = some (.reset true) ∧ decode v ⟨0b100100000000, d, img⟩ = some (.advance d) ∧
    decode v (.ofWord 0b101000000000) = some .save ∧ decode v ⟨0b101100000000, d, img⟩ = some (.restore img) := by
  exact ⟨by cases v <;> decide, by cases v <;> decide, decode_of_form v _ .advance advance_row rfl,
    by cases v <;> decide, decode_of_form v _ .restore restore_row rfl⟩

/-- The refused words, in both variants. -/
theorem test_decode_refuses (v : Variant) :
    ∀ w ∈ [0x406, 0x407, 0x408, 0x501, 0x700, 0x802, 0x901, 0xA01, 0xB01, 0xC00, 0xFFF],
      decode v (.ofWord (BitVec.ofNat 12 w)) = none := by cases v <;> decide

/-- The words refused in one variant. -/
theorem test_decode_refuses_by_variant :
    decode .chess (.ofWord 0x404) = none ∧ decode .chess (.ofWord 0x405) = none ∧
    decode .console (.ofWord 0x500) = none ∧ decode .chess (.ofWord 0x600) = none := by decide

/-- A read's don't-care bits are assembled as 0 (rule R95); the other words are the ones written out above. -/
theorem test_encode : (encode .rdSel).word = 0x100 ∧ (encode (.wrSel 0x0F)).word = 0x30F ∧
    (encode (.decayFire 5)).word = 0x405 ∧ (encode (.reset true)).word = 0x801 ∧
    (encode (.advance 7)).duration = 7 := by decide

/-- The assembler text of rule R104. -/
theorem test_asmText : (Instr.wrSel 0xFE).asmText = "WR SEL, 0xFE" ∧ (Instr.reset true).asmText = "RESET 1" := by decide

/-- The host's view: one word per row of the table, run as the first stimulus after reset. -/
theorem test_every_row_runs_from_reset :
    ∀ w ∈ [0x000, 0x1AB, 0x2AB, 0x30F, 0x403, 0x405, 0x500, 0x600, 0x801, 0x900, 0xA00, 0xB00],
      nextHas (step (State.reset.withFetchWord 16 w)) (fun _ => true) = true := by decide

/-- The host's table decoder, on a CHESS form, a CONSOLE form and a reserved word. -/
theorem test_decodeTableWord : decodeTableWord 16 0x500 = some .blinkTick ∧
    decodeTableWord 16 0x600 = some .debounceFire ∧ decodeTableWord 16 0xC00 = none ∧
    decodeTableWord 16 0x1000 = none := by decide

/-- A reserved word and an empty list of stimuli: refused, and no step. -/
theorem test_step_stops : refusedBy (step (State.reset.withFetchWord 16 0xC00)) .reservedEncoding = true ∧
    faultedBy (step State.reset) .noStimulus = true := by decide

/-- R128: a chip that latches. A write to 0xF4 is latched, here only that 0x0F was (content 1); a write to 0xF5 then hands
the latched byte, inverted, to DATA and drops it. -/
def latchingChip : PortMap where
  initial := 0
  writes  := [⟨0, 0xF4, .replicate 256 [], .replicate 256 1⟩, ⟨1, 0xF5, .replicate 256 [(.data, 0xF0)], .replicate 256 0⟩]
  reads   := [⟨0, 0xF6, some .data, .replicate 256 0x55, .replicate 256 0⟩]

def chipParams : Params :=
  { exampleParams .console with wiring := { OpenParams.exampleHardware with consolePortMap := latchingChip } }

/-- R71: the CHESS ports reach their registers with the byte as it is. -/
theorem test_ports_chess :
    portRead chess.params 0 0x00 = some .rdData ∧ portWrite chess.params 0 0x01 0xFE = ([.wrSel 0xFE], 0) ∧
    portAnswer chess.params 0 0x00 0x24 = (some 0x24, 0) ∧ portRead chess.params 0 0xF4 = none := by decide

/-- R71, R128: through the latching chip; a port outside 0xF4 to 0xF7 reaches nothing. -/
theorem test_ports_console :
    portWrite chipParams 0 0xF4 0x0F = ([], 1) ∧ portWrite chipParams 1 0xF5 0x00 = ([.wrData 0xF0], 0) ∧
    portWrite chipParams 0 0xF5 0x00 = ([], 0) ∧ portRead chipParams 0 0xF6 = some .rdData ∧
    portAnswer chipParams 0 0xF6 0x24 = (some 0x55, 0) ∧ portRead chipParams 0 0x00 = none := by decide

/-! ## One step of each form -/

/-- K-C1 to K-C7, on the scanner RD DATA answers with. -/
theorem test_chessScan :
    chessScan 0x06 #v[0, 0, 0b0010, 0] = 0x24 ∧ chessScan 0x00 #v[0, 0, 0b0010, 0] = 0x00 ∧
    chessScan 0x0F #v[0b0001, 0, 0, 0b1000] = 0x99 ∧ chessScan 0x01 #v[0, 0b0001, 0, 0] = 0x02 ∧
    chessScan 0xF2 #v[0, 0b0100, 0, 0] = 0x40 ∧ chessScan 0xFF #v[0, 0, 0, 0] = 0x00 ∧
    chessScan 0x0F #v[0xF, 0xF, 0xF, 0xF] = 0xFF := by decide

/-- K-S1 to K-S6, on the scanner RD DATA answers with. -/
theorem test_consoleScan :
    consoleScan (exampleParams .console) 0x0001 0xF = 0x0E ∧ consoleScan (exampleParams .console) 0x4000 0xF = 0x00 ∧
    consoleScan (exampleParams .console) 0x0000 0xF = 0x0F ∧ consoleScan (exampleParams .console) 0x0000 0x0 = 0xFF ∧
    consoleScan (exampleParams .console) 0x0005 0xE = 0x1C ∧ consoleScan (exampleParams .console) 0x0100 0x5 = 0xA6 := by decide

/-- V-KC1. -/
theorem test_rdData_chess :
    nextHas (exec .rdData (pressing chess 0x06 ⟨#v[0, 0, 0b0010, 0], 0, 0⟩)) (fun t =>
      t.reads == [0x24] && t.records == [] && t.keypad == []) = true := by decide

/-- K-S6. -/
theorem test_rdData_console :
    nextHas (exec .rdData (pressing console 0 ⟨#v[0, 0, 0, 0], 0x0100, 0x5⟩)) (fun t =>
      t.reads == [0xA6] && decide (t.block = console.block)) = true := by decide

/-- B-15: no state change, no record, one byte. -/
theorem test_rdSel : nextHas (exec .rdSel busyChess) (fun t =>
    decide (t.block = busyChess.block) && t.records == [] && t.reads.length == 1) = true := by decide

/-- B-3. -/
theorem test_wrData_chess :
    nextHas (exec (.wrData 0x3F) (with' chess fun b => { b with sel := 0xFE, act := b.act.set 0 true })) (fun t =>
      t.block.seg == 0x3F && t.block.out == #v[0x3F, 0, 0, 0] && t.records.length == 1) = true := by decide

/-- B-11: at once, the pending recompute kept. -/
theorem test_wrData_console :
    nextHas (exec (.wrData 0x77) (debouncePending .keep)) (fun t =>
      t.block.out == #v[0x77, 0, 0, 0] && t.block.debDl == some 15000) = true := by decide

/-- B-4. -/
theorem test_wrSel_chess : nextHas (exec (.wrSel 0xFD) digit0Lit) (fun t =>
    t.block.decayDl[0] == some 20001000 && t.block.act == #v[true, true, false, false, false, false] &&
    t.block.out == #v[0x3F, 0x3F, 0, 0] && t.records.length == 1) = true := by decide

/-- B-10, both readings of the debounce. -/
theorem test_wrSel_console :
    nextHas (exec (.wrSel 0x03) (debouncePending .keep)) (fun t =>
      t.block.debDl == some 15000 && t.block.act == #v[true, true, false, false, false, false] &&
      t.records == []) = true ∧
    nextHas (exec (.wrSel 0x03) (debouncePending .reschedule)) (fun t => t.block.debDl == some 25000) = true := by
  decide

/-- V-DC1 steps 6 and 9: no step before the deadline, blank at it. -/
theorem test_decayFire_chess :
    faultedBy (exec (.decayFire 0) digit0Decaying) .notDue = true ∧
    nextHas (exec (.decayFire 0) digit0Due) (fun t =>
      !t.block.act[0] && t.block.out[0] == 0 && t.block.decayDl[0] == none) = true := by decide

/-- T-7: the WIN lamp goes out with line 5. -/
theorem test_decayFire_console :
    nextHas (exec (.decayFire 5) busyConsole) (fun t =>
      !t.block.act[5] && !t.block.lampWin && t.block.lampLose) = true := by decide

/-- V-BG1: the pattern appears with the phase, without its decimal point. -/
theorem test_blinkTick :
    nextHas (exec .blinkTick (blinking 0x86)) (fun t =>
      t.block.bph && t.block.out[0] == 0x06 && t.block.blinkDl == some 500000000 && t.records.length == 1) = true := by
  decide

/-- BL-3: a held digit is not gated. -/
theorem test_blinkTick_holds :
    nextHas (exec .blinkTick (with' digit0Decaying fun b =>
      { b with seg := 0x86, bph := true, now := 250000000 })) (fun t =>
      !t.block.bph && t.block.out[0] == 0x06) = true := by decide

/-- T-9. -/
theorem test_debounceFire : nextHas (exec .debounceFire debounceDue) (fun t =>
    t.block.out == #v[0x5A, 0, 0, 0] && t.block.debDl == none) = true := by decide

/-- T-12. -/
theorem test_debounceFire_waits : faultedBy (exec .debounceFire (debouncePending .keep)) .notDue = true := by decide

/-- V-RS1. -/
theorem test_reset_edge : nextHas (exec (.reset true) busyChess) (fun t =>
    decide (t.block = { powerOn (exampleParams .chess) with blinkDl := some 550000000, rst := true, now := 300000000 }) &&
    t.records == [⟨300000000, #v[0, 0, 0, 0], none⟩]) = true := by decide

/-- H-4: a repeated assertion does nothing. -/
theorem test_reset_held : nextHas (exec (.reset true) (with' busyChess fun b => { b with rst := true })) (fun t =>
    decide (t.block = { busyChess.block with rst := true }) && t.records == []) = true := by decide

/-- V-DC1 steps 7 and 8: up to the deadline, not past it. -/
theorem test_advance : faultedBy (exec (.advance 2) digit0Decaying) .passesDeadline = true ∧
    nextHas (exec (.advance 1) digit0Decaying) (fun t => decide (t = digit0Due)) = true := by decide

/-- H-7, first half. -/
theorem test_save : nextHas (exec .save busyConsole) (fun t =>
    t.snapshots == [⟨.console, busyConsole.block⟩] && decide (t.block = busyConsole.block)) = true := by decide

/-- H-7, second half: everything comes back, the clock too, and no record. -/
theorem test_restore : nextHas (exec (.restore ⟨.console, busyConsole.block⟩) console) (fun t =>
    decide (t.block = busyConsole.block) && t.records == []) = true := by decide

/-- H-8, H-9, H-10, and a lit lamp of an inactive line. -/
theorem test_restore_refuses :
    refusedBy (exec (.restore ⟨.console, console.block⟩) chess) .badSnapshot = true ∧
    refusedBy (exec (.restore ⟨.chess, { chess.block with sel := 0xFE }⟩) chess) .badSnapshot = true ∧
    refusedBy (exec (.restore ⟨.chess, { digit0Due.block with now := 21000001 }⟩) chess) .badSnapshot = true ∧
    refusedBy (exec (.restore ⟨.console, { console.block with lampWin := true }⟩) console) .badSnapshot = true := by
  decide

/-- R160, R182, R181, R155: images no reachable state produces. A lit decimal point; a timer of an inactive line; a deadline
further off than the delay; a lamp dark although its line is active and no recompute is pending. -/
theorem test_restore_refuses_unproducible :
    refusedBy (exec (.restore ⟨.chess, { digit0Due.block with out := #v[0x86, 0, 0, 0] }⟩) chess) .badSnapshot = true ∧
    refusedBy (exec (.restore ⟨.chess, { digit0Due.block with act := .replicate 6 false, out := .replicate 4 0 }⟩)
      chess) .badSnapshot = true ∧
    refusedBy (exec (.restore ⟨.chess, { digit0Due.block with decayDl := digit0Due.block.decayDl.set 0 (some 41000001) }⟩)
      chess) .badSnapshot = true ∧
    refusedBy (exec (.restore ⟨.console, { busyConsole.block with debDl := none, lampLose := false }⟩) console)
      .badSnapshot = true ∧
    nextHas (exec (.restore ⟨.chess, busyChess.block⟩) chess) (fun _ => true) = true := by decide

/-! ## Witnesses: what the statements assume can be met -/

theorem witness_DecodeOfEncodeIsIdentity : (Instr.decayFire 5).WellFormed .console ∧
    (Instr.decayFire 3).WellFormed .chess ∧ (Instr.wrSel 0xFF).WellFormed .chess := by decide

theorem witness_EncodeOfDecodeGivesTheWordBack (d : Time) (img : Image) :
    decode .chess (.ofWord 0x0FF) = some .rdData ∧ decode .console (.ofWord 0x3FF) = some (.wrSel 0xFF) ∧
    decode .chess ⟨0x900, d, img⟩ = some (.advance d) ∧ decode .chess ⟨0xB00, d, img⟩ = some (.restore img) := by
  exact ⟨by decide, by decide, decode_of_form .chess _ .advance advance_row rfl,
    decode_of_form .chess _ .restore restore_row rfl⟩

/-- Each way a word can be reserved, at a boundary. -/
theorem witness_ReservedWordsAreRefused :
    (∀ v, ∀ w ∈ [0xC00, 0x700, 0x408, 0x501, 0x607, 0x406, 0x802, 0x901],
      ReservedWord v (BitVec.ofNat 12 w)) ∧
    ReservedWord .chess 0x404 ∧ ReservedWord .console 0x500 ∧ ReservedWord .chess 0x600 ∧
    ¬ ReservedWord .console 0x405 ∧ ¬ ReservedWord .chess 0x801 ∧
    (offer chess (.ofWord 0x404)).stimuli = [.ofWord 0x404] := by
  unfold ReservedWord
  exact ⟨fun v => by cases v <;> decide, by decide, by decide, by decide, by decide, by decide, by decide⟩

theorem witness_StepRunsTheOfferedStimulus :
    (offer chess (.ofWord 0x2AB)).stimuli = [.ofWord 0x2AB] ∧
    decode (offer chess (.ofWord 0x2AB)).params.variant (.ofWord 0x2AB) = some (.wrData 0xAB) := by decide

theorem witness_AbsentFormsAreRefused :
    ¬ (Instr.decayFire 4).WellFormed chess.params.variant ∧ ¬ (Instr.decayFire 6).WellFormed console.params.variant ∧
    ¬ Instr.debounceFire.WellFormed chess.params.variant ∧ ¬ Instr.blinkTick.WellFormed console.params.variant := by
  decide

/-- A step from a consistent state. -/
theorem witness_StepsNeverChangeTheParameters :
    nextHas (step (offer busyConsole (.ofWord 0x402))) (fun t => decide (t.params = busyConsole.params)) = true := by
  decide

/-- Two machines with one block and different surroundings. -/
theorem witness_SurroundingsNeverInfluenceTheBlock :
    (pressing console 0 default).params = console.params ∧ (pressing console 0 default).block = console.block ∧
    nextHas (exec (.wrSel 1) console) (fun _ => true) = true := by decide

/-- Both variants: for WrSelRecomputesAtOnceInChess, the three Chess… and Console… statements about RD DATA, and every
other statement that assumes a variant. -/
theorem witness_variant : chess.params.variant = .chess ∧ console.params.variant = .console := by decide

/-- A deselect edge, a rising edge, neither, and a line CHESS lacks. -/
theorem witness_WrSelHandlesSelectEdges :
    (isLine .chess 0 && asserted .chess 0xFE 0 && !asserted .chess 0xFD 0) = true ∧
    (isLine .chess 1 && !asserted .chess 0xFE 1 && asserted .chess 0xFD 1) = true ∧
    asserted .chess 0xFE 2 = asserted .chess 0xFD 2 ∧ isLine .chess 4 = false ∧ isLine .chess 3 = true ∧
    isLine .console 5 = true := by decide

theorem witness_WrSelSchedulesOneRecomputeInConsole :
    (debouncePending .keep).params.variant = .console ∧ (debouncePending .keep).block.debDl = some 15000 ∧
    (debouncePending .keep).params.debounceMode = .keep ∧ console.block.debDl = none ∧
    (debouncePending .reschedule).params.debounceMode = .reschedule := by decide

/-- An empty group-A word (0x8000 lies outside the 15 keys: the model cuts it, log entry 11), and words whose highest key is the first or the last. -/
theorem witness_ConsoleReadDecodesBothGroups :
    let read := fun a => (pollKeypad (pressing console 0 ⟨#v[0, 0, 0, 0], a, 0xF⟩)).1.groupA % 2 ^ 15
    read 0 = 0 ∧ read 0x8000 = 0 ∧ (read 1).testBit 0 = true ∧ (read 0x4001).testBit 14 = true := by decide

/-- The highest key of a word: no bit of it above. -/
theorem witness_highest_key : ∀ m, 14 < m → (0x4001 : Nat).testBit m = false := fun m h =>
  Nat.testBit_lt_two_pow (Nat.lt_of_lt_of_le (by decide : 0x4001 < 2 ^ 15) (Nat.pow_le_pow_right (by decide) h))

/-- Parameters that meet the turned constraint, at its boundary. -/
theorem witness_OneHotKeyCodesAreDistinct :
    let o := (exampleParams .console).wiring
    (exampleParams .console).noKeyCode = 0xF ∧ o.keyAWidth ≤ o.clzWidth ∧ o.clzOffset ≤ o.clzWidth - o.keyAWidth ∧ o.clzWidth - o.clzOffset ≤ 15 ∧
    0 < o.keyAWidth ∧ 14 < o.keyAWidth := by decide

/-- The example parameters are admitted, so `Config.openParams` is. -/
theorem test_example_admitted : OpenParams.exampleHardware.Admitted := by decide

/-- Two machines that agree on what a recompute reads and holds, but not on the clock. -/
theorem witness_RecomputeWritesOnlyTheOutputs :
    digit0Due.block.out = digit0Decaying.block.out ∧ digit0Due.block.act = digit0Decaying.block.act ∧
    digit0Due.block.bph = digit0Decaying.block.bph ∧ digit0Due.block.now ≠ digit0Decaying.block.now := by decide

/-- A form that recomputes, one that does not, and a reset edge. -/
theorem witness_RecomputeIsCalledByExactlyTheseSteps :
    nextHas (exec (.wrData 1) chess) (fun _ => callsRecompute .chess (.wrData 1)) = true ∧
    nextHas (exec (.wrSel 1) console) (fun _ => !callsRecompute .console (.wrSel 1)) = true ∧
    nextHas (exec (.reset true) chess) (fun _ => !chess.block.rst) = true ∧
    ¬ IsResetEdge console (.wrSel 1) ∧ ¬ IsRestore (.wrSel 1) ∧ IsResetEdge chess (.reset true) := by
  refine ⟨by decide, by decide, by decide, ?_, ?_, rfl, rfl⟩
  · rintro ⟨h, -⟩; cases h
  · rintro ⟨img, h⟩; cases h

theorem witness_BlinkPhaseMattersOnlyInBlinkMode :
    digit0Lit.block.seg.getLsbD (digit0Lit.params.wiring.segPermChess[(7 : Fin 8)]).val = false := by decide

theorem witness_DecimalPointStaysDarkInChess : DecimalPointDark busyChess.block ∧
    nextHas (exec (.wrData 0x86) busyChess) (fun _ => true) = true :=
  ⟨by unfold DecimalPointDark; decide, by decide⟩

/-- ACT set by a rising edge, and cleared by a fire, by a reset edge and by an image. -/
theorem witness_ActiveMaskHasOnlyItsWriters :
    (asserted .chess 0xFE 1 || !asserted .chess 0xFD 1) = false ∧
    nextHas (exec (.wrSel 0xFD) digit0Lit) (fun t => !digit0Lit.block.act[1] && t.block.act[1]) = true ∧
    nextHas (exec (.decayFire 0) digit0Due) (fun t => digit0Due.block.act[0] && !t.block.act[0]) = true ∧
    asserted .chess digit0Due.block.sel 0 = false ∧ digit0Due.block.rst = false ∧
    nextHas (exec (.reset true) digit0Due) (fun t => digit0Due.block.act[0] && !t.block.act[0]) = true ∧
    nextHas (exec (.restore ⟨.chess, chess.block⟩) digit0Due) (fun t => !t.block.act[0]) = true := by decide

/-- A deadline changed by each of its writers. -/
theorem witness_DecayDeadlineHasOnlyItsWriters :
    nextHas (exec (.wrSel 0xFE) digit0Decaying) (fun t => asserted .chess 0xFE 0 &&
      t.block.decayDl[0] == some 21000000) = true ∧
    nextHas (exec (.wrSel 0xFD) digit0Lit) (fun t => decide (t.block.decayDl[0] ≠ digit0Lit.block.decayDl[0])) = true ∧
    nextHas (exec (.decayFire 0) digit0Due) (fun t => t.block.decayDl[0] == none) = true ∧
    nextHas (exec (.reset true) digit0Due) (fun t => t.block.decayDl[0] == none) = true := by decide

/-- The other elements, each changed by a step named for it, none a reset edge or RESTORE. -/
theorem witness_OtherElementsHaveOnlyTheirWriters :
    nextHas (exec (.wrSel 1) console) (fun t => t.block.sel != 0 && t.block.debDl == some 15000) = true ∧
    nextHas (exec .blinkTick (blinking 0)) (fun t => t.block.bph) = true ∧
    nextHas (exec (.reset false) (with' chess fun b => { b with rst := true })) (fun t => !t.block.rst) = true ∧
    nextHas (exec (.advance 5) chess) (fun t => t.block.now == 5) = true := by decide

/-- Due timers of each kind: for TimerEventsAreEnabledExactlyWhenDue, DecayFireExpiresItsLine, DebounceFireRecomputes and
BlinkTickTogglesAndRecomputes. -/
theorem witness_due_timers :
    digit0Due.block.decayDl[(0 : Line)] = some digit0Due.block.now ∧ isLine .chess 0 = true ∧
    (blinking 0).block.blinkDl = some (blinking 0).block.now ∧
    debounceDue.block.debDl = some debounceDue.block.now ∧ debounceDue.params.variant = .console := by decide

/-- Timers not due, and a deadline an ADVANCE would pass. -/
theorem witness_UndueStimuliHaveNoStep :
    digit0Decaying.block.decayDl[(0 : Line)] ≠ some digit0Decaying.block.now ∧
    console.block.debDl ≠ some console.block.now ∧ chess.block.blinkDl ≠ some chess.block.now ∧
    21000000 ∈ pendingDeadlines .chess digit0Decaying.block ∧ 21000000 < digit0Decaying.block.now + 2 := by decide

/-- A line whose timer is due while it is selected again, the outputs already recomputed. -/
theorem witness_StaleFireOnlyDisarmsItself :
    digit0Reselected.block.decayDl[(0 : Line)] = some digit0Reselected.block.now ∧
    asserted .chess digit0Reselected.block.sel 0 = true ∧
    (recompute digit0Reselected).block = digit0Reselected.block := by decide

/-- A decaying digit, a step of another kind, and its fire. -/
theorem witness_DeselectedDigitBlanksExactlyAtItsDeadline :
    asserted .chess digit0Decaying.block.sel 0 = false ∧ digit0Decaying.block.act[(0 : Line)] = true ∧
    digit0Decaying.block.decayDl[(0 : Line)] = some 21000000 ∧ digit0Decaying.block.now ≤ 21000000 ∧
    nextHas (exec (.wrData 0x5B) digit0Decaying) (fun t => t.block.out[0] == 0x06) = true ∧
    asserted .chess digit0Due.block.sel 0 = false ∧
    digit0Due.block.decayDl[(0 : Line)] = some digit0Due.block.now := by decide

theorem witness_ReselectedDigitSurvivesItsOldTimer :
    asserted .chess 0xFE 0 = true ∧ digit0Decaying.block.act[(0 : Line)] = true ∧
    asserted .chess digit0Reselected.block.sel 0 = true ∧ digit0Reselected.block.act[(0 : Line)] = true ∧
    digit0Reselected.block.decayDl[(0 : Line)] = some digit0Reselected.block.now := by decide

theorem witness_SameTimeDecayFiresCommute :
    (2 : Line) ≠ 5 ∧ isLine .console 2 = true ∧ isLine .console 5 = true ∧
    busyConsole.block.decayDl[(2 : Line)] = some busyConsole.block.now ∧
    busyConsole.block.decayDl[(5 : Line)] = some busyConsole.block.now := by decide

/-- RUN_DUE's events at an instant. -/
theorem test_dueEvents : dueEvents busyConsole = [.decayFire 2, .decayFire 5] ∧
    dueEvents (blinking 0) = [.blinkTick] ∧ dueEvents debounceDue = [.debounceFire] ∧ dueEvents chess = [] := by decide

theorem witness_AdvanceMovesOnlyTheClock :
    ∀ u ∈ pendingDeadlines .chess digit0Decaying.block, digit0Decaying.block.now + 1 ≤ u := by decide

/-- For ResetEdgeBlanksAtOnce and ResetWithoutAnEdgeSetsOnlyTheLevel. -/
theorem witness_reset_levels : chess.block.rst = false ∧
    (with' chess fun b => { b with rst := true }).block.rst = true := by decide

/-- The invariant on a concrete block, from a check of each clause. -/
theorem inv_of_check (v : Variant) (b : Block) (h1 : ∀ i : Line, b.decayDl[i].all (fun t => decide (b.now ≤ t)) = true)
    (h2 : b.debDl.all (fun t => decide (b.now ≤ t)) = true) (h3 : b.blinkDl.all (fun t => decide (b.now ≤ t)) = true)
    (h4 : ∀ i : Line, isLine v i = true → asserted v b.sel i = true → b.act[i] = true)
    (h5 : ∀ i : Line, isLine v i = true → asserted v b.sel i = false → b.act[i] = true → b.decayDl[i] ≠ none)
    (h6 : ∀ i : Digit, b.out[i] ≠ 0 → b.act[i.line] = true)
    (h7 : v = .console → (b.lampLose = true → b.act[4] = true) ∧ (b.lampWin = true → b.act[5] = true))
    (h8 : v = .chess → b.blinkDl ≠ none ∧ b.debDl = none)
    (h9 : v = .console → b.blinkDl = none ∧ b.bph = false) : Inv v b where
  decay_ahead i t _ h := by have k := h1 i; rw [h] at k; simpa using k
  debounce_ahead t h := by rw [h] at h2; simpa using h2
  blink_ahead t h := by rw [h] at h3; simpa using h3
  asserted_active := h4
  active_armed := h5
  lit_active := h6
  lamps_active := h7
  chess_timers := h8
  console_blink := h9

/-- For the statements that assume `Consistent`: the invariant holds of states that are not power-on, in both variants. -/
theorem witness_Consistent : Consistent busyChess ∧ Consistent busyConsole :=
  ⟨inv_of_check .chess _ (by decide) (by decide) (by decide) (by decide) (by decide) (by decide) (by decide) (by decide)
    (by decide),
   inv_of_check .console _ (by decide) (by decide) (by decide) (by decide) (by decide) (by decide) (by decide)
    (by decide) (by decide)⟩

/-- A state reached in one step. -/
theorem witness_Reaches :
    Reaches (exampleParams .chess) (recompute (chess.withBlock { chess.block with seg := 0x06 })) :=
  .next chess _ (.wrData 0x06) .start (fun ⟨_, h⟩ => Instr.noConfusion h) rfl

/-- For StepKeepsTheSnapshotRestorable: blocks with timers, lamps and a pending recompute whose image is taken. -/
theorem witness_StepKeepsTheSnapshotRestorable :
    badSnapshot busyConsole.params (snapshot busyConsole) = false ∧
    badSnapshot busyChess.params (snapshot busyChess) = false ∧
    nextHas (exec (.wrSel 0x02) busyConsole) (fun _ => true) = true ∧
    nextHas (step (offer busyChess (.ofWord 0x3FF))) (fun _ => true) = true := by decide

/-- For RestoreTakesEveryReachableImage, SavedImageRestoresTheSavedBlock and ReachableStatesAreConsistent. -/
theorem witness_RestoreTakesEveryReachableImage : Reaches chess.params chess ∧ Reaches console.params console ∧
    nextHas (exec .save chess) (fun _ => true) = true := ⟨.start, .start, by decide⟩

/-- An image no reachable state could produce, in a machine with a blink period and bijective wirings. -/
theorem witness_RestoreRefusesEveryUnreachableImage :
    0 < chess.params.blinkPeriod ∧ BitPerm.Bijective chess.params.wiring.segPermChess ∧
    BitPerm.Bijective chess.params.wiring.segPermConsole ∧
    ¬ ∃ t, Reaches chess.params t ∧ (⟨.console, console.block⟩ : Image) = ⟨t.params.variant, t.block⟩ := by
  refine ⟨by decide, by decide, by decide, ?_⟩
  rintro ⟨t, hr, h⟩
  rw [reaches_params hr] at h
  exact Variant.noConfusion (congrArg Image.variant h : Variant.console = Variant.chess)

/-- Images of the right variant that break the invariant, or light a decimal point. -/
theorem witness_RestoreRefusesInconsistentImages :
    ¬ Inv .chess { chess.block with sel := 0xFE } ∧
    ¬ DecimalPointDark (with' digit0Lit fun b => { b with out := b.out.set 0 0x80 }).block :=
  ⟨fun h => absurd (h.asserted_active 0 (by decide) (by decide)) (by decide), fun h => absurd (h 0) (by decide)⟩

/-- RUN 5 from power-on: one ADVANCE, nothing due. -/
theorem witness_RunLastsExactlyItsDuration :
    RunsTo 5 chess (chess.withBlock { chess.block with now := 5 }) := by
  refine .turn _ _ _ _ (by decide) rfl (.done _ (by decide)) (.done _ _ (by decide) (.done _ (by decide)))

/-- With a pending deadline, the earliest; and a consistent state with none. -/
theorem witness_TimeCanReachTheNextDeadline :
    30000000 ∈ pendingDeadlines .console busyConsole.block ∧
    (∀ u ∈ pendingDeadlines .console busyConsole.block, 30000000 ≤ u) ∧
    pendingDeadlines .console console.block = [] := by decide

theorem witness_StepKeepsConsistency :
    Consistent (offer busyConsole (.ofWord 0x402)) ∧
    nextHas (step (offer busyConsole (.ofWord 0x402))) (fun _ => true) = true :=
  ⟨witness_Consistent.2, by decide⟩

end Sys2Proof.Tests
end

