-- ==== Sys2Proof/Proofs/ActiveMask.lean ====
section
/-! PROOFS. Who writes ACT (rule R26): what the select store, the expiry of a decay timer and the reset edge do to each
bit, and one inversion lemma that says what any step can do to the mask. -/

namespace Sys2Proof.Machine

open Sys2Proof.Safety

/-- The select store leaves a line active that was, and makes a line active on its rising edge (R122). -/
theorem storeSelect_act (v : Byte) (s : State) (l : Line) :
    (storeSelect v s).block.act[l] = (s.block.act[l] || rising s.params.variant s.block.sel v l) := by
  simp [storeSelect]

@[simp] theorem scheduleDebounce_act (p : Params) (b : Block) : (scheduleDebounce p b).act = b.act := by
  rw [scheduleDebounce_frame]

/-- The reset edge leaves no line active (R271). -/
theorem resetEdge_act (s : State) (l : Line) : (resetEdge s).block.act[l] = false :=
  resetBlock_act s.params s.block l.val l.isLt

/-- WR SEL completes in every state (R77, R120). -/
theorem exec_wrSel_completes (v : Byte) (s : State) : ∃ t, exec (.wrSel v) s = .next t := by
  cases hv : s.params.variant with
  | chess => exact ⟨_, (exec_wrSel_next_chess v s _ hv).2 rfl⟩
  | console => exact ⟨_, (exec_wrSel_next_console v s _ hv).2 rfl⟩

/-- What WR SEL does to an ACT bit, in both variants: neither tail of R122 writes ACT after the select store. -/
theorem exec_wrSel_act {v : Byte} {s t : State} (h : exec (.wrSel v) s = .next t) (l : Line) :
    t.block.act[l] = (s.block.act[l] || rising s.params.variant s.block.sel v l) := by
  rw [← storeSelect_act]
  cases hv : s.params.variant with
  | chess => rw [exec_wrSel_next_chess v s t hv] at h; simp [h]
  | console => rw [exec_wrSel_next_console v s t hv] at h; simp [h]

/-- What DECAY_FIRE does to an ACT bit: the fired line stays active only while it is asserted (R182). -/
theorem exec_decayFire_act {n : Fin 8} {s t : State} (h : exec (.decayFire n) s = .next t) (l : Line) :
    t.block.act[l] =
      if n.val = l.val then s.block.act[l] && asserted s.params.variant s.block.sel l else s.block.act[l] := by
  obtain ⟨m, hmn, -, -, rfl⟩ := (exec_decayFire_next n s t).1 h
  by_cases hml : m = l
  · subst hml; simp [hmn]
  · have hval : m.val ≠ l.val := fun e => hml (Fin.ext e)
    simp [← hmn, hval]

/-- What a step can do to ACT: nothing, or WR SEL's rising edges, DECAY_FIRE's expiry, the reset edge's clearing, or
RESTORE's replacement (R26). -/
theorem exec_act_cases {i : Instr} {s t : State} (h : exec i s = .next t) :
    t.block.act = s.block.act ∨
    (∃ v, i = .wrSel v ∧
      ∀ l : Line, t.block.act[l] = (s.block.act[l] || rising s.params.variant s.block.sel v l)) ∨
    (∃ n, i = .decayFire n ∧ ∀ l : Line, t.block.act[l] =
      if n.val = l.val then s.block.act[l] && asserted s.params.variant s.block.sel l else s.block.act[l]) ∨
    (IsResetEdge s i ∧ ∀ l : Line, t.block.act[l] = false) ∨
    ∃ img, i = .restore img ∧ t.block.act = img.block.act := by
  cases i with
  | wrSel v => exact .inr (.inl ⟨v, rfl, exec_wrSel_act h⟩)
  | decayFire n => exact .inr (.inr (.inl ⟨n, rfl, exec_decayFire_act h⟩))
  | reset v =>
    obtain ⟨hrst, rfl, rfl⟩ | ⟨-, rfl⟩ := (exec_reset_next v s t).1 h
    · exact .inr (.inr (.inr (.inl ⟨⟨rfl, hrst⟩, resetEdge_act _⟩)))
    · exact .inl rfl
  | restore img =>
    obtain ⟨-, rfl⟩ := (exec_restore_next img s t).1 h
    exact .inr (.inr (.inr (.inr ⟨img, rfl, rfl⟩)))
  | rdData => rw [exec_rdData_next] at h; left; simp [h]
  | rdSel => rw [exec_rdSel_next] at h; left; simp [h]
  | wrData v => rw [exec_wrData_next] at h; left; simp [h]
  | blinkTick => obtain ⟨-, -, rfl⟩ := (exec_blinkTick_next s t).1 h; left; simp [toggleBlinkPhase]
  | debounceFire => obtain ⟨-, -, rfl⟩ := (exec_debounceFire_next s t).1 h; left; simp
  | advance d => obtain ⟨-, rfl⟩ := (exec_advance_next d s t).1 h; exact .inl rfl
  | save => rw [exec_save_next] at h; left; simp [h]

/-- An ACT bit goes from 0 to 1 only by a rising edge of its line or by RESTORE. -/
theorem exec_act_set {i : Instr} {s t : State} {l : Line} (h : exec i s = .next t)
    (h0 : s.block.act[l] = false) (h1 : t.block.act[l] = true) :
    (∃ v, i = .wrSel v ∧ rising s.params.variant s.block.sel v l = true) ∨ IsRestore i := by
  rcases exec_act_cases h with hsame | ⟨v, rfl, hact⟩ | ⟨n, -, hact⟩ | ⟨-, hact⟩ | ⟨img, rfl, -⟩
  · rw [hsame, h0] at h1; cases h1
  · rw [hact, h0, Bool.false_or] at h1; exact .inl ⟨v, rfl, h1⟩
  · rw [hact, h0, Bool.false_and, ite_self] at h1; cases h1
  · rw [hact] at h1; cases h1
  · exact .inr ⟨img, rfl⟩

/-- An ACT bit goes from 1 to 0 only by a DECAY_FIRE of its line, not asserted, by the reset edge or by RESTORE. -/
theorem exec_act_clear {i : Instr} {s t : State} {l : Line} (h : exec i s = .next t)
    (h1 : s.block.act[l] = true) (h0 : t.block.act[l] = false) :
    (∃ n, i = .decayFire n ∧ n.val = l.val ∧ asserted s.params.variant s.block.sel l = false) ∨
      IsResetEdge s i ∨ IsRestore i := by
  rcases exec_act_cases h with hsame | ⟨v, -, hact⟩ | ⟨n, rfl, hact⟩ | ⟨hedge, -⟩ | ⟨img, rfl, -⟩
  · rw [hsame, h1] at h0; cases h0
  · rw [hact, h1, Bool.true_or] at h0; cases h0
  · rw [hact, h1, Bool.true_and] at h0
    by_cases hnl : n.val = l.val
    · rw [if_pos hnl] at h0; exact .inl ⟨n, rfl, hnl, h0⟩
    · rw [if_neg hnl] at h0; cases h0
  · exact .inr (.inl hedge)
  · exact .inr (.inr ⟨img, rfl⟩)

/-- Settles O29: each named writer does what it says by its own law, and `exec_act_cases` leaves no other writer. -/
theorem activeMaskHasOnlyItsWriters : Obligations.ActiveMaskHasOnlyItsWriters := by
  refine ⟨?rising, ?fire, ?edge, ?restore, ?set, ?clear⟩
  case rising =>
    intro s v l hl hold hnew
    obtain ⟨t, ht⟩ := exec_wrSel_completes v s
    have hrise := (rising_iff s.params.variant s.block.sel v l).2 ⟨hl, hold, hnew⟩
    exact ⟨t, ht, by rw [exec_wrSel_act ht, hrise, Bool.or_true]⟩
  case fire =>
    intro s n l hln hl hdue hsel
    have hfire := (exec_decayFire_next n s _).2 ⟨l, hln, hl, hdue, rfl⟩
    exact ⟨_, hfire, by rw [exec_decayFire_act hfire, if_pos hln.symm, hsel, Bool.and_false]⟩
  case edge => exact fun s l hrst => ⟨_, execReset_edge s hrst, resetEdge_act _ l⟩
  case restore =>
    intro s t img h
    obtain ⟨-, rfl⟩ := (exec_restore_next img s t).1 h
    rfl
  case set =>
    intro i s t l h h0 h1
    simpa only [rising_iff] using exec_act_set h h0 h1
  case clear => exact fun i s t l => exec_act_clear

end Sys2Proof.Machine
end

section
/-! PROOFS. When a stimulus has a step: every bus access always (rule R77), a timer event exactly when its deadline is
`now`, and ADVANCE exactly when it passes no pending deadline (rule R61). -/

namespace Sys2Proof.Machine

/-! ## Bus accesses -/

/-- A write to either register completes in every state (R77, R120). -/
theorem exec_memWrite_completes (r : Register) (v : Byte) (s : State) :
    ∃ t, exec (memWrite r v) s = .next t := by
  cases r with
  | data => exact ⟨_, (exec_wrData_next v s _).2 rfl⟩
  | sel => exact exec_wrSel_completes v s

/-- A read of either register completes in every state (R77, R120). -/
theorem exec_memRead_completes (r : Register) (s : State) : ∃ t, exec (memRead r) s = .next t := by
  cases r with
  | data => exact ⟨_, (exec_rdData_next s _).2 rfl⟩
  | sel => exact ⟨_, (exec_rdSel_next s _).2 rfl⟩

/-- Settles O13: the write and the read of a register complete, each by its own law. -/
theorem everyBusAccessIsAccepted : Obligations.EveryBusAccessIsAccepted :=
  fun s r v => ⟨exec_memWrite_completes r v s, exec_memRead_completes r s⟩

/-! ## Timer events and ADVANCE -/

/-- DECAY_FIRE of an existing line completes exactly when that line's deadline is `now`: the line index names no other
line. -/
theorem exec_decayFire_completes_iff {s : State} {n : Fin 8} {l : Line} (hln : l.val = n.val)
    (hl : isLine s.params.variant l = true) :
    (∃ t, exec (.decayFire n) s = .next t) ↔ s.block.decayDl[l] = some s.block.now := by
  constructor
  · rintro ⟨t, ht⟩
    obtain ⟨m, hmn, -, hdue, -⟩ := (exec_decayFire_next n s t).1 ht
    obtain rfl : m = l := Fin.ext (hmn.trans hln.symm)
    exact hdue
  · exact fun hdue => ⟨_, (exec_decayFire_next n s _).2 ⟨l, hln, hl, hdue, rfl⟩⟩

/-- In CONSOLE, DEBOUNCE_FIRE completes exactly when DEB_DL is `now`. -/
theorem exec_debounceFire_completes_iff {s : State} (hv : s.params.variant = .console) :
    (∃ t, exec .debounceFire s = .next t) ↔ s.block.debDl = some s.block.now := by
  constructor
  · rintro ⟨t, ht⟩
    obtain ⟨-, hdue, -⟩ := (exec_debounceFire_next s t).1 ht
    exact hdue
  · exact fun hdue => ⟨_, (exec_debounceFire_next s _).2 ⟨hv, hdue, rfl⟩⟩

/-- In CHESS, BLINK_TICK completes exactly when BLINK_DL is `now`. -/
theorem exec_blinkTick_completes_iff {s : State} (hv : s.params.variant = .chess) :
    (∃ t, exec .blinkTick s = .next t) ↔ s.block.blinkDl = some s.block.now := by
  constructor
  · rintro ⟨t, ht⟩
    obtain ⟨-, hdue, -⟩ := (exec_blinkTick_next s t).1 ht
    exact hdue
  · exact fun hdue => ⟨_, (exec_blinkTick_next s _).2 ⟨hv, hdue, rfl⟩⟩

/-- ADVANCE completes exactly when the new time lies past no pending deadline (R230). -/
theorem exec_advance_completes_iff (d : Time) (s : State) :
    (∃ t, exec (.advance d) s = .next t) ↔
      ∀ u ∈ pendingDeadlines s.params.variant s.block, s.block.now + d ≤ u := by
  simp only [exec_advance_next, exists_and_left, exists_eq, and_true]

/-- A time is at most every pending deadline exactly when it is at most each kind of them. -/
theorem le_pendingDeadlines_iff (v : Variant) (b : Block) (e : Time) :
    (∀ u ∈ pendingDeadlines v b, e ≤ u) ↔
      (∀ (l : Line) u, isLine v l = true → b.decayDl[l] = some u → e ≤ u) ∧
      (∀ u, b.debDl = some u → e ≤ u) ∧ (∀ u, b.blinkDl = some u → e ≤ u) := by
  simp only [mem_pendingDeadlines]
  constructor
  · intro h
    exact ⟨fun l u hl hu => h u (.inl ⟨l, hl, hu⟩), fun u hu => h u (.inr (.inl hu)),
      fun u hu => h u (.inr (.inr hu))⟩
  · rintro ⟨hdecay, hdeb, hblink⟩ u (⟨l, hl, hu⟩ | hu | hu)
    · exact hdecay l u hl hu
    · exact hdeb u hu
    · exact hblink u hu

/-- Settles O32: each clause is the law of its form. -/
theorem timerEventsAreEnabledExactlyWhenDue : Obligations.TimerEventsAreEnabledExactlyWhenDue := by
  refine ⟨?decay, ?debounce, ?blink, ?advance⟩
  case decay => exact fun s n l => exec_decayFire_completes_iff
  case debounce => exact fun s => exec_debounceFire_completes_iff
  case blink => exact fun s => exec_blinkTick_completes_iff
  case advance =>
    exact fun s d => (exec_advance_completes_iff d s).trans (le_pendingDeadlines_iff _ _ _)

end Sys2Proof.Machine
end

section
/-! PROOFS. The recompute at the end of a bus write (rules R121, R123): it shows the block as the write has left it,
over the outputs the write has kept, and emits the step's one record. -/

namespace Sys2Proof.Machine

open Sys2Proof.Safety

/-- A recompute of a state `u` that has kept the parameters and outputs of `s` holds what `s` showed and shows the rest
of `u` (R150). -/
theorem recompute_recomputed {s u : State} (hparams : u.params = s.params) (hout : SameOutputs s.block u.block) :
    Recomputed s.params s.block (recompute u).block := by
  rw [recompute_block, hparams]
  exact renderOutputs_recomputed s.params s.block u.block hout

/-- A recompute of a state that has kept the parameters and records of `s` adds one record to those of `s` (R158). -/
theorem recompute_emitsOne {s u : State} (hparams : u.params = s.params) (hrecords : u.records = s.records) :
    EmitsOne s (recompute u) :=
  emitsOne_of_record s _ (by rw [recompute_records, recompute_block, hparams, hrecords])

@[simp] theorem storeSelect_params (v : Byte) (s : State) : (storeSelect v s).params = s.params := rfl
@[simp] theorem storeSelect_records (v : Byte) (s : State) : (storeSelect v s).records = s.records := rfl
@[simp] theorem storeSelect_sel (v : Byte) (s : State) : (storeSelect v s).block.sel = v := rfl

/-- The select store leaves the outputs to the variant's tail (R122). -/
theorem storeSelect_sameOutputs (v : Byte) (s : State) : SameOutputs s.block (storeSelect v s).block :=
  ⟨rfl, rfl, rfl⟩

/-- Settles O15: in CHESS the step is a recompute of the select store, and a recompute writes neither SEL nor ACT. -/
theorem wrSelRecomputesAtOnceInChess : Obligations.WrSelRecomputesAtOnceInChess := by
  intro s v hchess
  have hstep : exec (.wrSel v) s = .next (recompute (storeSelect v s)) :=
    (exec_wrSel_next_chess v s _ hchess).2 rfl
  have hsel : (recompute (storeSelect v s)).block.sel = v := by simp
  exact ⟨_, hstep, hsel,
    recompute_recomputed (storeSelect_params v s) (storeSelect_sameOutputs v s),
    recompute_emitsOne (storeSelect_params v s) (storeSelect_records v s)⟩

end Sys2Proof.Machine
end

section
/-! PROOFS. The display multiplexer (rules R150, R158, R159): what a recompute reads and writes, and one inversion lemma
that says what any step can do to the outputs and to the render sink. -/

namespace Sys2Proof.Machine

open Sys2Proof.Safety

/-! ## What a recompute reads and writes -/

/-- What a selected digit shows depends on SEG, and in CHESS on BPH, alone (R151, R154). -/
theorem shownPattern_congr {p : Params} {b c : Block} (hseg : c.seg = b.seg)
    (hbph : p.variant = .chess → c.bph = b.bph) : shownPattern p c = shownPattern p b := by
  unfold shownPattern
  cases hv : p.variant with
  | chess => simp only [hseg, hbph hv]
  | console => simp only [hseg]

/-- A recomputed digit depends on SEL, ACT, what is shown and the digit held, alone (R151, R154, R157). -/
theorem digitOutput_congr {p : Params} {b c : Block} (hsel : c.sel = b.sel) (hact : c.act = b.act)
    (hout : c.out = b.out) (hshown : shownPattern p c = shownPattern p b) (i : Digit) :
    digitOutput p c i = digitOutput p b i := by
  simp only [digitOutput, hsel, hact, hout, hshown]

/-- The outputs of a recompute depend on SEL, SEG, ACT, in CHESS BPH, and the outputs held (R150). -/
theorem renderOutputs_congr {p : Params} {b c : Block} (hsel : c.sel = b.sel) (hseg : c.seg = b.seg)
    (hact : c.act = b.act) (hbph : p.variant = .chess → c.bph = b.bph) (hout : SameOutputs b c) :
    SameOutputs (renderOutputs p b) (renderOutputs p c) := by
  obtain ⟨hdigits, hlose, hwin⟩ := hout
  have hrendered : (renderOutputs p c).out = (renderOutputs p b).out := by
    ext k hk : 1
    rw [renderOutputs_out_nat, renderOutputs_out_nat]
    exact digitOutput_congr hsel hact hdigits (shownPattern_congr hseg hbph) ⟨k, hk⟩
  cases hv : p.variant with
  | chess =>
    obtain ⟨hloseB, hwinB⟩ := renderOutputs_lamps_chess p b hv
    obtain ⟨hloseC, hwinC⟩ := renderOutputs_lamps_chess p c hv
    exact ⟨hrendered, by rw [hloseC, hloseB, hlose], by rw [hwinC, hwinB, hwin]⟩
  | console =>
    obtain ⟨hloseB, hwinB⟩ := renderOutputs_lamps_console p b hv
    obtain ⟨hloseC, hwinC⟩ := renderOutputs_lamps_console p c hv
    exact ⟨hrendered, by rw [hloseC, hloseB, hact], by rw [hwinC, hwinB, hact]⟩

/-- Settles O24: the frame of `renderOutputs` says what a recompute writes, its congruence what it reads. -/
theorem recomputeWritesOnlyTheOutputs : Obligations.RecomputeWritesOnlyTheOutputs := by
  refine ⟨fun s => ⟨?recomputed, ?record, ?surroundings, ?frame⟩, ?reads⟩
  case recomputed => exact recompute_recomputed rfl ⟨rfl, rfl, rfl⟩
  case record => exact recompute_emitsOne rfl rfl
  case surroundings => exact ⟨rfl, rfl, rfl, rfl, rfl, rfl⟩
  case frame => exact renderOutputs_frame s.params s.block
  case reads =>
    intro s s' hparams hsel hseg hact hbph hout
    rw [recompute_block, recompute_block, hparams]
    exact renderOutputs_congr hsel hseg hact hbph hout

/-! ## Which steps recompute -/

/-- The reset edge does not call `Recompute()` (R159, R271). -/
theorem callsRecompute_of_isResetEdge {s : State} {i : Instr} (h : IsResetEdge s i) (v : Variant) :
    callsRecompute v i = false := by
  obtain ⟨rfl, -⟩ := h
  rfl

theorem not_isResetEdge {s : State} {i : Instr} (h : i ≠ .reset true) : ¬ IsResetEdge s i :=
  fun hedge => h hedge.1

theorem scheduleDebounce_sameOutputs (p : Params) (b : Block) : SameOutputs b (scheduleDebounce p b) := by
  rw [scheduleDebounce_frame]
  exact ⟨rfl, rfl, rfl⟩

/-- The reset edge puts one record into the sink (R271). -/
theorem resetEdge_emitsOne (s : State) (b : Block) : EmitsOne s (resetEdge (s.withBlock b)) :=
  emitsOne_of_record s _ rfl

/-- The step leaves a recompute of a state that still has the parameters, records and outputs of `s` (R159). -/
def RecomputesAtEnd (s t : State) : Prop :=
  ∃ u : State, u.params = s.params ∧ u.records = s.records ∧ SameOutputs s.block u.block ∧ t = recompute u

theorem RecomputesAtEnd.recomputed {s t : State} (h : RecomputesAtEnd s t) : Recomputed s.params s.block t.block := by
  obtain ⟨u, hparams, -, hout, rfl⟩ := h
  exact recompute_recomputed hparams hout

theorem RecomputesAtEnd.emitsOne {s t : State} (h : RecomputesAtEnd s t) : EmitsOne s t := by
  obtain ⟨u, hparams, hrecords, -, rfl⟩ := h
  exact recompute_emitsOne hparams hrecords

/-- A recompute of `s` with another block, of the same outputs, is one at the end of a step from `s`. -/
theorem recomputesAtEnd_withBlock (s : State) {b : Block} (hout : SameOutputs s.block b) :
    RecomputesAtEnd s (recompute (s.withBlock b)) :=
  ⟨s.withBlock b, rfl, rfl, hout, rfl⟩

/-- What a step can do to the outputs and the sink: recompute at its end, run the reset edge, or add no record and, but
for RESTORE, keep the outputs (R159). -/
theorem exec_output_cases {i : Instr} {s t : State} (h : exec i s = .next t) :
    (callsRecompute s.params.variant i = true ∧ RecomputesAtEnd s t) ∨
    (IsResetEdge s i ∧ t = resetEdge (s.withBlock { s.block with rst := true })) ∨
    (callsRecompute s.params.variant i = false ∧ ¬ IsResetEdge s i ∧ t.records = s.records ∧
      (¬ IsRestore i → SameOutputs s.block t.block)) := by
  cases i with
  | wrData v =>
    rw [exec_wrData_next] at h
    exact .inl ⟨rfl, h ▸ recomputesAtEnd_withBlock s ⟨rfl, rfl, rfl⟩⟩
  | wrSel v =>
    cases hv : s.params.variant with
    | chess =>
      rw [exec_wrSel_next_chess v s t hv] at h
      exact .inl ⟨rfl, h ▸ recomputesAtEnd_withBlock s (storeSelect_sameOutputs v s)⟩
    | console =>
      rw [exec_wrSel_next_console v s t hv] at h
      subst h
      exact .inr (.inr ⟨rfl, not_isResetEdge nofun, rfl,
        fun _ => scheduleDebounce_sameOutputs s.params (storeSelect v s).block⟩)
  | decayFire n =>
    obtain ⟨l, -, -, -, rfl⟩ := (exec_decayFire_next n s t).1 h
    exact .inl ⟨rfl, recomputesAtEnd_withBlock s ⟨rfl, rfl, rfl⟩⟩
  | blinkTick =>
    obtain ⟨-, -, rfl⟩ := (exec_blinkTick_next s t).1 h
    exact .inl ⟨rfl, recomputesAtEnd_withBlock s ⟨rfl, rfl, rfl⟩⟩
  | debounceFire =>
    obtain ⟨-, -, rfl⟩ := (exec_debounceFire_next s t).1 h
    exact .inl ⟨rfl, recomputesAtEnd_withBlock s ⟨rfl, rfl, rfl⟩⟩
  | reset v =>
    obtain ⟨hrst, rfl, rfl⟩ | ⟨hlevel, rfl⟩ := (exec_reset_next v s t).1 h
    · exact .inr (.inl ⟨⟨rfl, hrst⟩, rfl⟩)
    · have hedge : ¬ IsResetEdge s (.reset v) := fun ⟨hv, hrst⟩ => hlevel ⟨hrst, Instr.reset.inj hv⟩
      exact .inr (.inr ⟨rfl, hedge, rfl, fun _ => ⟨rfl, rfl, rfl⟩⟩)
  | rdData =>
    rw [exec_rdData_next] at h
    exact .inr (.inr ⟨rfl, not_isResetEdge nofun, by simp [h], fun _ => by simp [h, SameOutputs]⟩)
  | rdSel =>
    rw [exec_rdSel_next] at h
    exact .inr (.inr ⟨rfl, not_isResetEdge nofun, by simp [h], fun _ => by simp [h, SameOutputs]⟩)
  | advance d =>
    obtain ⟨-, rfl⟩ := (exec_advance_next d s t).1 h
    exact .inr (.inr ⟨rfl, not_isResetEdge nofun, rfl, fun _ => ⟨rfl, rfl, rfl⟩⟩)
  | save =>
    rw [exec_save_next] at h
    subst h
    exact .inr (.inr ⟨rfl, not_isResetEdge nofun, rfl, fun _ => ⟨rfl, rfl, rfl⟩⟩)
  | restore img =>
    obtain ⟨-, rfl⟩ := (exec_restore_next img s t).1 h
    exact .inr (.inr ⟨rfl, not_isResetEdge nofun, rfl, fun hr => absurd ⟨img, rfl⟩ hr⟩)

/-- Settles O26: the three cases of `exec_output_cases` exclude each other, and each gives its own clause. -/
theorem recomputeIsCalledByExactlyTheseSteps : Obligations.RecomputeIsCalledByExactlyTheseSteps := by
  intro i s t h
  rcases exec_output_cases h with ⟨hcalls, hend⟩ | ⟨hedge, rfl⟩ | ⟨hcalls, hedge, hrecords, hout⟩
  case inl =>
    have hnot : ¬ callsRecompute s.params.variant i = false := ne_false_of_eq_true hcalls
    exact ⟨fun _ => ⟨hend.recomputed, hend.emitsOne⟩,
      fun hedge => absurd (callsRecompute_of_isResetEdge hedge _) hnot, fun hcalls' => absurd hcalls' hnot⟩
  case inr.inl =>
    have hnot : ¬ callsRecompute s.params.variant i = true :=
      ne_true_of_eq_false (callsRecompute_of_isResetEdge hedge _)
    exact ⟨fun hcalls => absurd hcalls hnot,
      fun _ => ⟨fun d => resetBlock_out _ _ d.val d.isLt, fun _ => ⟨rfl, rfl⟩, resetEdge_emitsOne s _⟩,
      fun _ hedge' => absurd hedge hedge'⟩
  case inr.inr =>
    exact ⟨fun hcalls' => absurd hcalls' (ne_true_of_eq_false hcalls), fun hedge' => absurd hedge' hedge,
      fun _ _ => ⟨hrecords, hout⟩⟩

end Sys2Proof.Machine
end

section
/-! PROOFS. Who writes DECAY_DL (rules R32, R181, R182, R184): what the select store, the expiry of a decay timer and
the reset edge do to each deadline, and one inversion lemma that says what any step can do to the timer bank. -/

namespace Sys2Proof.Machine

open Sys2Proof.Safety

/-- The select store arms the timer of a line on its deselect edge and leaves the others (R181). -/
theorem storeSelect_decayDl (v : Byte) (s : State) (l : Line) :
    (storeSelect v s).block.decayDl[l] =
      if deselect s.params.variant s.block.sel v l = true then some (s.block.now + s.params.decayDelay)
      else s.block.decayDl[l] := by
  simp [storeSelect]

@[simp] theorem scheduleDebounce_decayDl (p : Params) (b : Block) : (scheduleDebounce p b).decayDl = b.decayDl := by
  rw [scheduleDebounce_frame]

/-- The reset edge disarms every line (R271). -/
theorem resetEdge_decayDl (s : State) (l : Line) : (resetEdge s).block.decayDl[l] = none :=
  resetBlock_decayDl s.params s.block l.val l.isLt

/-- What WR SEL does to a deadline, in both variants: neither tail of R122 writes DECAY_DL after the select store. -/
theorem exec_wrSel_decayDl {v : Byte} {s t : State} (h : exec (.wrSel v) s = .next t) (l : Line) :
    t.block.decayDl[l] =
      if deselect s.params.variant s.block.sel v l = true then some (s.block.now + s.params.decayDelay)
      else s.block.decayDl[l] := by
  rw [← storeSelect_decayDl]
  cases hv : s.params.variant with
  | chess => rw [exec_wrSel_next_chess v s t hv] at h; simp [h]
  | console => rw [exec_wrSel_next_console v s t hv] at h; simp [h]

/-- What DECAY_FIRE does to a deadline: it disarms the fired line and no other (R182). -/
theorem exec_decayFire_decayDl {n : Fin 8} {s t : State} (h : exec (.decayFire n) s = .next t) (l : Line) :
    t.block.decayDl[l] = if n.val = l.val then none else s.block.decayDl[l] := by
  obtain ⟨m, hmn, -, -, rfl⟩ := (exec_decayFire_next n s t).1 h
  simp [← hmn]

/-- What a step can do to DECAY_DL: nothing, or WR SEL's deselect edges, DECAY_FIRE's expiry, the reset edge's clearing,
or RESTORE's replacement (R184). -/
theorem exec_decayDl_cases {i : Instr} {s t : State} (h : exec i s = .next t) :
    t.block.decayDl = s.block.decayDl ∨
    (∃ v, i = .wrSel v ∧ ∀ l : Line, t.block.decayDl[l] =
      if deselect s.params.variant s.block.sel v l = true then some (s.block.now + s.params.decayDelay)
      else s.block.decayDl[l]) ∨
    (∃ n, i = .decayFire n ∧ ∀ l : Line, t.block.decayDl[l] = if n.val = l.val then none else s.block.decayDl[l]) ∨
    (IsResetEdge s i ∧ ∀ l : Line, t.block.decayDl[l] = none) ∨
    ∃ img, i = .restore img ∧ t.block.decayDl = img.block.decayDl := by
  cases i with
  | wrSel v => exact .inr (.inl ⟨v, rfl, exec_wrSel_decayDl h⟩)
  | decayFire n => exact .inr (.inr (.inl ⟨n, rfl, exec_decayFire_decayDl h⟩))
  | reset v =>
    obtain ⟨hrst, rfl, rfl⟩ | ⟨-, rfl⟩ := (exec_reset_next v s t).1 h
    · exact .inr (.inr (.inr (.inl ⟨⟨rfl, hrst⟩, resetEdge_decayDl _⟩)))
    · exact .inl rfl
  | restore img =>
    obtain ⟨-, rfl⟩ := (exec_restore_next img s t).1 h
    exact .inr (.inr (.inr (.inr ⟨img, rfl, rfl⟩)))
  | rdData => rw [exec_rdData_next] at h; left; simp [h]
  | rdSel => rw [exec_rdSel_next] at h; left; simp [h]
  | wrData v => rw [exec_wrData_next] at h; left; simp [h]
  | blinkTick => obtain ⟨-, -, rfl⟩ := (exec_blinkTick_next s t).1 h; left; simp [toggleBlinkPhase]
  | debounceFire => obtain ⟨-, -, rfl⟩ := (exec_debounceFire_next s t).1 h; left; simp
  | advance d => obtain ⟨-, rfl⟩ := (exec_advance_next d s t).1 h; exact .inl rfl
  | save => rw [exec_save_next] at h; left; simp [h]

/-- WR SEL leaves the deadline of a line its byte asserts: that line has no deselect edge (R184). -/
theorem exec_wrSel_keeps_decayDl_of_asserted {v : Byte} {s t : State} {l : Line}
    (hnew : asserted s.params.variant v l = true) (h : exec (.wrSel v) s = .next t) :
    t.block.decayDl[l] = s.block.decayDl[l] := by
  have hedge : ¬ deselect s.params.variant s.block.sel v l = true := by simp [deselect_iff, hnew]
  rw [exec_wrSel_decayDl h, if_neg hedge]

/-- A deadline changes only by a DECAY_FIRE of its line, a deselect edge of its line, the reset edge or RESTORE. -/
theorem exec_decayDl_change {i : Instr} {s t : State} {l : Line} (h : exec i s = .next t)
    (hne : t.block.decayDl[l] ≠ s.block.decayDl[l]) :
    (∃ n, i = .decayFire n ∧ n.val = l.val) ∨
    (∃ v, i = .wrSel v ∧ deselect s.params.variant s.block.sel v l = true) ∨ IsResetEdge s i ∨ IsRestore i := by
  rcases exec_decayDl_cases h with hsame | ⟨v, rfl, hdl⟩ | ⟨n, rfl, hdl⟩ | ⟨hedge, -⟩ | ⟨img, rfl, -⟩
  · exact absurd (by rw [hsame]) hne
  · exact .inr (.inl ⟨v, rfl, by_contra fun hno => hne (by rw [hdl, if_neg hno])⟩)
  · exact .inl ⟨n, rfl, by_contra fun hno => hne (by rw [hdl, if_neg hno])⟩
  · exact .inr (.inr (.inl hedge))
  · exact .inr (.inr (.inr ⟨img, rfl⟩))

/-- Settles O30: an asserted line has no deselect edge, and `exec_decayDl_cases` leaves no other writer. -/
theorem decayDeadlineHasOnlyItsWriters : Obligations.DecayDeadlineHasOnlyItsWriters := by
  refine ⟨?asserted, ?change⟩
  case asserted => exact fun s t v l => exec_wrSel_keeps_decayDl_of_asserted
  case change =>
    intro i s t l h hne
    obtain hfire | ⟨v, hi, hedge⟩ | hreset := exec_decayDl_change h hne
    · exact .inl hfire
    · obtain ⟨-, hold, hnew⟩ := (deselect_iff _ _ _ _).1 hedge
      exact .inr (.inl ⟨v, hi, hold, hnew⟩)
    · exact .inr (.inr hreset)

end Sys2Proof.Machine
end

section
/-! PROOFS. What RD DATA answers in CHESS (rules R125, R213): the scan of the polled keypad lines, whose high nibble is
the columns pressed on the lines SEG selects. -/

namespace Sys2Proof.Machine

/-- In CHESS the byte read is the scan of the polled lines (R125). -/
theorem scan_chess {p : Params} (hv : p.variant = .chess) (seg : Byte) (k : KeypadAnswer) :
    scan p seg k = chessScan seg k.lines := by
  simp [scan, hv]

/-- RD DATA completes in CHESS, and the read it adds is the scan of the polled lines. -/
theorem exec_rdData_chess_reads {s : State} (hv : s.params.variant = .chess) :
    ∃ t, exec .rdData s = .next t ∧
      t.reads = s.reads ++ [chessScan s.block.seg (pollKeypad s).1.lines] :=
  ⟨_, (exec_rdData_next s _).2 rfl, by rw [answer_reads, pollKeypad_reads, scan_chess hv]⟩

/-- Settles O19: the byte read is the scan, and its bit `4 + j` is bit `j` of the columns of the selected lines. -/
theorem chessReadHighNibbleIsTheColumnsOfSelectedLines :
    Obligations.ChessReadHighNibbleIsTheColumnsOfSelectedLines := by
  intro s hv
  obtain ⟨t, hexec, hreads⟩ := exec_rdData_chess_reads hv
  refine ⟨t, _, hexec, hreads, fun j => ?_⟩
  rw [chessScan_high]
  exact columnHits_getLsbD _ _ j

end Sys2Proof.Machine
end

section
/-! PROOFS. The stimulus encoding (30_encoding.md, rules R90 to R103): a row of the opcode table fixes the leading bits of
a word, so every fact about words is one about their quotients by powers of two. -/

namespace Sys2Proof

open Machine Safety

/-! ## The decoder and the encoder, form by form -/

/-- A stimulus decodes to the operands of its word's row, where that form exists in the variant (R94, R103). -/
theorem decode_eq_some_iff (v : Variant) (st : Stimulus) (i : Instr) :
    decode v st = some i ↔ ∃ f, formOf st.word = some f ∧ operands st f = i ∧ i.WellFormed v := by
  simp only [decode, Option.filter_eq_some_iff, Option.map_eq_some_iff]
  constructor
  · rintro ⟨⟨f, hf, hi⟩, hw⟩; exact ⟨f, hf, hi, hw⟩
  · rintro ⟨f, hf, hi, hw⟩; exact ⟨⟨f, hf, hi⟩, hw⟩

/-- A stimulus is refused if its word is in no row, or in the row of a form absent from the variant (R94). -/
theorem decode_eq_none_iff (v : Variant) (st : Stimulus) :
    decode v st = none ↔ ∀ f, formOf st.word = some f → (operands st f).wellFormed v = false := by
  simp only [Option.eq_none_iff_forall_ne_some, ne_eq, decode_eq_some_iff, not_exists, not_and, Bool.not_eq_true]
  exact ⟨fun h f hf => h _ f hf rfl, fun h i f hf hi => hi ▸ h f hf⟩

/-- The encoded word lies in the instruction's own row (R103). -/
theorem formOf_encode (i : Instr) : formOf (encode i).word = some i.form := by
  cases i with
  | rdData => exact Laws.HitsItsRow.rdData
  | rdSel => exact Laws.HitsItsRow.rdSel
  | wrData v => exact Laws.HitsItsRow.wrData v
  | wrSel v => exact Laws.HitsItsRow.wrSel v
  | decayFire n => exact Laws.HitsItsRow.decayFire n
  | blinkTick => exact Laws.HitsItsRow.blinkTick
  | debounceFire => exact Laws.HitsItsRow.debounceFire
  | reset v => exact Laws.HitsItsRow.reset v
  | advance d => exact Laws.HitsItsRow.advance d
  | save => exact Laws.HitsItsRow.save
  | restore img => exact Laws.HitsItsRow.restore img

/-- A word in the row of a write keeps the byte in its low bits (R91). -/
theorem byteField_or (x : Byte) (w : BitVec 12) (hw : byteField w = 0#8) : byteField (w ||| x.setWidth 12) = x := by
  have hx : (x.setWidth 12).extractLsb' 0 8 = x := by
    rw [← BitVec.setWidth_eq_extractLsb' (by decide), BitVec.setWidth_setWidth_of_le x (by decide), BitVec.setWidth_eq]
  unfold byteField at hw ⊢
  rw [BitVec.extractLsb'_or, hw, hx, BitVec.zero_or]

theorem lineField_encode (n : Fin 8) : lineField (0x400 ||| BitVec.ofNat 12 n.val) = n := by
  revert n; decide

theorem levelField_encode (v : Bool) : levelField (0x800 ||| (BitVec.ofBool v).setWidth 12) = v := by
  revert v; decide

/-- The operands of the encoded stimulus are the instruction's own (R102). -/
theorem operands_encode (i : Instr) : operands (encode i) i.form = i := by
  cases i with
  | wrData v => exact congrArg Instr.wrData (byteField_or v 0x200 rfl)
  | wrSel v => exact congrArg Instr.wrSel (byteField_or v 0x300 rfl)
  | decayFire n => exact congrArg Instr.decayFire (lineField_encode n)
  | reset v => exact congrArg Instr.reset (levelField_encode v)
  | rdData | rdSel | blinkTick | debounceFire | advance d | save | restore img => rfl

/-- Settles O1: the word lies in the instruction's row, and that row's operands are the instruction's. -/
theorem decodeOfEncodeIsIdentity : Obligations.DecodeOfEncodeIsIdentity :=
  fun v i hw => (decode_eq_some_iff v (encode i) i).2 ⟨i.form, formOf_encode i, operands_encode i, hw⟩

/-! ## Rows as quotients -/

/-- How many low bits of a word the row leaves free (R90). -/
def Form.freeBits : Form → Nat
  | .rdData | .rdSel | .wrData | .wrSel => 8
  | .decayFire => 3
  | .reset => 1
  | .blinkTick | .debounceFire | .advance | .save | .restore => 0

/-- What stands before the free bits (R90). -/
def Form.lead : Form → Nat
  | .rdData => 0
  | .rdSel => 1
  | .wrData => 2
  | .wrSel => 3
  | .decayFire => 0x80
  | .blinkTick => 0x500
  | .debounceFire => 0x600
  | .reset => 0x400
  | .advance => 0x900
  | .save => 0xA00
  | .restore => 0xB00

/-- The row of the words with that lead. -/
def Form.row (f : Form) : OpcodeRow :=
  ⟨f, BitVec.ofNat 12 (f.lead * 2 ^ f.freeBits), BitVec.allOnes 12 <<< f.freeBits⟩

theorem Form.row_mem (f : Form) : f.row ∈ opcodeTable := by cases f <;> decide

theorem row_form_of_mem : ∀ r ∈ opcodeTable, r.form.row = r := by decide

/-- Masking the low `s` bits away leaves the quotient by `2 ^ s`. -/
theorem toNat_and_allOnes_shiftLeft (w : BitVec 12) (s : Nat) :
    (w &&& BitVec.allOnes 12 <<< s).toNat = w.toNat / 2 ^ s * 2 ^ s := by
  have hshift : w &&& BitVec.allOnes 12 <<< s = (w >>> s) <<< s := by
    refine BitVec.eq_of_getLsbD_eq fun k hk => ?_
    by_cases hks : k < s
    · simp only [BitVec.getLsbD_and, BitVec.getLsbD_shiftLeft, hks, decide_true, Bool.not_true, Bool.and_false,
        Bool.false_and]
    · have hle : k - s < 12 := by omega
      simp only [BitVec.getLsbD_and, BitVec.getLsbD_shiftLeft, BitVec.getLsbD_ushiftRight, BitVec.getLsbD_allOnes, hk,
        hks, hle, Nat.add_sub_cancel' (Nat.le_of_not_lt hks), decide_true, decide_false, Bool.not_false, Bool.and_true,
        Bool.true_and]
  rw [hshift, BitVec.toNat_shiftLeft, BitVec.toNat_ushiftRight, Nat.shiftLeft_eq, Nat.shiftRight_eq_div_pow]
  exact Nat.mod_eq_of_lt (Nat.lt_of_le_of_lt (Nat.div_mul_le_self _ _) w.isLt)

/-- A row matches the words with its lead (R103). -/
theorem Form.row_hits_iff (f : Form) (w : BitVec 12) : f.row.hits w = true ↔ w.toNat / 2 ^ f.freeBits = f.lead := by
  have hlt : f.lead * 2 ^ f.freeBits < 2 ^ 12 := by cases f <;> decide
  rw [OpcodeRow.hits, Form.row, beq_iff_eq, ← BitVec.toNat_inj, toNat_and_allOnes_shiftLeft, BitVec.toNat_ofNat,
    Nat.mod_eq_of_lt hlt]
  exact Nat.mul_left_inj (Nat.two_pow_pos _).ne'

/-- No word hits two rows (R103). -/
theorem opcodeRow_unique {r q : OpcodeRow} (hr : r ∈ opcodeTable) (hq : q ∈ opcodeTable) {w : BitVec 12}
    (hrw : r.hits w = true) (hqw : q.hits w = true) : r = q := by
  by_contra hne
  have hsymm : Std.Symm fun r q : OpcodeRow => r.pattern &&& q.mask ≠ q.pattern &&& r.mask := ⟨fun _ _ h => h.symm⟩
  refine Laws.opcodeTable_disjoint.forall hr hq hne ?_
  rw [OpcodeRow.hits, beq_iff_eq] at hrw hqw
  rw [← hrw, ← hqw, BitVec.and_assoc, BitVec.and_assoc, BitVec.and_comm r.mask]

/-- A word is of the form whose lead it has (R103). -/
theorem formOf_eq_some_iff (w : BitVec 12) (f : Form) :
    formOf w = some f ↔ w.toNat / 2 ^ f.freeBits = f.lead := by
  rw [← f.row_hits_iff, formOf, Option.map_eq_some_iff]
  constructor
  · rintro ⟨r, hfind, rfl⟩
    rw [row_form_of_mem r (List.mem_of_find?_eq_some hfind)]
    simpa using List.find?_some hfind
  · intro hf
    have hsome : (opcodeTable.find? (·.hits w)).isSome = true := List.find?_isSome.2 ⟨f.row, f.row_mem, hf⟩
    obtain ⟨r, hr⟩ := Option.isSome_iff_exists.1 hsome
    have hits : r.hits w = true := by simpa using List.find?_some hr
    have hrow := opcodeRow_unique (List.mem_of_find?_eq_some hr) f.row_mem hits hf
    exact ⟨r, hr, congrArg OpcodeRow.form hrow⟩

/-- Words of one form with the same free bits are the same. -/
theorem word_eq_of_form {f : Form} {w x : BitVec 12} (hw : formOf w = some f) (hx : formOf x = some f)
    (hfree : w.toNat % 2 ^ f.freeBits = x.toNat % 2 ^ f.freeBits) : w = x := by
  rw [formOf_eq_some_iff] at hw hx
  rw [← BitVec.toNat_inj, ← Nat.div_add_mod w.toNat (2 ^ f.freeBits), hw, hfree, ← hx, Nat.div_add_mod]

/-! ## Encoding what was decoded -/

theorem byteField_toNat (w : BitVec 12) : (byteField w).toNat = w.toNat % 256 := by
  rw [byteField, BitVec.extractLsb'_toNat, Nat.shiftRight_zero]

theorem lineField_val (w : BitVec 12) : (lineField w).val = w.toNat % 8 := by
  rw [lineField, BitVec.val_toFin, BitVec.extractLsb'_toNat, Nat.shiftRight_zero]

theorem levelField_eq (w : BitVec 12) : levelField w = decide (w.toNat % 2 = 1) :=
  Nat.testBit_zero w.toNat

/-- The operands of every form but the reads hold all its free bits (R91, R92, R93). -/
theorem freeBits_of_operands {st st' : Stimulus} {f : Form} (hdata : f ≠ .rdData) (hsel : f ≠ .rdSel)
    (h : operands st f = operands st' f) : st.word.toNat % 2 ^ f.freeBits = st'.word.toNat % 2 ^ f.freeBits := by
  cases f with
  | rdData => exact absurd rfl hdata
  | rdSel => exact absurd rfl hsel
  | wrData =>
    have hbyte := congrArg BitVec.toNat (Instr.wrData.inj h)
    rwa [byteField_toNat, byteField_toNat] at hbyte
  | wrSel =>
    have hbyte := congrArg BitVec.toNat (Instr.wrSel.inj h)
    rwa [byteField_toNat, byteField_toNat] at hbyte
  | decayFire =>
    have hline := congrArg Fin.val (Instr.decayFire.inj h)
    rwa [lineField_val, lineField_val] at hline
  | reset =>
    have hlevel := Instr.reset.inj h
    rw [levelField_eq, levelField_eq, decide_eq_decide] at hlevel
    show st.word.toNat % 2 = st'.word.toNat % 2
    omega
  | blinkTick | debounceFire | advance | save | restore => simp only [Form.freeBits, Nat.pow_zero, Nat.mod_one]

theorem operands_form (st : Stimulus) (f : Form) : (operands st f).form = f := by cases f <;> rfl

/-- Encoding the operands of a word that is no read gives the word back. -/
theorem encode_operands_word {st : Stimulus} {f : Form} (hf : formOf st.word = some f) (hdata : f ≠ .rdData)
    (hsel : f ≠ .rdSel) : (encode (operands st f)).word = st.word := by
  have hform := formOf_encode (operands st f)
  have hoperands := operands_encode (operands st f)
  rw [operands_form] at hform hoperands
  exact word_eq_of_form hform hf (freeBits_of_operands hdata hsel hoperands)

/-- A word is a bus read exactly if its class is 00 and its W bit 0 (R90). -/
theorem isRead_iff {w : BitVec 12} {f : Form} (hf : formOf w = some f) :
    w.extractLsb' 9 3 = 0 ↔ f = .rdData ∨ f = .rdSel := by
  have hclass : w.extractLsb' 9 3 = 0 ↔ w.toNat / 512 % 8 = 0 := by
    rw [← BitVec.toNat_inj, BitVec.extractLsb'_toNat, Nat.shiftRight_eq_div_pow]; rfl
  have hlt := w.isLt
  rw [formOf_eq_some_iff] at hf
  rw [hclass]
  cases f <;> simp only [Form.freeBits, Form.lead] at hf <;>
    simp only [reduceCtorEq, or_self, or_true, true_or, iff_true, iff_false] <;> omega

/-- Settles O2: a read loses its don't-care bits, every other form has all of its word in its operands. -/
theorem encodeOfDecodeGivesTheWordBack : Obligations.EncodeOfDecodeGivesTheWordBack := by
  intro v st i h
  obtain ⟨f, hf, rfl, -⟩ := (decode_eq_some_iff v st i).1 h
  refine ⟨?word, ?duration, ?image⟩
  case word =>
    by_cases hread : f = .rdData ∨ f = .rdSel
    · rw [if_pos ((isRead_iff hf).2 hread), ← BitVec.toNat_inj]
      have hmask : (st.word &&& 0xF00).toNat = st.word.toNat / 2 ^ 8 * 2 ^ 8 := toNat_and_allOnes_shiftLeft st.word 8
      have hlead := (formOf_eq_some_iff st.word f).1 hf
      rcases hread with rfl | rfl <;> exact hmask.symm ▸ congrArg (· * 2 ^ 8) hlead.symm
    · obtain ⟨hdata, hsel⟩ := not_or.1 hread
      rw [if_neg fun hclass => hread ((isRead_iff hf).1 hclass), encode_operands_word hf hdata hsel]
  case duration => intro d hd; cases f <;> cases hd; rfl
  case image => intro img himg; cases f <;> cases himg; rfl

/-! ## The reserved words -/

/-- The reserved words of R94, as numbers. -/
theorem reservedWord_iff (v : Variant) (w : BitVec 12) :
    ReservedWord v w ↔
      w.toNat / 1024 = 3 ∨
      (w.toNat / 1024 = 1 ∧
        (w.toNat / 256 % 4 = 3 ∨ w.toNat / 8 % 32 ≠ 0 ∨ (w.toNat / 256 % 4 ≠ 0 ∧ w.toNat % 8 ≠ 0) ∨
          (w.toNat / 256 % 4 = 0 ∧ numLines v ≤ w.toNat % 8) ∨ (w.toNat / 256 % 4 = 1 ∧ v = .console) ∨
          (w.toNat / 256 % 4 = 2 ∧ v = .chess))) ∨
      (w.toNat / 1024 = 2 ∧ (w.toNat / 2 % 128 ≠ 0 ∨ (w.toNat / 256 % 4 ≠ 0 ∧ w.toNat % 2 = 1))) := by
  have hlt : w.toNat / 1024 < 4 := by have := w.isLt; omega
  have hbit : w.getLsbD 0 = true ↔ w.toNat % 2 = 1 := by rw [BitVec.getLsbD, Nat.testBit_zero, decide_eq_true_eq]
  simp only [ReservedWord, ne_eq, ← BitVec.toNat_inj, BitVec.extractLsb'_toNat, Nat.shiftRight_eq_div_pow, hbit,
    Nat.reducePow, Nat.div_one, Nat.mod_eq_of_lt hlt, BitVec.reduceToNat]

theorem forall_form {P : Form → Prop} :
    (∀ f, P f) ↔ P .rdData ∧ P .rdSel ∧ P .wrData ∧ P .wrSel ∧ P .decayFire ∧ P .blinkTick ∧ P .debounceFire ∧
      P .reset ∧ P .advance ∧ P .save ∧ P .restore := by
  constructor
  · exact fun h => ⟨h _, h _, h _, h _, h _, h _, h _, h _, h _, h _, h _⟩
  · rintro ⟨h0, h1, h2, h3, h4, h5, h6, h8, h9, hA, hB⟩ f
    cases f <;> assumption

/-- The decoder refuses exactly the reserved words (R94): for each value of the leading four bits, a condition on the low
byte. -/
theorem decode_eq_none_iff_reserved (v : Variant) (st : Stimulus) :
    decode v st = none ↔ ReservedWord v st.word := by
  simp only [decode_eq_none_iff, formOf_eq_some_iff, reservedWord_iff, forall_form, Form.freeBits, Form.lead, operands,
    Instr.wellFormed, lineField_val, decide_eq_false_iff_not, Nat.pow_zero, Nat.div_one, Nat.reducePow]
  have hlt := st.word.isLt
  generalize st.word.toNat = n at hlt ⊢
  obtain ⟨k, l, rfl, hl⟩ : ∃ k l, n = 256 * k + l ∧ l < 256 := ⟨n / 256, n % 256, by omega, by omega⟩
  have hk : k < 16 := by omega
  have h256 : (256 * k + l) / 256 = k := by omega
  have h1024 : (256 * k + l) / 1024 = k / 4 := by omega
  have h8 : (256 * k + l) / 8 = 32 * k + l / 8 := by omega
  have h2 : (256 * k + l) / 2 = 128 * k + l / 2 := by omega
  have hline : (256 * k + l) % 8 = l % 8 := by omega
  have hlevel : (256 * k + l) % 2 = l % 2 := by omega
  simp only [h256, h1024, h8, h2, hline, hlevel]
  clear h256 h1024 h8 h2 hline hlevel hlt
  cases v <;> interval_cases k <;> simp [numLines] <;> omega

/-- Settles O3: the numbers of the reserved words are those with the lead of no form of the variant. -/
theorem reservedWordsAreRefused : Obligations.ReservedWordsAreRefused := by
  refine ⟨decode_eq_none_iff_reserved, fun s st rest hst hres => ?_⟩
  have hnone := (decode_eq_none_iff_reserved s.params.variant st).2 hres
  simp only [step, takeStimulus_cons s st rest hst, hnone]

/-! ## Words of the spec -/

/-- Settles O4: each word is decoded by evaluation. -/
theorem sampleWordsDecode : Obligations.SampleWordsDecode := by
  unfold Obligations.SampleWordsDecode; decide

/-- A byte set in the low bits of a word leaves the lead of a read or write (R90). -/
theorem toNat_or_byte (w : BitVec 12) (x : Byte) : (w ||| x.setWidth 12).toNat / 2 ^ 8 = w.toNat / 2 ^ 8 := by
  have hx : x.toNat / 2 ^ 8 = 0 := Nat.div_eq_of_lt x.isLt
  rw [BitVec.toNat_or, BitVec.toNat_setWidth_of_le (by decide), Nat.or_div_two_pow, hx, Nat.or_zero]

/-- Settles O5: the data bits lie below the lead of the read's row. -/
theorem readDataBitsAreIgnored : Obligations.ReadDataBitsAreIgnored := by
  intro v x d img
  have hdata : formOf (0x000 ||| x.setWidth 12) = some .rdData := (formOf_eq_some_iff _ _).2 (toNat_or_byte 0x000 x)
  have hsel : formOf (0x100 ||| x.setWidth 12) = some .rdSel := (formOf_eq_some_iff _ _).2 (toNat_or_byte 0x100 x)
  exact ⟨(decode_eq_some_iff v _ _).2 ⟨_, hdata, rfl, rfl⟩, (decode_eq_some_iff v _ _).2 ⟨_, hsel, rfl, rfl⟩⟩

end Sys2Proof
end

section
/-! PROOFS. What a step is and where there is none (rules R60, R94, R230, R231, R232, R242), and what no step depends on
or changes (rules R37, R38). -/

namespace Sys2Proof.Machine

open Sys2Proof.Safety

/-! ## The step -/

/-- Settles O6: the first stimulus is taken, and its decoding executed. -/
theorem stepRunsTheOfferedStimulus : Obligations.StepRunsTheOfferedStimulus := by
  intro s st rest i hst hdec
  simp only [step, takeStimulus_cons s st rest hst, hdec]

/-- A step that answers a next state has executed some form on the machine without its first stimulus (R60). -/
theorem step_next_exec {s t : State} (h : step s = .next t) :
    ∃ st rest i, s.stimuli = st :: rest ∧ decode s.params.variant st = some i ∧
      exec i { s with stimuli := rest } = .next t := by
  cases hst : s.stimuli with
  | nil => simp [step, takeStimulus_nil s hst] at h
  | cons st rest =>
    cases hdec : decode s.params.variant st with
    | none => simp [step, takeStimulus_cons s st rest hst, hdec] at h
    | some i => exact ⟨st, rest, i, rfl, hdec, (stepRunsTheOfferedStimulus s st rest i hst hdec).symm.trans h⟩

/-- Settles O11: a step executes a form, and no form changes the parameters. -/
theorem stepsNeverChangeTheParameters : Obligations.StepsNeverChangeTheParameters := by
  intro s t h
  obtain ⟨st, rest, i, -, -, hexec⟩ := step_next_exec h
  exact exec_params i { s with stimuli := rest } t hexec

/-! ## Stops -/

/-- Settles O7: the three forms that can be absent look at the variant first. -/
theorem absentFormsAreRefused : Obligations.AbsentFormsAreRefused := by
  intro s i hi
  cases i with
  | decayFire n =>
    have hnone : lineOf s.params.variant n = none :=
      (lineOf_none _ n).2 (Nat.le_of_not_lt fun hlt => hi (decide_eq_true hlt))
    simp only [exec, execDecayFire, hnone]
  | blinkTick =>
    cases hv : s.params.variant with
    | chess => exact absurd (decide_eq_true hv) hi
    | console => simp only [exec, execBlinkTick, hv]
  | debounceFire =>
    cases hv : s.params.variant with
    | chess => simp only [exec, execDebounceFire, hv]
    | console => exact absurd (decide_eq_true hv) hi
  | rdData | rdSel | wrData v | wrSel v | reset v | advance d | save | restore img => exact absurd rfl hi

/-- Settles O33: `whenDue` faults unless due, ADVANCE where some deadline lies before the new time. -/
theorem undueStimuliHaveNoStep : Obligations.UndueStimuliHaveNoStep := by
  refine ⟨?decay, ?debounce, ?blink, ?advance⟩
  case decay =>
    intro s n l hln hl hdl
    simp only [exec, execDecayFire, (lineOf_some _ n l).2 ⟨hln, hl⟩]
    exact whenDue_not_due _ _ _ hdl
  case debounce =>
    intro s hv hdl
    simp only [exec, execDebounceFire, hv]
    exact whenDue_not_due _ _ _ hdl
  case blink =>
    intro s hv hdl
    simp only [exec, execBlinkTick, hv]
    exact whenDue_not_due _ _ _ hdl
  case advance =>
    intro s d u hu hlt
    exact if_pos (List.any_eq_true.2 ⟨u, hu, decide_eq_true hlt⟩)

/-! ## The host forms -/

/-- Settles O43: the law of ADVANCE. -/
theorem advanceMovesOnlyTheClock : Obligations.AdvanceMovesOnlyTheClock :=
  fun s d hd => (exec_advance_next d s _).2 ⟨hd, rfl⟩

/-- Settles O45: without an edge RESET only samples the level. -/
theorem resetWithoutAnEdgeSetsOnlyTheLevel : Obligations.ResetWithoutAnEdgeSetsOnlyTheLevel := by
  intro s v hv
  refine execReset_level v s ?_
  rintro ⟨hrst, hv'⟩
  rw [hrst, hv'] at hv
  exact hv.elim nofun nofun

/-- Settles O46: the law of SAVE. -/
theorem saveHandsOutTheWholeState : Obligations.SaveHandsOutTheWholeState :=
  fun s => (exec_save_next s _).2 rfl

/-! ## Noninterference -/

/-- Settles O12: the condition and the block of every form's law are functions of the parameters and the block. -/
theorem surroundingsNeverInfluenceTheBlock : Obligations.SurroundingsNeverInfluenceTheBlock := by
  intro i s s' t hp hb h
  cases i with
  | rdData =>
    rw [exec_rdData_next] at h
    exact ⟨_, (exec_rdData_next s' _).2 rfl, by simp [h, hb]⟩
  | rdSel =>
    rw [exec_rdSel_next] at h
    exact ⟨_, (exec_rdSel_next s' _).2 rfl, by simp [h, hb]⟩
  | wrData v =>
    rw [exec_wrData_next] at h
    exact ⟨_, (exec_wrData_next v s' _).2 rfl, by simp [h, hb, hp]⟩
  | wrSel v =>
    have hstored : (storeSelect v s').block = (storeSelect v s).block := by simp only [storeSelect, withBlock_block, hp, hb]
    cases hv : s.params.variant with
    | chess =>
      rw [exec_wrSel_next_chess v s t hv] at h
      exact ⟨_, (exec_wrSel_next_chess v s' _ (hp ▸ hv)).2 rfl, by simp only [h, recompute_block, hstored]; simp [hp]⟩
    | console =>
      rw [exec_wrSel_next_console v s t hv] at h
      exact ⟨_, (exec_wrSel_next_console v s' _ (hp ▸ hv)).2 rfl, by simp only [h, withBlock_block, hstored, hp]⟩
  | decayFire n =>
    obtain ⟨l, hln, hl, hdue, rfl⟩ := (exec_decayFire_next n s t).1 h
    exact ⟨_, (exec_decayFire_next n s' _).2 ⟨l, hln, hp ▸ hl, hb ▸ hdue, rfl⟩, by simp [hb, hp]⟩
  | blinkTick =>
    obtain ⟨hv, hdue, rfl⟩ := (exec_blinkTick_next s t).1 h
    exact ⟨_, (exec_blinkTick_next s' _).2 ⟨hp ▸ hv, hb ▸ hdue, rfl⟩, by simp [hb, hp]⟩
  | debounceFire =>
    obtain ⟨hv, hdue, rfl⟩ := (exec_debounceFire_next s t).1 h
    exact ⟨_, (exec_debounceFire_next s' _).2 ⟨hp ▸ hv, hb ▸ hdue, rfl⟩, by simp [hb, hp]⟩
  | reset v =>
    obtain ⟨hrst, rfl, rfl⟩ | ⟨hlevel, rfl⟩ := (exec_reset_next v s t).1 h
    · exact ⟨_, (exec_reset_next true s' _).2 (.inl ⟨hb ▸ hrst, rfl, rfl⟩), by simp [resetEdge, hb, hp]⟩
    · exact ⟨_, (exec_reset_next v s' _).2 (.inr ⟨hb ▸ hlevel, rfl⟩), by simp [hb]⟩
  | advance d =>
    obtain ⟨hd, rfl⟩ := (exec_advance_next d s t).1 h
    exact ⟨_, (exec_advance_next d s' _).2 ⟨by rw [hp, hb]; exact hd, rfl⟩, by simp [hb]⟩
  | save =>
    rw [exec_save_next] at h
    exact ⟨_, (exec_save_next s' _).2 rfl, by simp [h, hb]⟩
  | restore img =>
    obtain ⟨hgood, rfl⟩ := (exec_restore_next img s t).1 h
    exact ⟨_, (exec_restore_next img s' _).2 ⟨hp ▸ hgood, rfl⟩, rfl⟩

end Sys2Proof.Machine
end

section
/-! PROOFS. The values of rules R8, R14 and R40: power-on, the parameters the spec gives, polarity and wiring. -/

namespace Sys2Proof.Machine

/-- When the oscillator first ticks, by variant (R40, R202, R273). -/
theorem blinkStart_eq (p : Params) (t : Time) :
    blinkStart p t = if p.variant = .chess then some (t + p.blinkPeriod) else none := by
  unfold blinkStart
  cases p.variant <;> rfl

theorem selReset_eq (v : Variant) : selReset v = if v = .chess then 0xFF else 0x00 := by
  cases v <;> rfl

/-- Settles O8: the places of R40's table are literals, but for the select byte and the first tick. -/
theorem powerOnValues : Obligations.PowerOnValues := by
  refine ⟨fun p => ?_, rfl⟩
  have hblink : blinkStart p 0 = if p.variant = .chess then some p.blinkPeriod else none := by
    rw [blinkStart_eq, Nat.zero_add]
  exact ⟨selReset_eq p.variant, rfl, fun i => powerOn_act p i.val i.isLt, rfl, fun i => powerOn_out p i.val i.isLt, rfl, rfl,
    fun i => powerOn_decayDl p i.val i.isLt, rfl, hblink, rfl, rfl, asserted_selReset p.variant, rfl⟩

/-- The OPEN parameters of the machine at reset are admitted: the stand-in is (R8, R14, R215). -/
theorem openParams_admitted : Config.openParams.Admitted := by
  unfold Config.openParams
  split
  · assumption
  · decide

/-- Settles O9: the numbers are literals; the OPEN parameters are admitted by their definition. -/
theorem parametersHaveTheSpecsValues : Obligations.ParametersHaveTheSpecsValues :=
  ⟨⟨rfl, rfl, rfl, rfl, rfl⟩, ⟨rfl, rfl, rfl, rfl, rfl, rfl⟩, fun _ => openParams_admitted⟩

/-- Settles O10: the law of `asserted` in each variant, and that of `permute`. -/
theorem selectPolarityAndWiring : Obligations.SelectPolarityAndWiring := by
  refine ⟨fun s i => ⟨?_, ?_⟩, permute_getLsbD⟩
  · rw [asserted_chess, Bool.not_eq_true']
  · rw [asserted_console]

end Sys2Proof.Machine
end

section
/-! PROOFS. The bus reads and the keypad (rules R125, R126, R212, R215 to R220): a read answers one byte and leaves the
block alone; which byte, bit by bit in CHESS and nibble by nibble in CONSOLE. -/

namespace Sys2Proof.Machine

/-! ## Reads -/

/-- What RD DATA leaves as it is, and what it adds and uses up (R125). -/
theorem rdData_frame (s : State) :
    ∃ t x, exec .rdData s = .next t ∧ t.block = s.block ∧ t.records = s.records ∧ t.reads = s.reads ++ [x] ∧
      t.params = s.params ∧ t.stimuli = s.stimuli ∧ t.snapshots = s.snapshots ∧
      (if s.keypad = [] then t.keypad = [] ∧ t.draws = s.draws + 1
        else t.keypad = s.keypad.tail ∧ t.draws = s.draws) := by
  refine ⟨_, scan s.params s.block.seg (pollKeypad s).1, (exec_rdData_next s _).2 rfl, by simp, by simp, by simp, by simp,
    by simp, by simp, ?_⟩
  rw [answer_keypad, answer_draws]
  rcases pollKeypad_cases s with ⟨k, rest, hkeypad, hpoll⟩ | ⟨hkeypad, hpoll⟩
  · rw [hpoll, hkeypad, if_neg (List.cons_ne_nil k rest)]
    exact ⟨rfl, rfl⟩
  · rw [hpoll, if_pos hkeypad]
    exact ⟨hkeypad, rfl⟩

/-- Settles O18: RD DATA by its frame, RD SEL by the laws of `answer` and `drawByte`. -/
theorem readsLeaveTheBlockAlone : Obligations.ReadsLeaveTheBlockAlone :=
  ⟨rdData_frame, fun s => ⟨_, (exec_rdSel_next s _).2 rfl, rfl, rfl, rfl, rfl, rfl, rfl, rfl, rfl⟩⟩

/-! ## CHESS -/

/-- Settles O20: the byte read is the scan, and its bit `i` is bit `i` of the lines with an enabled button. -/
theorem chessReadLowNibbleIsTheLinesWithAnEnabledButton :
    Obligations.ChessReadLowNibbleIsTheLinesWithAnEnabledButton := by
  intro s hv
  obtain ⟨t, hexec, hreads⟩ := exec_rdData_chess_reads hv
  refine ⟨t, _, hexec, hreads, fun i => ?_⟩
  rw [chessScan_low]
  exact lineHits_getLsbD _ _ i

/-! ## CONSOLE -/

/-- In CONSOLE the byte read is the scan of the polled groups (R125). -/
theorem scan_console {p : Params} (hv : p.variant = .console) (seg : Byte) (k : KeypadAnswer) :
    scan p seg k = consoleScan p k.groupA k.groupB := by
  simp [scan, hv]

/-- RD DATA completes in CONSOLE, and the read it adds is the scan of the polled groups. -/
theorem exec_rdData_console_reads {s : State} (hv : s.params.variant = .console) :
    ∃ t, exec .rdData s = .next t ∧
      t.reads = s.reads ++ [consoleScan s.params (pollKeypad s).1.groupA (pollKeypad s).1.groupB] :=
  ⟨_, (exec_rdData_next s _).2 rfl, by rw [answer_reads, pollKeypad_reads, scan_console hv]⟩

/-- The code of a word whose highest pressed key is `h` (R215). -/
theorem keyCode_of_highest (p : Params) (a h : Nat) (hw : h < p.wiring.clzWidth) (hb : a.testBit h = true)
    (hz : ∀ m, h < m → a.testBit m = false) :
    (keyCode p a).toNat = (((p.wiring.clzWidth : Int) - 1 - h - p.wiring.clzOffset) % 16).toNat := by
  have hne : a ≠ 0 := by rintro rfl; simp at hb
  rw [keyCode_toNat p a hne, clz_of_highest p.wiring.clzWidth a h hw hb hz]
  congr 3
  omega

/-- Settles O21: the nibbles of the console scan are the inverted group B and the code of the cut group-A word. -/
theorem consoleReadDecodesBothGroups : Obligations.ConsoleReadDecodesBothGroups := by
  intro s hv o k a
  obtain ⟨t, hexec, hreads⟩ := exec_rdData_console_reads hv
  refine ⟨t, _, hexec, hreads, consoleScan_high _ _ _, fun ha => ?empty, fun h hw hb hz => ?highest⟩
  case empty =>
    have hword : groupAWord s.params.wiring (pollKeypad s).1.groupA = 0 := ha
    rw [consoleScan_low, hword, keyCode_zero]
  case highest =>
    rw [consoleScan_low]
    exact keyCode_of_highest s.params _ h hw hb hz

/-- The code of a single key `k` (R215). -/
theorem keyCode_two_pow (p : Params) (k : Nat) (hk : k < p.wiring.clzWidth) :
    (keyCode p (2 ^ k)).toNat = (((p.wiring.clzWidth : Int) - 1 - k - p.wiring.clzOffset) % 16).toNat :=
  keyCode_of_highest p _ k hk Nat.testBit_two_pow_self fun _ hm => Nat.testBit_two_pow_of_ne (Nat.ne_of_lt hm)

/-- Settles O22: under the turned constraint a key's code is `CLZ_WIDTH - 1 - k - CLZ_OFFSET` itself, which lies in 0..14. -/
theorem oneHotKeyCodesAreDistinct : Obligations.OneHotKeyCodesAreDistinct := by
  intro p hno hle hoffset hspan j k hj hk
  have hcode : ∀ m, m < p.wiring.keyAWidth →
      (keyCode p (2 ^ m)).toNat + m + 1 + p.wiring.clzOffset = p.wiring.clzWidth := by
    intro m hm
    rw [keyCode_two_pow p m (by omega)]
    omega
  have hcodej := hcode j hj
  have hcodek := hcode k hk
  refine ⟨fun heq => ?distinct, fun heq => ?nokey⟩
  case distinct => rw [heq] at hcodej; omega
  case nokey =>
    rw [heq, keyCode_zero, hno] at hcodek
    simp at hcodek
    omega

/-- The collision of log entry 15: a 32-bit counted word, offset 17 and 20 keys. -/
def collidingParams : Params :=
  { defaultParams .console with wiring := { OpenParams.exampleHardware with keyAWidth := 20 } }

/-- Settles O23: key 15 of `collidingParams` has the code 32 - 1 - 15 - 17 = -1, mod 16 the no-key code. -/
theorem literalKeyConstraintAdmitsACollision : Obligations.LiteralKeyConstraintAdmitsACollision :=
  ⟨collidingParams, rfl, by decide, 15, by decide, by decide⟩

end Sys2Proof.Machine
end

section
/-! PROOFS. The display multiplexer's laws (rules R153, R156, R160, R203): a second recompute changes nothing, the blink
phase matters in blink mode only, and CHESS never lights a decimal point. -/

namespace Sys2Proof.Machine

open Sys2Proof.Safety

/-! ## Equal recomputes -/

/-- The outputs of a recompute depend on SEL, ACT, what is shown and the outputs held, alone (R150). -/
theorem renderOutputs_sameOutputs {p : Params} {b c : Block} (hsel : c.sel = b.sel) (hact : c.act = b.act)
    (hshown : shownPattern p c = shownPattern p b) (hout : SameOutputs b c) :
    SameOutputs (renderOutputs p b) (renderOutputs p c) := by
  obtain ⟨hdigits, hlose, hwin⟩ := hout
  have hrendered : (renderOutputs p c).out = (renderOutputs p b).out := by
    ext k hk : 1
    rw [renderOutputs_out_nat, renderOutputs_out_nat]
    exact digitOutput_congr hsel hact hdigits hshown ⟨k, hk⟩
  cases hv : p.variant with
  | chess => exact ⟨hrendered, by simpa [renderOutputs, hv] using ⟨hlose, hwin⟩⟩
  | console => exact ⟨hrendered, by simp [renderOutputs, hv, hact]⟩

/-- Blocks that differ in their outputs only, and get the same outputs, are recomputed alike. -/
theorem renderOutputs_eq_of_digits {p : Params} {b c : Block}
    (hframe : c = { b with out := c.out, lampLose := c.lampLose, lampWin := c.lampWin })
    (hdigits : ∀ i, digitOutput p c i = digitOutput p b i)
    (hlamps : p.variant = .chess → c.lampLose = b.lampLose ∧ c.lampWin = b.lampWin) :
    renderOutputs p c = renderOutputs p b := by
  have hout : (Vector.ofFn (digitOutput p c)) = Vector.ofFn (digitOutput p b) := congrArg _ (funext hdigits)
  cases hv : p.variant with
  | chess =>
    obtain ⟨hlose, hwin⟩ := hlamps hv
    simp only [renderOutputs, hv, hout]
    rw [hframe, hlose, hwin]
  | console =>
    simp only [renderOutputs, hv, hout]
    rw [hframe]

/-- An unselected active digit keeps its pattern (R157). -/
theorem digitOutput_held {p : Params} {b : Block} {i : Digit} (hsel : asserted p.variant b.sel i.line = false)
    (hact : b.act[i.line] = true) : digitOutput p b i = b.out[i] := by
  rw [digitOutput, if_neg (ne_true_of_eq_false hsel), if_pos hact]

/-- A recomputed block is its own recompute (R156). -/
theorem renderOutputs_idem (p : Params) (b : Block) : renderOutputs p (renderOutputs p b) = renderOutputs p b := by
  refine renderOutputs_eq_of_digits (renderOutputs_frame p b) (fun i => ?_) (renderOutputs_lamps_chess p b)
  have hshown : shownPattern p (renderOutputs p b) = shownPattern p b := shownPattern_congr (by simp) (by simp)
  by_cases hheld : asserted p.variant b.sel i.line = false ∧ b.act[i.line] = true
  · rw [digitOutput_held (by simpa using hheld.1) (by simpa using hheld.2), renderOutputs_out]
  · have hcase : asserted p.variant b.sel i.line = true ∨ b.act[i.line] = false := by simpa [imp_iff_not_or] using hheld
    rcases hcase with hsel | hact
    · simp only [digitOutput, renderOutputs_sel, if_pos hsel, hshown]
    · simp only [digitOutput, renderOutputs_sel, renderOutputs_act, hact, hshown, Bool.false_eq_true, if_false]

/-- Settles O25: the block by `renderOutputs_idem`, and so the second record is that of the first. -/
theorem recomputeIsIdempotent : Obligations.RecomputeIsIdempotent := by
  intro s
  refine ⟨renderOutputs_idem s.params s.block, renderRecord s.params.variant (renderOutputs s.params s.block), ?_⟩
  simp [renderOutputs_idem]

/-! ## The blink phase -/

/-- Outside blink mode a CHESS digit does not depend on the phase (R153). -/
theorem chessRender_of_not_blinkMode {p : Params} {seg : Byte} (h : blinkMode p seg = false) (bph : Bool) :
    chessRender p seg bph = permute p.wiring.segPermChess seg := by
  simp [chessRender, h]

/-- Settles O27: the phase enters a recompute only through what CHESS shows in blink mode. -/
theorem blinkPhaseMattersOnlyInBlinkMode : Obligations.BlinkPhaseMattersOnlyInBlinkMode := by
  intro s x h
  refine renderOutputs_sameOutputs rfl rfl ?_ ⟨rfl, rfl, rfl⟩
  unfold shownPattern
  cases hv : s.params.variant with
  | console => rfl
  | chess =>
    have hmode : blinkMode s.params s.block.seg = false := by
      rcases h with hconsole | hdark
      · rw [hv] at hconsole; cases hconsole
      · exact hdark
    exact (chessRender_of_not_blinkMode hmode x).trans (chessRender_of_not_blinkMode hmode s.block.bph).symm

/-! ## The decimal point -/

/-- In CHESS a selected digit shows no decimal point: its segment bit is the blink mode, which masks it (R153, R160). -/
theorem shownBit_decimalPoint {p : Params} (hv : p.variant = .chess) (b : Block) : shownBit p b 7 = false := by
  simp [shownBit, hv]

/-- A recompute keeps dark decimal points dark in CHESS (R160). -/
theorem decimalPointDark_of_recomputed {p : Params} {b c : Block} (hv : p.variant = .chess)
    (hrec : Recomputed p b c) (hdark : DecimalPointDark b) : DecimalPointDark c := by
  intro i
  cases hsel : asserted p.variant c.sel i.line with
  | true => exact (hrec.selected i hsel 7).trans (shownBit_decimalPoint hv c)
  | false =>
    cases hact : c.act[i.line] with
    | true => rw [hrec.held i hsel hact]; exact hdark i
    | false => rw [hrec.blank i hsel hact]; rfl

/-- An image RESTORE takes in CHESS has every decimal point dark (R160, R233). -/
theorem decimalPointDark_of_producible {p : Params} {b : Block} (hv : p.variant = .chess)
    (h : producible p b = true) : DecimalPointDark b := by
  intro i
  obtain ⟨-, hchess, -⟩ := (producible_iff p b).1 h
  have hdigits := hchess hv
  simp only [producibleChess, Bool.and_eq_true, List.all_eq_true, digits, List.mem_finRange, true_implies] at hdigits
  exact ((producibleChessDigit_iff p b i).1 (hdigits.1.1.2 i)).1

/-- Settles O28: a recompute keeps the points dark, a reset edge blanks, RESTORE tests, and no other form writes a digit. -/
theorem decimalPointStaysDarkInChess : Obligations.DecimalPointStaysDarkInChess := by
  intro i s t hv hdark h
  rcases exec_output_cases h with ⟨-, hend⟩ | ⟨-, rfl⟩ | ⟨-, -, -, hout⟩
  case inl => exact decimalPointDark_of_recomputed hv hend.recomputed hdark
  case inr.inl => exact fun d => congrArg (BitVec.getLsbD · 7) (resetBlock_out _ _ d.val d.isLt)
  case inr.inr =>
    by_cases hrestore : IsRestore i
    · obtain ⟨img, rfl⟩ := hrestore
      obtain ⟨hgood, rfl⟩ := (exec_restore_next img s t).1 h
      obtain ⟨-, hproducible⟩ := (badSnapshot_eq_false_iff s.params img).1 hgood
      exact decimalPointDark_of_producible hv hproducible
    · intro d
      rw [(hout hrestore).1]
      exact hdark d

end Sys2Proof.Machine
end

section
/-! PROOFS. The writes and the reset edge, element by element (rules R20, R121 to R124, R271): what each writes, and that
every other element and the surroundings stay. -/

namespace Sys2Proof.Machine

open Sys2Proof.Safety

/-! ## WR DATA -/

/-- A recompute of the machine with another block leaves the surroundings (R150). -/
theorem sameSurroundings_recompute (s : State) (b : Block) : SameSurroundings s (recompute (s.withBlock b)) :=
  ⟨rfl, rfl, rfl, rfl, rfl, rfl⟩

theorem sameSurroundings_withBlock (s : State) (b : Block) : SameSurroundings s (s.withBlock b) :=
  ⟨rfl, rfl, rfl, rfl, rfl, rfl⟩

/-- Settles O14: WR DATA is a recompute of the block with the byte stored, and a recompute writes the outputs only. -/
theorem wrDataStoresAndRecomputes : Obligations.WrDataStoresAndRecomputes := by
  intro s v
  exact ⟨_, (exec_wrData_next v s _).2 rfl, by simp, recompute_recomputed rfl ⟨rfl, rfl, rfl⟩, recompute_emitsOne rfl rfl,
    sameSurroundings_recompute s _, by simp, by simp, by simp, by simp, by simp, by simp, by simp, by simp⟩

/-! ## WR SEL -/

@[simp] theorem scheduleDebounce_sel (p : Params) (b : Block) : (scheduleDebounce p b).sel = b.sel := by
  rw [scheduleDebounce_frame]
@[simp] theorem scheduleDebounce_seg (p : Params) (b : Block) : (scheduleDebounce p b).seg = b.seg := by
  rw [scheduleDebounce_frame]
@[simp] theorem scheduleDebounce_bph (p : Params) (b : Block) : (scheduleDebounce p b).bph = b.bph := by
  rw [scheduleDebounce_frame]
@[simp] theorem scheduleDebounce_out (p : Params) (b : Block) : (scheduleDebounce p b).out = b.out := by
  rw [scheduleDebounce_frame]
@[simp] theorem scheduleDebounce_lampLose (p : Params) (b : Block) : (scheduleDebounce p b).lampLose = b.lampLose := by
  rw [scheduleDebounce_frame]
@[simp] theorem scheduleDebounce_lampWin (p : Params) (b : Block) : (scheduleDebounce p b).lampWin = b.lampWin := by
  rw [scheduleDebounce_frame]
@[simp] theorem scheduleDebounce_blinkDl (p : Params) (b : Block) : (scheduleDebounce p b).blinkDl = b.blinkDl := by
  rw [scheduleDebounce_frame]
@[simp] theorem scheduleDebounce_rst (p : Params) (b : Block) : (scheduleDebounce p b).rst = b.rst := by
  rw [scheduleDebounce_frame]
@[simp] theorem scheduleDebounce_now (p : Params) (b : Block) : (scheduleDebounce p b).now = b.now := by
  rw [scheduleDebounce_frame]

@[simp] theorem storeSelect_seg (v : Byte) (s : State) : (storeSelect v s).block.seg = s.block.seg := rfl
@[simp] theorem storeSelect_bph (v : Byte) (s : State) : (storeSelect v s).block.bph = s.block.bph := rfl
@[simp] theorem storeSelect_out (v : Byte) (s : State) : (storeSelect v s).block.out = s.block.out := rfl
@[simp] theorem storeSelect_lampLose (v : Byte) (s : State) : (storeSelect v s).block.lampLose = s.block.lampLose := rfl
@[simp] theorem storeSelect_lampWin (v : Byte) (s : State) : (storeSelect v s).block.lampWin = s.block.lampWin := rfl
@[simp] theorem storeSelect_debDl (v : Byte) (s : State) : (storeSelect v s).block.debDl = s.block.debDl := rfl
@[simp] theorem storeSelect_blinkDl (v : Byte) (s : State) : (storeSelect v s).block.blinkDl = s.block.blinkDl := rfl
@[simp] theorem storeSelect_rst (v : Byte) (s : State) : (storeSelect v s).block.rst = s.block.rst := rfl
@[simp] theorem storeSelect_now (v : Byte) (s : State) : (storeSelect v s).block.now = s.block.now := rfl

/-- What WR SEL stores and leaves, in both variants (R122). -/
theorem exec_wrSel_frame {v : Byte} {s t : State} (h : exec (.wrSel v) s = .next t) :
    t.block.sel = v ∧ t.block.seg = s.block.seg ∧ t.block.bph = s.block.bph ∧ t.block.blinkDl = s.block.blinkDl ∧
      t.block.rst = s.block.rst ∧ t.block.now = s.block.now ∧
      (s.params.variant = .chess → t.block.debDl = s.block.debDl) ∧ SameSurroundings s t := by
  cases hv : s.params.variant with
  | chess =>
    rw [exec_wrSel_next_chess v s t hv] at h
    subst h
    simp [storeSelect, SameSurroundings, applyEdges]
  | console =>
    rw [exec_wrSel_next_console v s t hv] at h
    subst h
    simp [SameSurroundings]

/-- What an edge, or none, does to a line's ACT bit and deadline (R122, R181). -/
theorem exec_wrSel_line {v : Byte} {s t : State} (h : exec (.wrSel v) s = .next t) (i : Line) :
    if isLine s.params.variant i = true ∧ asserted s.params.variant s.block.sel i = true ∧
        asserted s.params.variant v i = false then
      t.block.decayDl[i] = some (s.block.now + s.params.decayDelay) ∧ t.block.act[i] = s.block.act[i]
    else if isLine s.params.variant i = true ∧ asserted s.params.variant s.block.sel i = false ∧
        asserted s.params.variant v i = true then
      t.block.act[i] = true ∧ t.block.decayDl[i] = s.block.decayDl[i]
    else t.block.act[i] = s.block.act[i] ∧ t.block.decayDl[i] = s.block.decayDl[i] := by
  have hact := exec_wrSel_act h i
  have hdl := exec_wrSel_decayDl h i
  simp only [← deselect_iff, ← rising_iff]
  by_cases hdes : deselect s.params.variant s.block.sel v i = true
  · have hris : rising s.params.variant s.block.sel v i = false := by
      rw [deselect_iff] at hdes
      simp [rising, hdes.2.1]
    rw [if_pos hdes] at hdl ⊢
    rw [hris, Bool.or_false] at hact
    exact ⟨hdl, hact⟩
  · rw [if_neg hdes] at hdl ⊢
    by_cases hris : rising s.params.variant s.block.sel v i = true
    · rw [hris, Bool.or_true] at hact
      rw [if_pos hris]
      exact ⟨hact, hdl⟩
    · rw [Bool.not_eq_true] at hris
      rw [hris, Bool.or_false] at hact
      rw [hris, if_neg Bool.false_ne_true]
      exact ⟨hact, hdl⟩

/-- Settles O16: line by line by `exec_wrSel_line`, the rest by `exec_wrSel_frame`. -/
theorem wrSelHandlesSelectEdges : Obligations.WrSelHandlesSelectEdges := by
  intro s v w
  obtain ⟨t, ht⟩ := exec_wrSel_completes v s
  obtain ⟨hsel, hframe⟩ := exec_wrSel_frame ht
  exact ⟨t, ht, hsel, exec_wrSel_line ht, hframe⟩

/-- Settles O17: the console tail of WR SEL writes DEB_DL alone. -/
theorem wrSelSchedulesOneRecomputeInConsole : Obligations.WrSelSchedulesOneRecomputeInConsole := by
  intro s v hv
  have hdeb := scheduleDebounce_debDl s.params (storeSelect v s).block
  rw [storeSelect_debDl, storeSelect_now] at hdeb
  refine ⟨_, (exec_wrSel_next_console v s _ hv).2 rfl, scheduleDebounce_sameOutputs s.params (storeSelect v s).block,
    rfl, fun u hu hkeep => ?pending, fun hnew => ?new⟩
  case pending => rw [withBlock_block, hdeb, if_neg (by simp [hu, hkeep]), hu]
  case new => rw [withBlock_block, hdeb, if_pos hnew]

/-! ## The elements and their writers -/

/-- Settles O31: form by form, every element a form is not named for has the value it had. -/
theorem otherElementsHaveOnlyTheirWriters : Obligations.OtherElementsHaveOnlyTheirWriters := by
  intro i s t h hedge hrestore
  cases i with
  | rdData => rw [exec_rdData_next] at h; simp [h]
  | rdSel => rw [exec_rdSel_next] at h; simp [h]
  | wrData v => rw [exec_wrData_next] at h; simp [h]
  | wrSel v =>
    obtain ⟨-, hseg, hbph, hblink, hrst, hnow, hdeb, -⟩ := exec_wrSel_frame h
    have hvariant : t.block.debDl ≠ s.block.debDl → s.params.variant = .console := by
      cases hv : s.params.variant with
      | chess => exact fun hne => absurd (hdeb hv) hne
      | console => exact fun _ => rfl
    exact ⟨fun _ => ⟨v, rfl⟩, absurd hseg, absurd hbph, fun hne => ⟨hvariant hne, .inl ⟨v, rfl⟩⟩, absurd hblink,
      absurd hrst, absurd hnow⟩
  | decayFire n =>
    obtain ⟨l, -, -, -, rfl⟩ := (exec_decayFire_next n s t).1 h
    simp [expireDecay]
  | blinkTick =>
    obtain ⟨hv, -, rfl⟩ := (exec_blinkTick_next s t).1 h
    simp [toggleBlinkPhase, hv]
  | debounceFire =>
    obtain ⟨hv, -, rfl⟩ := (exec_debounceFire_next s t).1 h
    simp [hv]
  | reset v =>
    obtain ⟨hrst, rfl, -⟩ | ⟨-, rfl⟩ := (exec_reset_next v s t).1 h
    · exact absurd ⟨rfl, hrst⟩ hedge
    · simp
  | advance d =>
    obtain ⟨-, rfl⟩ := (exec_advance_next d s t).1 h
    simp
  | save => rw [exec_save_next] at h; simp [h]
  | restore img => exact absurd ⟨img, rfl⟩ hrestore

/-! ## The reset edge -/

/-- Settles O44: the reset edge is the power-on block with the clock and the level kept and the oscillator restarted. -/
theorem resetEdgeBlanksAtOnce : Obligations.ResetEdgeBlanksAtOnce := by
  intro s hrst
  exact ⟨_, execReset_edge s hrst, rfl, rfl, selReset_eq s.params.variant, asserted_selReset s.params.variant, rfl,
    resetEdge_act _, rfl, fun d => resetBlock_out _ _ d.val d.isLt, rfl, rfl, resetEdge_decayDl _, rfl,
    blinkStart_eq s.params s.block.now, resetEdge_emitsOne s _, rfl, rfl, rfl, rfl, rfl, rfl⟩

end Sys2Proof.Machine
end

section
/-! PROOFS. The timer events (rules R180 to R188, R201): the expiry of a decay timer with its frame, its order among
same-time expiries, and what it means for a deselected and for a reselected digit. -/

namespace Sys2Proof.Machine

open Sys2Proof.Safety

/-! ## The three timer events -/

/-- A due DECAY_FIRE answers the recompute of the expired block (R182). -/
theorem exec_decayFire_due {s : State} {n : Fin 8} {l : Line} (hln : l.val = n.val)
    (hl : isLine s.params.variant l = true) (hdue : s.block.decayDl[l] = some s.block.now) :
    exec (.decayFire n) s = .next (recompute (s.withBlock (expireDecay s.params.variant l s.block))) :=
  (exec_decayFire_next n s _).2 ⟨l, hln, hl, hdue, rfl⟩

/-- The expiry writes nothing of another line (R180). -/
theorem expireDecay_other (v : Variant) {l m : Line} (h : m ≠ l) (b : Block) :
    (expireDecay v l b).decayDl[m] = b.decayDl[m] ∧ (expireDecay v l b).act[m] = b.act[m] := by
  have hval : l.val ≠ m.val := fun e => h (Fin.ext e.symm)
  exact ⟨(expireDecay_decayDl v l b m.val m.isLt).trans (if_neg hval),
    (expireDecay_act v l b m.val m.isLt).trans (if_neg hval)⟩

/-- Settles O34: the expiry, and a recompute that writes the outputs only. -/
theorem decayFireExpiresItsLine : Obligations.DecayFireExpiresItsLine := by
  intro s n l hln hl hdue
  refine ⟨_, exec_decayFire_due hln hl hdue, by simp, ?act, fun m hm => ?other, recompute_recomputed rfl ⟨rfl, rfl, rfl⟩,
    recompute_emitsOne rfl rfl, sameSurroundings_recompute s _, ?_⟩
  case act => cases hsel : asserted s.params.variant s.block.sel l <;> simp [hsel]
  case other => simpa using expireDecay_other s.params.variant hm s.block
  simp [expireDecay]

/-- A recompute does not read the timers. -/
theorem renderOutputs_setDecayDl (p : Params) (b : Block) (dl : Vector (Option Time) 6) :
    renderOutputs p { b with decayDl := dl } = { renderOutputs p b with decayDl := dl } := by
  unfold renderOutputs
  split <;> rfl

/-- The expiry of an asserted line's timer only disarms it (R183). -/
theorem expireDecay_of_asserted {v : Variant} {l : Line} {b : Block} (h : asserted v b.sel l = true) :
    expireDecay v l b = { b with decayDl := b.decayDl.set l.val none } := by
  simp [expireDecay, h]

/-- Settles O35: what the fire disarms the recompute does not read, so it leaves the outputs as they were. -/
theorem staleFireOnlyDisarmsItself : Obligations.StaleFireOnlyDisarmsItself := by
  intro s n l hln hl hdue hsel hrecomputed
  rw [recompute_block] at hrecomputed
  refine ⟨_, exec_decayFire_due hln hl hdue, ?_⟩
  rw [recompute_block, withBlock_block, expireDecay_of_asserted hsel, withBlock_params, renderOutputs_setDecayDl,
    hrecomputed]

/-- Settles O36: the recompute of the block without DEB_DL. -/
theorem debounceFireRecomputes : Obligations.DebounceFireRecomputes := by
  intro s hv hdue
  refine ⟨_, (exec_debounceFire_next s _).2 ⟨hv, hdue, rfl⟩, by simp, recompute_recomputed rfl ⟨rfl, rfl, rfl⟩,
    recompute_emitsOne rfl rfl, sameSurroundings_recompute s _, ?_⟩
  simp

/-- Settles O37: the recompute of the block with the phase toggled and the next tick set. -/
theorem blinkTickTogglesAndRecomputes : Obligations.BlinkTickTogglesAndRecomputes := by
  intro s hv hdue
  refine ⟨_, (exec_blinkTick_next s _).2 ⟨hv, hdue, rfl⟩, by simp [toggleBlinkPhase], by simp,
    recompute_recomputed rfl ⟨rfl, rfl, rfl⟩, recompute_emitsOne rfl rfl, sameSurroundings_recompute s _, ?_⟩
  simp [toggleBlinkPhase]

/-! ## A deselected digit -/

/-- Reset edge and RESTORE aside, a line's select changes by WR SEL alone, and then to what the byte asserts. -/
theorem exec_asserted {i : Instr} {s t : State} {l : Line} (h : exec i s = .next t) (hedge : ¬ IsResetEdge s i)
    (hrestore : ¬ IsRestore i) (hsel : asserted s.params.variant s.block.sel l = false)
    (hwrite : ∀ v, i = .wrSel v → asserted s.params.variant v l = false) :
    asserted t.params.variant t.block.sel l = false := by
  rw [exec_params i s t h]
  by_cases hsame : t.block.sel = s.block.sel
  · rw [hsame, hsel]
  · obtain ⟨v, rfl⟩ := (otherElementsHaveOnlyTheirWriters i s t h hedge hrestore).1 hsame
    rw [(exec_wrSel_frame h).1, hwrite v rfl]

/-- Reset edge and RESTORE aside, a digit that is active and not asserted after a form keeps its pattern (R157). -/
theorem exec_held_digit {i : Instr} {s t : State} {d : Digit} (h : exec i s = .next t) (hedge : ¬ IsResetEdge s i)
    (hrestore : ¬ IsRestore i) (hsel : asserted t.params.variant t.block.sel d.line = false)
    (hact : t.block.act[d.line] = true) : t.block.out[d] = s.block.out[d] := by
  rw [exec_params i s t h] at hsel
  rcases exec_output_cases h with ⟨-, hend⟩ | ⟨hedge', -⟩ | ⟨-, -, -, hout⟩
  · exact hend.recomputed.held d hsel hact
  · exact absurd hedge' hedge
  · rw [(hout hrestore).1]

/-- No form lets time pass a line's pending deadline (R61, R230). -/
theorem exec_now_le_deadline {i : Instr} {s t : State} {l : Line} {d : Time} (h : exec i s = .next t)
    (hedge : ¬ IsResetEdge s i) (hrestore : ¬ IsRestore i) (hl : isLine s.params.variant l = true)
    (hdl : s.block.decayDl[l] = some d) (hle : s.block.now ≤ d) : t.block.now ≤ d := by
  by_cases hsame : t.block.now = s.block.now
  · rwa [hsame]
  · obtain ⟨-, -, -, -, -, -, hnow⟩ := otherElementsHaveOnlyTheirWriters i s t h hedge hrestore
    obtain ⟨e, rfl⟩ := hnow hsame
    obtain ⟨hpass, rfl⟩ := (exec_advance_next e s t).1 h
    exact hpass d ((mem_pendingDeadlines _ _ d).2 (.inl ⟨l, hl, hdl⟩))

/-- Settles O38: no writer of ACT or the deadline is left, so the digit is held; at the fire it is blanked. -/
theorem deselectedDigitBlanksExactlyAtItsDeadline : Obligations.DeselectedDigitBlanksExactlyAtItsDeadline := by
  refine ⟨?holds, ?blanks⟩
  case holds =>
    intro i s t l d hsel hact hdl hle hfire hwrite hedge hrestore h
    have hsel' := exec_asserted h hedge hrestore hsel hwrite
    have hact' : t.block.act[l.line] = true := by
      by_contra hclear
      rcases exec_act_clear h hact (Bool.eq_false_of_not_eq_true hclear) with ⟨n, hi, hn, -⟩ | hreset | hrest
      · exact hfire n hi hn
      · exact hedge hreset
      · exact hrestore hrest
    have hdl' : t.block.decayDl[l.line] = some d := by
      by_contra hne
      rw [← hdl] at hne
      rcases exec_decayDl_change h hne with ⟨n, hi, hn⟩ | ⟨v, -, hedge'⟩ | hreset | hrest
      · exact hfire n hi hn
      · rw [deselect_iff, hsel] at hedge'
        exact Bool.false_ne_true hedge'.2.1
      · exact hedge hreset
      · exact hrestore hrest
    exact ⟨exec_held_digit h hedge hrestore hsel' hact', hact', hdl',
      exec_now_le_deadline h hedge hrestore (isLine_digit _ l) hdl hle, hsel'⟩
  case blanks =>
    intro s n l hn hsel hdue
    obtain ⟨t, ht, hdl, hact, -, hrec, -, -, hselt, -⟩ :=
      decayFireExpiresItsLine s n l.line hn.symm (isLine_digit _ l) hdue
    rw [hsel, if_neg Bool.false_ne_true] at hact
    exact ⟨t, ht, hrec.blank l (hselt ▸ hsel) hact, hact, hdl⟩

/-! ## A reselected digit -/

/-- Settles O39: WR SEL's asserted lines stay or become active, with their timers left; a stale fire keeps ACT. -/
theorem reselectedDigitSurvivesItsOldTimer : Obligations.ReselectedDigitSurvivesItsOldTimer := by
  refine ⟨?reselect, ?stale⟩
  case reselect =>
    intro s v l hsel hact
    obtain ⟨t, ht⟩ := exec_wrSel_completes v s
    obtain ⟨hselt, -⟩ := exec_wrSel_frame ht
    refine ⟨t, ht, by rw [exec_wrSel_act ht, hact, Bool.true_or], exec_wrSel_keeps_decayDl_of_asserted hsel ht,
      fun hv => ?console, fun hv => ?chess⟩
    case console =>
      rw [exec_wrSel_next_console v s t hv] at ht
      simp [ht]
    case chess =>
      obtain ⟨u, hu, -, hrec, -⟩ := wrSelRecomputesAtOnceInChess s v hv
      obtain rfl : t = u := Host.Outcome.next.inj (ht.symm.trans hu)
      exact hrec.selected l (by rw [hselt]; exact hsel)
  case stale =>
    intro s n l hn hsel hact hdue
    obtain ⟨t, ht, -, hactt, -, hrec, -, -, hselt, hseg, hbph, -⟩ :=
      decayFireExpiresItsLine s n l.line hn.symm (isLine_digit _ l) hdue
    rw [if_pos hsel] at hactt
    have hshown : ∀ k, shownBit s.params t.block k = shownBit s.params s.block k := by
      intro k; simp only [shownBit, hseg, hbph]
    exact ⟨t, ht, hactt.trans hact, fun k => (hrec.selected l (hselt ▸ hsel) k).trans (hshown k)⟩

/-! ## Two timers due at once -/

/-- A recompute between an expiry and the recompute after it changes nothing: what the expiry leaves active was active
before, and so held (R157, R180). -/
theorem renderOutputs_expireDecay_renderOutputs (p : Params) (l : Line) (b : Block) :
    renderOutputs p (expireDecay p.variant l (renderOutputs p b)) = renderOutputs p (expireDecay p.variant l b) := by
  have hact : (expireDecay p.variant l (renderOutputs p b)).act = (expireDecay p.variant l b).act := by
    simp [expireDecay]
  refine renderOutputs_eq_of_digits ?frame (fun i => ?_) (fun hv => renderOutputs_lamps_chess p b hv)
  case frame => simp [expireDecay]
  have hshown : shownPattern p (expireDecay p.variant l (renderOutputs p b)) = shownPattern p (expireDecay p.variant l b) :=
    shownPattern_congr (renderOutputs_seg p b) (fun _ => renderOutputs_bph p b)
  have hsel : (expireDecay p.variant l (renderOutputs p b)).sel = b.sel := renderOutputs_sel p b
  have hsel' : (expireDecay p.variant l b).sel = b.sel := rfl
  simp only [digitOutput, hact, hsel, hsel', hshown]
  cases hasserted : asserted p.variant b.sel i.line with
  | true => rfl
  | false =>
    cases hon : (expireDecay p.variant l b).act[i.line] with
    | false => rfl
    | true =>
      have hb : b.act[i.line] = true := by
        have hexpire := expireDecay_act p.variant l b i.line.val i.line.isLt
        by_cases hli : l.val = i.line.val
        · rw [if_pos hli] at hexpire
          exact (Bool.and_eq_true _ _ ▸ hexpire.symm.trans hon).1
        · rw [if_neg hli] at hexpire
          exact hexpire.symm.trans hon
      have hheld : (renderOutputs p b).out[i] = b.out[i] := by rw [renderOutputs_out, digitOutput_held hasserted hb]
      exact hheld

/-- The expiries of two lines commute (R180). -/
theorem expireDecay_comm (v : Variant) {k l : Line} (h : k ≠ l) (b : Block) :
    expireDecay v l (expireDecay v k b) = expireDecay v k (expireDecay v l b) := by
  have hval : k.val ≠ l.val := fun e => h (Fin.ext e)
  simp [expireDecay, Vector.set_comm _ _ hval, Vector.getElem_set_ne _ _ hval, Vector.getElem_set_ne _ _ hval.symm]

/-- The block after two due fires: one recompute of both expiries. -/
theorem exec_two_decayFires {s : State} {m n : Fin 8} {k l : Line} (hkm : k.val = m.val) (hln : l.val = n.val)
    (hkl : k ≠ l) (hk : isLine s.params.variant k = true) (hl : isLine s.params.variant l = true)
    (hkdue : s.block.decayDl[k] = some s.block.now) (hldue : s.block.decayDl[l] = some s.block.now) :
    ∃ a b, exec (.decayFire m) s = .next a ∧ exec (.decayFire n) a = .next b ∧
      b.block = renderOutputs s.params (expireDecay s.params.variant l (expireDecay s.params.variant k s.block)) := by
  refine ⟨_, _, exec_decayFire_due hkm hk hkdue, exec_decayFire_due hln hl ?_, ?_⟩
  · have hother := (expireDecay_other s.params.variant hkl.symm s.block).1
    simpa [expireDecay] using hother.trans hldue
  · exact renderOutputs_expireDecay_renderOutputs s.params l _

/-- Settles O40: both orders are one recompute of both expiries, which commute. -/
theorem sameTimeDecayFiresCommute : Obligations.SameTimeDecayFiresCommute := by
  intro s m n k l hkm hln hkl hk hl hkdue hldue
  obtain ⟨a, b, ha, hb, hblock⟩ := exec_two_decayFires hkm hln hkl hk hl hkdue hldue
  obtain ⟨c, d, hc, hd, hblock'⟩ := exec_two_decayFires hln hkm hkl.symm hl hk hldue hkdue
  exact ⟨a, b, c, d, ha, hb, hc, hd, by rw [hblock, hblock', expireDecay_comm _ hkl]⟩

end Sys2Proof.Machine
end

section
/-! PROOFS. Runs (rules R61, R105, R230): which events RUN issues at an instant, how far time can go on, and how long a RUN
lasts. -/

namespace Sys2Proof.Machine

open Sys2Proof.Safety

/-! ## Due events -/

/-- The form is a timer event (R61). -/
def IsTimerEvent (i : Instr) : Prop := (∃ n, i = .decayFire n) ∨ i = .blinkTick ∨ i = .debounceFire

/-- The due event of a line is the DECAY_FIRE that has a step for it (R61). -/
theorem dueDecay_eq_some_iff (s : State) (l : Line) (i : Instr) :
    dueDecay s l = some i ↔
      (isLine s.params.variant l = true ∧ s.block.decayDl[l] = some s.block.now) ∧ i = .decayFire (l.castLE (by decide)) := by
  rw [dueDecay, Option.ite_none_right_eq_some, Option.some_inj, @eq_comm _ i]

theorem mem_dueEvents (s : State) (i : Instr) :
    i ∈ dueEvents s ↔ (∃ l, dueDecay s l = some i) ∨
      (i = .blinkTick ∧ s.params.variant = .chess ∧ s.block.blinkDl = some s.block.now) ∨
      (i = .debounceFire ∧ s.params.variant = .console ∧ s.block.debDl = some s.block.now) := by
  simp only [dueEvents, List.mem_append, List.mem_filterMap, lines, List.mem_finRange, true_and, or_assoc,
    List.mem_ite_nil_right, List.mem_singleton, and_comm]

/-- Settles O41: each kind of due event is its form's condition for a step. -/
theorem dueEventsAreTheEnabledTimerEvents : Obligations.DueEventsAreTheEnabledTimerEvents := by
  intro s i
  rw [mem_dueEvents]
  constructor
  · rintro (⟨l, hevent⟩ | ⟨rfl, hv, hdue⟩ | ⟨rfl, hv, hdue⟩)
    · obtain ⟨⟨hl, hdue⟩, rfl⟩ := (dueDecay_eq_some_iff s l i).1 hevent
      exact ⟨.inl ⟨_, rfl⟩, _, exec_decayFire_due rfl hl hdue⟩
    · exact ⟨.inr (.inl rfl), (exec_blinkTick_completes_iff hv).2 hdue⟩
    · exact ⟨.inr (.inr rfl), (exec_debounceFire_completes_iff hv).2 hdue⟩
  · rintro ⟨⟨n, rfl⟩ | rfl | rfl, t, ht⟩
    · obtain ⟨l, hln, hl, hdue, -⟩ := (exec_decayFire_next n s t).1 ht
      exact .inl ⟨l, (dueDecay_eq_some_iff s l _).2 ⟨⟨hl, hdue⟩, congrArg Instr.decayFire (Fin.ext hln.symm)⟩⟩
    · obtain ⟨hv, hdue, -⟩ := (exec_blinkTick_next s t).1 ht
      exact .inr (.inl ⟨rfl, hv, hdue⟩)
    · obtain ⟨hv, hdue, -⟩ := (exec_debounceFire_next s t).1 ht
      exact .inr (.inr ⟨rfl, hv, hdue⟩)

/-! ## Time -/

/-- In a consistent state no pending deadline has passed (R61). -/
theorem now_le_of_mem_pendingDeadlines {s : State} (h : Consistent s) {u : Time}
    (hu : u ∈ pendingDeadlines s.params.variant s.block) : s.block.now ≤ u := by
  rcases (mem_pendingDeadlines _ _ u).1 hu with ⟨l, hl, hdl⟩ | hdl | hdl
  · exact h.decay_ahead l u hl hdl
  · exact h.debounce_ahead u hdl
  · exact h.blink_ahead u hdl

/-- Settles O42: the earliest deadline lies ahead, so `now` reaches it, and no deadline lies before it. -/
theorem timeCanReachTheNextDeadline : Obligations.TimeCanReachTheNextDeadline := by
  intro s hs
  constructor
  · intro e he hleast
    have hnow : s.block.now + (e - s.block.now) = e := Nat.add_sub_cancel' (now_le_of_mem_pendingDeadlines hs he)
    exact ⟨_, (exec_advance_next _ s _).2 ⟨by rwa [hnow], rfl⟩, hnow⟩
  · intro hnone d
    exact (exec_advance_completes_iff d s).2 (by simp [hnone])

/-! ## RUN -/

/-- No form takes or adds a stimulus (R60). -/
theorem exec_stimuli {i : Instr} {s t : State} (h : exec i s = .next t) : t.stimuli = s.stimuli := by
  cases i with
  | rdData => rw [exec_rdData_next] at h; simp [h]
  | rdSel => rw [exec_rdSel_next] at h; simp [h]
  | wrData v => rw [exec_wrData_next] at h; simp [h]
  | wrSel v =>
    obtain ⟨-, -, -, -, -, -, -, -, hstimuli, -⟩ := exec_wrSel_frame h
    exact hstimuli
  | decayFire n => obtain ⟨l, -, -, -, rfl⟩ := (exec_decayFire_next n s t).1 h; rfl
  | blinkTick => obtain ⟨-, -, rfl⟩ := (exec_blinkTick_next s t).1 h; rfl
  | debounceFire => obtain ⟨-, -, rfl⟩ := (exec_debounceFire_next s t).1 h; rfl
  | reset v => obtain ⟨-, -, rfl⟩ | ⟨-, rfl⟩ := (exec_reset_next v s t).1 h <;> rfl
  | advance d => obtain ⟨-, rfl⟩ := (exec_advance_next d s t).1 h; rfl
  | save => rw [exec_save_next] at h; simp [h]
  | restore img => obtain ⟨-, rfl⟩ := (exec_restore_next img s t).1 h; rfl

/-- A timer event takes no time (R61). -/
theorem exec_timerEvent_now {i : Instr} {s t : State} (hi : IsTimerEvent i) (h : exec i s = .next t) :
    t.block.now = s.block.now := by
  have hedge : ¬ IsResetEdge s i := by rintro ⟨rfl, -⟩; simp [IsTimerEvent] at hi
  have hrestore : ¬ IsRestore i := by rintro ⟨img, rfl⟩; simp [IsTimerEvent] at hi
  by_contra hne
  obtain ⟨-, -, -, -, -, -, hnow⟩ := otherElementsHaveOnlyTheirWriters i s t h hedge hrestore
  obtain ⟨d, rfl⟩ := hnow hne
  simp [IsTimerEvent] at hi

/-- RUN_DUE takes no time, leaves nothing due, and keeps the parameters and the stimuli (R105). -/
theorem runsDueTo_keeps {s t : State} (h : RunsDueTo s t) :
    t.block.now = s.block.now ∧ dueEvents t = [] ∧ t.params = s.params ∧ t.stimuli = s.stimuli := by
  induction h with
  | done s hnone => exact ⟨rfl, hnone, rfl, rfl⟩
  | issue s t u i hi hexec _ ih =>
    obtain ⟨hnow, hdue, hparams, hstimuli⟩ := ih
    have hevent : IsTimerEvent i := ((dueEventsAreTheEnabledTimerEvents s i).1 hi).1
    exact ⟨hnow.trans (exec_timerEvent_now hevent hexec), hdue, hparams.trans (exec_params i s t hexec),
      hstimuli.trans (exec_stimuli hexec)⟩

/-- The next stop is not past the end (R105). -/
theorem nextStop_le (endTime : Time) (s : State) : nextStop endTime s ≤ endTime := by
  unfold nextStop
  induction pendingDeadlines s.params.variant s.block generalizing endTime with
  | nil => exact le_rfl
  | cons u us ih => exact (ih (min endTime u)).trans (min_le_left endTime u)

/-- The loop of RUN, from not past its end, ends at it (R105). -/
theorem runsUntil_keeps {endTime : Time} {s t : State} (h : RunsUntil endTime s t) (hle : s.block.now ≤ endTime) :
    t.block.now = endTime ∧ dueEvents t = [] ∧ t.params = s.params ∧ t.stimuli = s.stimuli := by
  induction h with
  | done s t hend hrun =>
    obtain ⟨hnow, hrest⟩ := runsDueTo_keeps hrun
    exact ⟨hnow.trans (le_antisymm hle hend), hrest⟩
  | turn s a b t hlt hadvance hrun _ ih =>
    obtain ⟨hnow, -, hparams, hstimuli⟩ := runsDueTo_keeps hrun
    obtain ⟨-, rfl⟩ := (exec_advance_next _ s a).1 hadvance
    have hbefore : b.block.now ≤ endTime := by
      rw [hnow]
      exact add_tsub_eq_max.trans_le (max_le hle (nextStop_le endTime s))
    obtain ⟨hend, hdue, hparams', hstimuli'⟩ := ih hbefore
    exact ⟨hend, hdue, hparams'.trans hparams, hstimuli'.trans hstimuli⟩

/-- Settles O54: the loop from `now`, which is not past `now + d`. -/
theorem runLastsExactlyItsDuration : Obligations.RunLastsExactlyItsDuration :=
  fun d s _ h => runsUntil_keeps h (Nat.le_add_right s.block.now d)

end Sys2Proof.Machine
end

section
/-! PROOFS. The invariant (rules R27, R28, R31, R33, R34, R61): what a recompute needs of the timers and lines to establish
it, and that every form keeps it. -/

namespace Sys2Proof.Machine

open Sys2Proof.Safety

/-- The clauses of the invariant that do not speak of the outputs. -/
structure LineInv (v : Variant) (b : Block) : Prop where
  decay_ahead : ∀ (i : Line) (t : Time), isLine v i = true → b.decayDl[i] = some t → b.now ≤ t
  debounce_ahead : ∀ t : Time, b.debDl = some t → b.now ≤ t
  blink_ahead : ∀ t : Time, b.blinkDl = some t → b.now ≤ t
  asserted_active : ∀ i : Line, isLine v i = true → asserted v b.sel i = true → b.act[i] = true
  active_armed : ∀ i : Line, isLine v i = true → asserted v b.sel i = false → b.act[i] = true → b.decayDl[i] ≠ none
  chess_timers : v = .chess → b.blinkDl ≠ none ∧ b.debDl = none
  console_blink : v = .console → b.blinkDl = none ∧ b.bph = false

/-- The clauses that do: nothing is lit whose line is not active (R31). -/
structure LitInv (v : Variant) (b : Block) : Prop where
  lit_active : ∀ i : Digit, b.out[i] ≠ 0 → b.act[i.line] = true
  lamps_active : v = .console → (b.lampLose = true → b.act[4] = true) ∧ (b.lampWin = true → b.act[5] = true)

theorem inv_iff (v : Variant) (b : Block) : Inv v b ↔ LineInv v b ∧ LitInv v b := by
  constructor
  · rintro ⟨h1, h2, h3, h4, h5, h6, h7, h8, h9⟩
    exact ⟨⟨h1, h2, h3, h4, h5, h8, h9⟩, ⟨h6, h7⟩⟩
  · rintro ⟨⟨h1, h2, h3, h4, h5, h8, h9⟩, ⟨h6, h7⟩⟩
    exact ⟨h1, h2, h3, h4, h5, h6, h7, h8, h9⟩

/-- A recompute lights nothing whose line is not active, so it establishes the invariant (R31, R151, R155). -/
theorem LineInv.renderOutputs {p : Params} {b : Block} (h : LineInv p.variant b) :
    Inv p.variant (renderOutputs p b) := by
  refine (inv_iff _ _).2 ⟨?line, ?lit, ?lamps⟩
  case line =>
    obtain ⟨h1, h2, h3, h4, h5, h8, h9⟩ := h
    constructor <;> simpa
  case lit =>
    intro i hlit
    rw [renderOutputs_out, digitOutput] at hlit
    rw [renderOutputs_act]
    by_cases hsel : asserted p.variant b.sel i.line = true
    · exact h.asserted_active i.line (isLine_digit _ i) hsel
    · by_contra hact
      rw [if_neg hsel, if_neg hact] at hlit
      exact hlit rfl
  case lamps =>
    intro hv
    obtain ⟨hlose, hwin⟩ := renderOutputs_lamps_console p b hv
    rw [hlose, hwin, renderOutputs_act]
    exact ⟨id, id⟩

/-! ## Each operation -/

/-- The select edges keep the line clauses: what is newly asserted becomes active, what is no longer is armed (R27). -/
theorem LineInv.storeSelect {s : State} (h : LineInv s.params.variant s.block) (v : Byte) :
    LineInv s.params.variant (storeSelect v s).block where
  decay_ahead i t hi hdl := by
    rw [storeSelect_decayDl] at hdl
    rw [storeSelect_now]
    split at hdl
    · cases hdl; exact Nat.le_add_right _ _
    · exact h.decay_ahead i t hi hdl
  debounce_ahead := h.debounce_ahead
  blink_ahead := h.blink_ahead
  asserted_active i hi hsel := by
    rw [storeSelect_sel] at hsel
    rw [storeSelect_act]
    cases hold : asserted s.params.variant s.block.sel i with
    | true => rw [h.asserted_active i hi hold, Bool.true_or]
    | false => rw [(rising_iff _ _ _ i).2 ⟨hi, hold, hsel⟩, Bool.or_true]
  active_armed i hi hsel hact := by
    rw [storeSelect_sel] at hsel
    rw [storeSelect_decayDl]
    split
    · exact nofun
    · rename_i hno
      have hold : asserted s.params.variant s.block.sel i = false := by
        by_contra hold
        exact hno ((deselect_iff _ _ _ i).2 ⟨hi, Bool.eq_true_of_not_eq_false hold, hsel⟩)
      have hris : rising s.params.variant s.block.sel v i = false := by simp [rising, hsel]
      rw [storeSelect_act, hris, Bool.or_false] at hact
      exact h.active_armed i hi hold hact
  chess_timers := h.chess_timers
  console_blink := h.console_blink

/-- The select edges take no line out of ACT, so what is lit stays active. -/
theorem LitInv.storeSelect {s : State} (h : LitInv s.params.variant s.block) (v : Byte) :
    LitInv s.params.variant (storeSelect v s).block where
  lit_active i hlit := by
    rw [storeSelect_act, h.lit_active i hlit, Bool.true_or]
  lamps_active hv := by
    obtain ⟨hlose, hwin⟩ := h.lamps_active hv
    have hkeep : ∀ i : Line, s.block.act[i] = true → (Machine.storeSelect v s).block.act[i] = true := by
      intro i hi
      rw [storeSelect_act, hi, Bool.true_or]
    exact ⟨fun hl => hkeep 4 (hlose hl), fun hl => hkeep 5 (hwin hl)⟩

/-- Scheduling a recompute in CONSOLE keeps the invariant: its deadline lies ahead. -/
theorem inv_scheduleDebounce {p : Params} {b : Block} (hv : p.variant = .console) (h : Inv p.variant b) :
    Inv p.variant (scheduleDebounce p b) := by
  have hahead : ∀ t, (scheduleDebounce p b).debDl = some t → b.now ≤ t := by
    intro t ht
    rw [scheduleDebounce_debDl] at ht
    split at ht
    · cases ht; exact Nat.le_add_right _ _
    · exact h.debounce_ahead t ht
  have hchess : p.variant ≠ .chess := by simp [hv]
  rw [scheduleDebounce_frame]
  exact { h with debounce_ahead := hahead, chess_timers := fun hv' => absurd hv' hchess }

/-- The expiry keeps the line clauses: what stays active and unasserted was not the expired line (R182). -/
theorem LineInv.expireDecay {v : Variant} {b : Block} (h : LineInv v b) (l : Line) :
    LineInv v (expireDecay v l b) where
  decay_ahead i t hi hdl := by
    by_cases hil : i = l
    · subst hil
      have hnone := expireDecay_decayDl v i b i.val i.isLt
      rw [if_pos rfl] at hnone
      cases hnone.symm.trans hdl
    · exact h.decay_ahead i t hi ((expireDecay_other v hil b).1.symm.trans hdl)
  debounce_ahead := h.debounce_ahead
  blink_ahead := h.blink_ahead
  asserted_active i hi hsel := by
    have hact := h.asserted_active i hi hsel
    by_cases hil : i = l
    · subst hil
      have hkept := expireDecay_act v i b i.val i.isLt
      rw [if_pos rfl] at hkept
      exact hkept.trans ((Bool.and_eq_true _ _).mpr ⟨hact, hsel⟩)
    · exact (expireDecay_other v hil b).2.trans hact
  active_armed i hi hsel hact := by
    by_cases hil : i = l
    · subst hil
      have hkept := expireDecay_act v i b i.val i.isLt
      rw [if_pos rfl] at hkept
      have hsel' : asserted v b.sel i = true := ((Bool.and_eq_true _ _).mp (hkept.symm.trans hact)).2
      rw [show asserted v b.sel i = false from hsel] at hsel'
      cases hsel'
    · obtain ⟨hdl, hact'⟩ := expireDecay_other v hil b
      exact fun hnone => h.active_armed i hi hsel (hact'.symm.trans hact) (hdl.symm.trans hnone)
  chess_timers := h.chess_timers
  console_blink := h.console_blink

/-- The reset edge establishes the invariant (R271); power-on is a reset edge at time 0 (R40). -/
theorem inv_resetBlock (p : Params) (b : Block) : Inv p.variant (resetBlock p b) where
  decay_ahead i t _ hdl := by cases (resetBlock_decayDl p b i.val i.isLt).symm.trans hdl
  debounce_ahead t hdl := by cases hdl
  blink_ahead t hdl := by
    have hstart : blinkStart p b.now = some t := hdl
    rw [blinkStart_eq] at hstart
    split at hstart
    · cases hstart; exact Nat.le_add_right _ _
    · cases hstart
  asserted_active i hi hsel := by
    rw [show asserted p.variant (resetBlock p b).sel i = false from asserted_selReset p.variant i hi] at hsel
    cases hsel
  active_armed i _ _ hact := by cases (resetBlock_act p b i.val i.isLt).symm.trans hact
  lit_active i hlit := absurd (resetBlock_out p b i.val i.isLt) hlit
  lamps_active _ := ⟨nofun, nofun⟩
  chess_timers hv := ⟨by
    have hstart : (resetBlock p b).blinkDl = blinkStart p b.now := rfl
    rw [hstart, blinkStart_eq, if_pos hv]
    exact nofun, rfl⟩
  console_blink hv := ⟨by
    have hstart : (resetBlock p b).blinkDl = blinkStart p b.now := rfl
    rw [hstart, blinkStart_eq, if_neg (by simp [hv])], rfl⟩

theorem powerOn_eq_resetBlock (p : Params) : powerOn p = resetBlock p (powerOn p) := rfl

/-- Settles O49: power-on is a reset edge at time 0. -/
theorem powerOnIsConsistent : Obligations.PowerOnIsConsistent :=
  ⟨fun p => inv_resetBlock p (powerOn p), inv_resetBlock _ (powerOn (defaultParams .chess))⟩

/-! ## Every form -/

/-- Every form that answers a next state keeps the invariant (R27, R31, R33, R34, R61). -/
theorem exec_keeps_consistent {i : Instr} {s t : State} (hs : Consistent s) (h : exec i s = .next t) : Consistent t := by
  obtain ⟨hline, hlit⟩ := (inv_iff _ _).1 hs
  cases i with
  | rdData => rw [exec_rdData_next] at h; subst h; simpa [Consistent] using hs
  | rdSel => rw [exec_rdSel_next] at h; subst h; simpa [Consistent] using hs
  | wrData v =>
    rw [exec_wrData_next] at h
    subst h
    have hstored : LineInv s.params.variant { s.block with seg := v } := { hline with }
    exact hstored.renderOutputs
  | wrSel v =>
    cases hv : s.params.variant with
    | chess =>
      rw [exec_wrSel_next_chess v s t hv] at h
      subst h
      exact (hline.storeSelect v).renderOutputs
    | console =>
      rw [exec_wrSel_next_console v s t hv] at h
      subst h
      exact inv_scheduleDebounce hv ((inv_iff _ _).2 ⟨hline.storeSelect v, hlit.storeSelect v⟩)
  | decayFire n =>
    obtain ⟨l, -, -, -, rfl⟩ := (exec_decayFire_next n s t).1 h
    exact (hline.expireDecay l).renderOutputs
  | blinkTick =>
    obtain ⟨hv, -, rfl⟩ := (exec_blinkTick_next s t).1 h
    have hticked : LineInv s.params.variant
        { toggleBlinkPhase s.block with blinkDl := some (s.block.now + s.params.blinkPeriod) } :=
      { hline with
        blink_ahead := fun t ht => by cases ht; exact Nat.le_add_right _ _
        chess_timers := fun _ => ⟨nofun, (hline.chess_timers hv).2⟩
        console_blink := fun hv' => by rw [hv] at hv'; cases hv' }
    exact hticked.renderOutputs
  | debounceFire =>
    obtain ⟨hv, -, rfl⟩ := (exec_debounceFire_next s t).1 h
    have hfired : LineInv s.params.variant { s.block with debDl := none } :=
      { hline with debounce_ahead := nofun, chess_timers := fun hv' => by rw [hv] at hv'; cases hv' }
    exact hfired.renderOutputs
  | reset v =>
    obtain ⟨-, -, rfl⟩ | ⟨-, rfl⟩ := (exec_reset_next v s t).1 h
    · exact inv_resetBlock _ _
    · exact { hs with }
  | advance d =>
    obtain ⟨hpass, rfl⟩ := (exec_advance_next d s t).1 h
    obtain ⟨hdecay, hdeb, hblink⟩ := (le_pendingDeadlines_iff _ _ _).1 hpass
    exact { hs with decay_ahead := hdecay, debounce_ahead := hdeb, blink_ahead := hblink }
  | save => rw [exec_save_next] at h; subst h; exact hs
  | restore img =>
    obtain ⟨hgood, rfl⟩ := (exec_restore_next img s t).1 h
    exact ((badSnapshot_eq_false_iff s.params img).1 hgood).1.2

/-- Settles O50: a step executes a form. -/
theorem stepKeepsConsistency : Obligations.StepKeepsConsistency := by
  intro s t hs h
  obtain ⟨st, rest, i, -, -, hexec⟩ := step_next_exec h
  have hrest : Consistent { s with stimuli := rest } := hs
  exact exec_keeps_consistent hrest hexec

/-- Settles O51: by induction on the run, with O28 for the decimal points. -/
theorem reachableStatesAreConsistent : Obligations.ReachableStatesAreConsistent := by
  intro p s h
  refine ⟨?inv, reaches_params h, ?dark⟩
  case inv =>
    induction h with
    | start => exact powerOnIsConsistent.1 p
    | next s t i _ _ hexec ih => exact exec_keeps_consistent ih hexec
  case dark =>
    intro hv
    induction h with
    | start => exact fun i => congrArg (BitVec.getLsbD · 7) (powerOn_out p i.val i.isLt)
    | next s t i hs _ hexec ih =>
      exact decimalPointStaysDarkInChess i s t (reaches_params hs ▸ hv) ih hexec

end Sys2Proof.Machine
end

section
/-! PROOFS. The tests of a snapshot image (rule R233; log entry 14) as propositions: the times of the select writes that
debounce periods take in, and `Restorable`, what RESTORE asks of a block. -/

namespace Sys2Proof.Machine

open Sys2Proof.Safety

/-! ## Times of select writes -/

/-- Debounce periods that end by `limit` and take in all the times (R124). -/
def Covered (delay limit : Nat) (times : List Nat) : Prop :=
  ∃ starts, PeriodsFit delay limit 0 starts ∧ ∀ t ∈ times, InPeriod delay starts t

theorem PeriodsFit.mono {delay limit limit' p : Nat} {ws : List Nat} (h : PeriodsFit delay limit p ws)
    (hle : limit ≤ limit') : PeriodsFit delay limit' p ws := by
  induction ws generalizing p with
  | nil => exact Nat.le_trans h hle
  | cons w ws ih => exact ⟨h.1, ih h.2⟩

/-- A last period can be added where the others end. -/
theorem PeriodsFit.snoc {delay limit p : Nat} {ws : List Nat} (h : PeriodsFit delay limit p ws) :
    PeriodsFit delay (limit + delay) p (ws ++ [limit]) := by
  induction ws generalizing p with
  | nil => exact ⟨h, Nat.le_refl _⟩
  | cons w ws ih => exact ⟨h.1, ih h.2⟩

theorem Covered.mono {delay limit limit' : Nat} {times times' : List Nat} (h : Covered delay limit times)
    (hle : limit ≤ limit') (hsub : ∀ t ∈ times', t ∈ times) : Covered delay limit' times' := by
  obtain ⟨starts, hfit, hin⟩ := h
  exact ⟨starts, hfit.mono hle, fun t ht => hin t (hsub t ht)⟩

/-- Times not before `limit - delay` and not after `limit` are taken in by one more period. -/
theorem Covered.snoc {delay limit : Nat} {times : List Nat} (hle : delay ≤ limit)
    (h : Covered delay (limit - delay) (times.filter fun t => decide (t + delay < limit)))
    (htimes : ∀ t ∈ times, t ≤ limit) : Covered delay limit times := by
  obtain ⟨starts, hfit, hin⟩ := h
  have hfit' := hfit.snoc
  rw [Nat.sub_add_cancel hle] at hfit'
  refine ⟨starts ++ [limit - delay], hfit', fun t ht => ?_⟩
  by_cases hearly : t + delay < limit
  · obtain ⟨w, hw, hwt⟩ := hin t (List.mem_filter.2 ⟨ht, decide_eq_true hearly⟩)
    exact ⟨w, List.mem_append_left _ hw, hwt⟩
  · have hlimit := htimes t ht
    exact ⟨limit - delay, List.mem_append_right _ (List.mem_singleton_self _), by omega, by omega⟩

theorem writesSettled_iff (p : Params) (limit : Time) (times : List Time) :
    writesSettled p limit times = true ↔
      (p.debounceMode = .keep → Covered p.debounceDelay limit times) ∧
        (p.debounceMode = .reschedule → ∀ t ∈ times, t + p.debounceDelay ≤ limit) := by
  unfold writesSettled
  cases p.debounceMode <;> simp [debouncesCover_iff, Covered]

theorem writesBefore_iff (p : Params) (e : Time) (times : List Time) :
    writesBefore p e times = true ↔
      (p.debounceMode = .keep → Covered p.debounceDelay (e - p.debounceDelay)
          (times.filter fun t => decide (t + p.debounceDelay < e))) ∧
        (p.debounceMode = .reschedule → ∀ t ∈ times, t + p.debounceDelay ≤ e) := by
  unfold writesBefore
  cases p.debounceMode with
  | keep => simp [debouncesCover_iff, Covered]
  | reschedule => simp

/-- Settled writes stay settled as time passes and timers are disarmed. -/
theorem writesSettled_mono {p : Params} {limit limit' : Time} {times times' : List Time}
    (h : writesSettled p limit times = true) (hle : limit ≤ limit') (hsub : ∀ t ∈ times', t ∈ times) :
    writesSettled p limit' times' = true := by
  rw [writesSettled_iff] at h ⊢
  exact ⟨fun hm => (h.1 hm).mono hle hsub, fun hm t ht => Nat.le_trans (h.2 hm t (hsub t ht)) hle⟩

theorem writesBefore_mono {p : Params} {e : Time} {times times' : List Time}
    (h : writesBefore p e times = true) (hsub : ∀ t ∈ times', t ∈ times) : writesBefore p e times' = true := by
  rw [writesBefore_iff] at h ⊢
  refine ⟨fun hm => (h.1 hm).mono (Nat.le_refl _) fun t ht => ?_, fun hm t ht => h.2 hm t (hsub t ht)⟩
  obtain ⟨ht, hlt⟩ := List.mem_filter.1 ht
  exact List.mem_filter.2 ⟨hsub t ht, hlt⟩

/-- A recompute that comes at `e` settles the writes before it. -/
theorem writesSettled_of_writesBefore {p : Params} {e : Time} {times : List Time} (hle : p.debounceDelay ≤ e)
    (h : writesBefore p e times = true) (htimes : ∀ t ∈ times, t ≤ e) : writesSettled p e times = true := by
  rw [writesBefore_iff] at h
  rw [writesSettled_iff]
  exact ⟨fun hm => (h.1 hm).snoc hle htimes, h.2⟩

/-- Where none was pending, a write at `now` schedules a recompute that all writes go before. -/
theorem writesBefore_of_writesSettled {p : Params} {now : Time} {times times' : List Time}
    (h : writesSettled p now times = true) (hsub : ∀ t ∈ times', t ∈ times ∨ t = now) :
    writesBefore p (now + p.debounceDelay) times' = true := by
  rw [writesSettled_iff] at h
  rw [writesBefore_iff]
  refine ⟨fun hm => ?keep, fun hm t ht => ?reschedule⟩
  case keep =>
    refine (h.1 hm).mono (Nat.le_of_eq (Nat.add_sub_cancel now p.debounceDelay).symm) fun t ht => ?_
    obtain ⟨ht, hlt⟩ := List.mem_filter.1 ht
    refine (hsub t ht).resolve_right fun hnow => ?_
    simp [hnow] at hlt
  case reschedule =>
    rcases hsub t ht with hold | rfl
    · exact Nat.le_trans (h.2 hm t hold) (Nat.le_add_right _ _)
    · exact Nat.le_refl _

/-- Where one was pending at `e`, a write at `now` goes before it with KEEP, and before the new one with RESCHEDULE. -/
theorem writesBefore_write {p : Params} {now e e' : Time} {times times' : List Time}
    (h : writesBefore p e times = true) (he : e ≤ now + p.debounceDelay)
    (he' : e' = if p.debounceMode = .reschedule then now + p.debounceDelay else e)
    (hsub : ∀ t ∈ times', t ∈ times ∨ t = now) : writesBefore p e' times' = true := by
  rw [writesBefore_iff] at h ⊢
  refine ⟨fun hm => ?keep, fun hm t ht => ?reschedule⟩
  case keep =>
    rw [if_neg (by simp [hm])] at he'
    subst he'
    refine (h.1 hm).mono (Nat.le_refl _) fun t ht => ?_
    obtain ⟨ht, hlt⟩ := List.mem_filter.1 ht
    refine List.mem_filter.2 ⟨(hsub t ht).resolve_right fun hnow => ?_, hlt⟩
    rw [hnow, decide_eq_true_eq] at hlt
    exact absurd he (Nat.not_le_of_lt hlt)
  case reschedule =>
    rw [if_pos hm] at he'
    subst he'
    rcases hsub t ht with hold | rfl
    · exact Nat.le_trans (h.2 hm t hold) he
    · exact Nat.le_refl _

/-! ## The tests as propositions -/

/-- What CHESS adds to the lines' tests. -/
structure ChessShown (p : Params) (b : Block) : Prop where
  blink : ∀ t, b.blinkDl = some t →
    t ≤ b.now + p.blinkPeriod ∧ (if b.bph = true then 2 * p.blinkPeriod else p.blinkPeriod) ≤ t
  dark : DecimalPointDark b
  shown : ∀ i : Digit, asserted p.variant b.sel i.line = true → b.out[i] = shownPattern p b
  lamps : b.lampLose = false ∧ b.lampWin = false

theorem producibleChess_iff (p : Params) (b : Block) : producibleChess p b = true ↔ ChessShown p b := by
  simp only [producibleChess, Bool.and_eq_true, Bool.not_eq_true', producibleBlink_iff, List.all_eq_true, digits,
    List.mem_finRange, true_implies, producibleChessDigit_iff]
  constructor
  · rintro ⟨⟨⟨hblink, hdigits⟩, hlose⟩, hwin⟩
    exact ⟨hblink, fun i => (hdigits i).1, fun i => (hdigits i).2, hlose, hwin⟩
  · rintro ⟨hblink, hdark, hshown, hlose, hwin⟩
    exact ⟨⟨⟨hblink, fun i => ⟨hdark i, hshown i⟩⟩, hlose⟩, hwin⟩

/-- What CONSOLE adds with no recompute pending. -/
structure Settled (p : Params) (b : Block) : Prop where
  shown : ∀ i : Digit, asserted p.variant b.sel i.line = true → b.out[i] = shownPattern p b
  lamps : b.lampLose = b.act[4] ∧ b.lampWin = b.act[5]
  written : (b.sel = 0 ∧ ∀ i : Line, b.act[i] = false) ∨ p.debounceDelay ≤ b.now
  writes : writesSettled p b.now (armTimes p b) = true

theorem producibleSettled_iff (p : Params) (b : Block) : producibleSettled p b = true ↔ Settled p b := by
  have hdigit : ∀ i : Digit, (!asserted p.variant b.sel i.line || b.out[i] == shownPattern p b) = true ↔
      (asserted p.variant b.sel i.line = true → b.out[i] = shownPattern p b) := by
    intro i
    cases asserted p.variant b.sel i.line <;> simp
  simp only [producibleSettled, Bool.and_eq_true, Bool.or_eq_true, beq_iff_eq, decide_eq_true_eq, List.all_eq_true,
    digits, lines, List.mem_finRange, true_implies, hdigit, Bool.not_eq_true']
  constructor
  · rintro ⟨⟨⟨⟨hshown, hlose⟩, hwin⟩, hwritten⟩, hwrites⟩
    exact ⟨hshown, ⟨hlose, hwin⟩, hwritten, hwrites⟩
  · rintro ⟨hshown, ⟨hlose, hwin⟩, hwritten, hwrites⟩
    exact ⟨⟨⟨⟨hshown, hlose⟩, hwin⟩, hwritten⟩, hwrites⟩

/-- A lamp while a recompute is pending at `e`: lit, or its line inactive or selected since the last recompute (R155). -/
def LampWaits (p : Params) (b : Block) (e : Time) (lamp : Bool) (i : Line) : Prop :=
  lamp = true ∨ b.act[i] = false ∨ (p.debounceMode = .reschedule ∧ 0 < p.debounceDelay) ∨
    ∀ t, b.decayDl[i] = some t → e + p.decayDelay ≤ t + p.debounceDelay

/-- What CONSOLE adds with a recompute pending at `e`. -/
structure Waiting (p : Params) (b : Block) (e : Time) : Prop where
  begun : p.debounceDelay ≤ e
  near : e ≤ b.now + p.debounceDelay
  digit : ∀ i : Digit, asserted p.variant b.sel i.line = true →
    b.decayDl[i.line] ≠ none ∨ b.out[i] = 0 ∨ b.out[i] = shownPattern p b
  lose : LampWaits p b e b.lampLose 4
  win : LampWaits p b e b.lampWin 5
  writes : writesBefore p e (armTimes p b) = true

theorem producibleWaitingLamp_iff (p : Params) (b : Block) (e : Time) (lamp : Bool) (i : Line) :
    producibleWaitingLamp p b e lamp i = true ↔ LampWaits p b e lamp i := by
  simp only [producibleWaitingLamp, LampWaits, Bool.or_eq_true, Bool.and_eq_true, Bool.not_eq_true', decide_eq_true_eq,
    Option.all_eq_true, or_assoc]

theorem producibleWaiting_iff (p : Params) (b : Block) (e : Time) :
    producibleWaiting p b e = true ↔ Waiting p b e := by
  have hdigit : ∀ i : Digit, producibleWaitingDigit p b i = true ↔ (asserted p.variant b.sel i.line = true →
      b.decayDl[i.line] ≠ none ∨ b.out[i] = 0 ∨ b.out[i] = shownPattern p b) := by
    intro i
    unfold producibleWaitingDigit
    cases asserted p.variant b.sel i.line <;> simp [or_assoc, Option.isSome_iff_ne_none]
  simp only [producibleWaiting, Bool.and_eq_true, decide_eq_true_eq, List.all_eq_true, digits, List.mem_finRange,
    true_implies, hdigit, producibleWaitingLamp_iff]
  constructor
  · rintro ⟨⟨⟨⟨⟨hbegun, hnear⟩, hdigits⟩, hlose⟩, hwin⟩, hwrites⟩
    exact ⟨hbegun, hnear, hdigits, hlose, hwin, hwrites⟩
  · rintro ⟨hbegun, hnear, hdigits, hlose, hwin, hwrites⟩
    exact ⟨⟨⟨⟨⟨hbegun, hnear⟩, hdigits⟩, hlose⟩, hwin⟩, hwrites⟩

theorem producibleConsole_iff (p : Params) (b : Block) :
    producibleConsole p b = true ↔
      (b.debDl = none → Settled p b) ∧ (∀ e, b.debDl = some e → Waiting p b e) := by
  unfold producibleConsole
  cases b.debDl with
  | none => simp [producibleSettled_iff]
  | some e => simp [producibleWaiting_iff]

/-- The timers of all lines: armed by an active line, in the history, and not more than a delay ago (R26, R181). -/
structure LineTimes (p : Params) (b : Block) : Prop where
  armed : ∀ (i : Line) (t : Time), isLine p.variant i = true → b.decayDl[i] = some t →
    b.act[i] = true ∧ earliestStart p b + p.decayDelay ≤ t ∧ t ≤ b.now + p.decayDelay
  absent : ∀ i : Line, isLine p.variant i = false → b.act[i] = false ∧ b.decayDl[i] = none

/-- What a block of the machine can show, as far as a snapshot's test sees (R233). -/
structure Restorable (p : Params) (b : Block) : Prop where
  inv : Inv p.variant b
  lines : LineTimes p b
  chess : p.variant = .chess → ChessShown p b
  settled : p.variant = .console → b.debDl = none → Settled p b
  waiting : p.variant = .console → ∀ e, b.debDl = some e → Waiting p b e

/-- RESTORE takes exactly the images of its own variant whose block is restorable (R233). -/
theorem badSnapshot_iff_restorable (p : Params) (img : Image) :
    badSnapshot p img = false ↔ img.variant = p.variant ∧ Restorable p img.block := by
  rw [badSnapshot_eq_false_iff, producible_iff, producibleChess_iff, producibleConsole_iff]
  simp only [producibleLine_iff]
  constructor
  · rintro ⟨⟨hv, hinv⟩, hlines, hchess, hconsole⟩
    exact ⟨hv, hinv, ⟨fun i t hi ht => (hlines i).1 hi t ht, fun i hi => (hlines i).2 hi⟩, hchess,
      fun h => (hconsole h).1, fun h => (hconsole h).2⟩
  · rintro ⟨hv, hinv, ⟨harmed, habsent⟩, hchess, hsettled, hwaiting⟩
    exact ⟨⟨hv, hinv⟩, fun i => ⟨fun hi t ht => harmed i t hi ht, habsent i⟩, hchess,
      fun h => ⟨hsettled h, hwaiting h⟩⟩

theorem badSnapshot_snapshot_iff (s : State) :
    badSnapshot s.params (snapshot s) = false ↔ Restorable s.params s.block := by
  rw [badSnapshot_iff_restorable]
  exact and_iff_right rfl

/-- Settles O53: what is not restorable is refused; RESTORE has no third answer. -/
theorem restoreRefusesInconsistentImages : Obligations.RestoreRefusesInconsistentImages := by
  intro s img
  have hrefuse : ∀ {P : Prop}, (Restorable s.params img.block → img.variant = s.params.variant → P) → ¬ P →
      exec (.restore img) s = .refused .badSnapshot := by
    intro P hP hno
    refine if_pos (Bool.eq_true_of_not_eq_false fun hgood => hno ?_)
    obtain ⟨hv, hres⟩ := (badSnapshot_iff_restorable s.params img).1 hgood
    exact hP hres hv
  refine ⟨hrefuse fun hres hv => ⟨hv, hres.inv⟩, fun hchess => hrefuse fun hres _ => (hres.chess hchess).dark, ?_⟩
  cases hbad : badSnapshot s.params img with
  | true => exact .inl (if_pos hbad)
  | false => exact .inr ((exec_restore_next img s _).2 ⟨hbad, rfl⟩)

end Sys2Proof.Machine
end

section
/-! PROOFS. Every form keeps the tests of a snapshot image (rule R233; log entry 14). In CHESS every change is recomputed at
once; in CONSOLE the select writes are followed through their debounce periods. -/

namespace Sys2Proof.Machine

open Sys2Proof.Safety

/-! ## Steps of the block -/

/-- The block after WR SEL has stored the byte and handled the edges (R122). -/
def selectBlock (p : Params) (v : Byte) (b : Block) : Block := applyEdges p b.sel v { b with sel := v }

/-- The block after the oscillator's tick, before the recompute (R201). -/
def tickBlock (p : Params) (b : Block) : Block :=
  { toggleBlinkPhase b with blinkDl := some (b.now + p.blinkPeriod) }

/-- What a form can make of the block. -/
inductive BlockStep (p : Params) (b : Block) : Block → Prop
  | same : BlockStep p b b
  | wrData (v : Byte) : BlockStep p b (renderOutputs p { b with seg := v })
  | wrSelChess (v : Byte) : p.variant = .chess → BlockStep p b (renderOutputs p (selectBlock p v b))
  | wrSelConsole (v : Byte) : p.variant = .console → BlockStep p b (scheduleDebounce p (selectBlock p v b))
  | decayFire (l : Line) : isLine p.variant l = true → b.decayDl[l] = some b.now →
      BlockStep p b (renderOutputs p (expireDecay p.variant l b))
  | blinkTick : p.variant = .chess → b.blinkDl = some b.now → BlockStep p b (renderOutputs p (tickBlock p b))
  | debounceFire : p.variant = .console → b.debDl = some b.now → BlockStep p b (renderOutputs p { b with debDl := none })
  | edge : b.rst = false → BlockStep p b (resetBlock p { b with rst := true })
  | level (v : Bool) : (v = false ∨ b.rst = true) → BlockStep p b { b with rst := v }
  | advance (d : Time) : (∀ u ∈ pendingDeadlines p.variant b, b.now + d ≤ u) → BlockStep p b { b with now := b.now + d }
  | restore (c : Block) : Restorable p c → BlockStep p b c

/-- A form that answers a next state makes a step of the block. -/
theorem exec_blockStep {i : Instr} {s t : State} (h : exec i s = .next t) : BlockStep s.params s.block t.block := by
  cases i with
  | rdData => rw [exec_rdData_next] at h; subst h; rw [answer_block, pollKeypad_block]; exact .same
  | rdSel => rw [exec_rdSel_next] at h; subst h; exact .same
  | wrData v => rw [exec_wrData_next] at h; subst h; exact .wrData v
  | wrSel v =>
    cases hv : s.params.variant with
    | chess => rw [exec_wrSel_next_chess v s t hv] at h; subst h; exact .wrSelChess v hv
    | console => rw [exec_wrSel_next_console v s t hv] at h; subst h; exact .wrSelConsole v hv
  | decayFire n => obtain ⟨l, -, hl, hdue, rfl⟩ := (exec_decayFire_next n s t).1 h; exact .decayFire l hl hdue
  | blinkTick => obtain ⟨hv, hdue, rfl⟩ := (exec_blinkTick_next s t).1 h; exact .blinkTick hv hdue
  | debounceFire => obtain ⟨hv, hdue, rfl⟩ := (exec_debounceFire_next s t).1 h; exact .debounceFire hv hdue
  | reset v =>
    obtain ⟨hrst, rfl, rfl⟩ | ⟨hlevel, rfl⟩ := (exec_reset_next v s t).1 h
    · exact .edge hrst
    · refine .level v ?_
      cases v with
      | false => exact .inl rfl
      | true => exact .inr (Bool.eq_true_of_not_eq_false fun hrst => hlevel ⟨hrst, rfl⟩)
  | advance d => obtain ⟨hpass, rfl⟩ := (exec_advance_next d s t).1 h; exact .advance d hpass
  | save => rw [exec_save_next] at h; subst h; exact .same
  | restore img =>
    obtain ⟨hgood, rfl⟩ := (exec_restore_next img s t).1 h
    exact .restore img.block ((badSnapshot_iff_restorable s.params img).1 hgood).2

theorem selectBlock_act (p : Params) (v : Byte) (b : Block) (i : Line) :
    (selectBlock p v b).act[i] = (b.act[i] || rising p.variant b.sel v i) :=
  applyEdges_act p b.sel v { b with sel := v } i.val i.isLt

theorem selectBlock_decayDl (p : Params) (v : Byte) (b : Block) (i : Line) :
    (selectBlock p v b).decayDl[i] =
      if deselect p.variant b.sel v i = true then some (b.now + p.decayDelay) else b.decayDl[i] :=
  applyEdges_decayDl p b.sel v { b with sel := v } i.val i.isLt

/-- The expiry arms nothing. -/
theorem expireDecay_decayDl_some {v : Variant} {l i : Line} {b : Block} {t : Time}
    (h : (expireDecay v l b).decayDl[i] = some t) : i ≠ l ∧ b.decayDl[i] = some t := by
  have hdl := expireDecay_decayDl v l b i.val i.isLt
  by_cases hil : i = l
  · rw [if_pos (congrArg Fin.val hil.symm)] at hdl
    cases hdl.symm.trans h
  · exact ⟨hil, (expireDecay_other v hil b).1.symm.trans h⟩

/-! ## The lines' times -/

theorem earliestStart_console {p : Params} (hv : p.variant = .console) (b : Block) : earliestStart p b = 0 := by
  simp [earliestStart, hv]

theorem earliestStart_chess {p : Params} (hv : p.variant = .chess) {b : Block} {t : Time} (ht : b.blinkDl = some t) :
    earliestStart p b = (if b.bph = true then t else t - p.blinkPeriod) % (2 * p.blinkPeriod) := by
  simp [earliestStart, hv, ht]

theorem earliestStart_congr {p : Params} {b c : Block} (hbph : c.bph = b.bph) (hblink : c.blinkDl = b.blinkDl) :
    earliestStart p c = earliestStart p b := by
  simp only [earliestStart, hbph, hblink]

/-- The history of a restorable block begins before `now`. -/
theorem Restorable.earliestStart_le {p : Params} {b : Block} (h : Restorable p b) : earliestStart p b ≤ b.now := by
  cases hv : p.variant with
  | console => rw [earliestStart_console hv]; exact Nat.zero_le _
  | chess =>
    obtain ⟨t, ht⟩ := Option.ne_none_iff_exists'.1 (h.inv.chess_timers hv).1
    obtain ⟨hnear, hfirst⟩ := (h.chess hv).blink t ht
    rw [earliestStart_chess hv ht]
    cases hbph : b.bph with
    | true =>
      rw [hbph, if_pos rfl] at hfirst
      rw [if_pos rfl, Nat.mod_eq_sub_mod hfirst]
      have hperiod : t ≤ b.now + 2 * p.blinkPeriod :=
        hnear.trans (Nat.add_le_add_left (Nat.le_mul_of_pos_left _ Nat.two_pos) _)
      exact (Nat.mod_le _ _).trans (Nat.sub_le_of_le_add hperiod)
    | false =>
      rw [if_neg Bool.false_ne_true]
      exact (Nat.mod_le _ _).trans (Nat.sub_le_of_le_add hnear)

/-- A due tick keeps the start of the history: BPH and the parity of the tick change together (R201). -/
theorem Restorable.earliestStart_tick {p : Params} {b : Block} (h : Restorable p b) (hv : p.variant = .chess)
    (hdue : b.blinkDl = some b.now) : earliestStart p (tickBlock p b) = earliestStart p b := by
  have hnext : (tickBlock p b).blinkDl = some (b.now + p.blinkPeriod) := rfl
  have hbph' : (tickBlock p b).bph = !b.bph := rfl
  obtain ⟨-, hfirst⟩ := (h.chess hv).blink b.now hdue
  rw [earliestStart_chess hv hdue, earliestStart_chess hv hnext, hbph']
  cases hbph : b.bph with
  | true => simp
  | false =>
    rw [hbph, if_neg Bool.false_ne_true] at hfirst
    have hshift : b.now + p.blinkPeriod = b.now - p.blinkPeriod + 2 * p.blinkPeriod := by
      rw [Nat.two_mul, ← Nat.add_assoc, Nat.sub_add_cancel hfirst]
    simp [hshift]

/-- A step that arms no timer keeps the lines' times. -/
theorem LineTimes.of_sub {p : Params} {b c : Block} (h : LineTimes p b) (hstart : earliestStart p c = earliestStart p b)
    (hnow : b.now ≤ c.now)
    (harmed : ∀ (i : Line) t, c.decayDl[i] = some t → b.decayDl[i] = some t ∧ (b.act[i] = true → c.act[i] = true))
    (habsent : ∀ i : Line, b.act[i] = false → c.act[i] = false) : LineTimes p c where
  armed i t hi ht := by
    obtain ⟨hdl, hact⟩ := harmed i t ht
    obtain ⟨hactive, hfirst, hlast⟩ := h.armed i t hi hdl
    rw [hstart]
    exact ⟨hact hactive, hfirst, hlast.trans (Nat.add_le_add_right hnow _)⟩
  absent i hi := by
    obtain ⟨hact, hdl⟩ := h.absent i hi
    refine ⟨habsent i hact, Option.eq_none_iff_forall_ne_some.2 fun t ht => ?_⟩
    rw [(harmed i t ht).1] at hdl
    cases hdl

/-- The select edges arm at `now`, which is not before the history began. -/
theorem LineTimes.selectBlock {p : Params} {b : Block} (h : Restorable p b) (v : Byte) :
    LineTimes p (selectBlock p v b) where
  armed i t hi ht := by
    rw [selectBlock_decayDl] at ht
    rw [selectBlock_act]
    have hstart : earliestStart p (Machine.selectBlock p v b) = earliestStart p b := rfl
    rw [hstart]
    split at ht
    · rename_i hedge
      cases ht
      have hactive := h.inv.asserted_active i hi ((deselect_iff _ _ _ i).1 hedge).2.1
      exact ⟨by rw [hactive, Bool.true_or], Nat.add_le_add_right h.earliestStart_le _, Nat.le_refl _⟩
    · obtain ⟨hactive, htimes⟩ := h.lines.armed i t hi ht
      exact ⟨by rw [hactive, Bool.true_or], htimes⟩
  absent i hi := by
    obtain ⟨hact, hdl⟩ := h.lines.absent i hi
    rw [selectBlock_act, selectBlock_decayDl]
    simp [rising, deselect, hi, hact, hdl]

theorem LineTimes.renderOutputs {p : Params} {b : Block} (h : LineTimes p b) : LineTimes p (renderOutputs p b) :=
  h.of_sub (earliestStart_congr (renderOutputs_bph p b) (renderOutputs_blinkDl p b)) (renderOutputs_now p b).ge
    (fun i t ht => by rw [renderOutputs_decayDl] at ht; rw [renderOutputs_act]; exact ⟨ht, id⟩)
    (fun i hi => by rw [renderOutputs_act]; exact hi)

theorem lineTimes_resetBlock (p : Params) (b : Block) : LineTimes p (resetBlock p b) where
  armed i t _ ht := by cases (resetBlock_decayDl p b i.val i.isLt).symm.trans ht
  absent i _ := ⟨resetBlock_act p b i.val i.isLt, resetBlock_decayDl p b i.val i.isLt⟩

/-- Every step keeps the lines' times. -/
theorem BlockStep.lineTimes {p : Params} {b c : Block} (hb : Restorable p b) (h : BlockStep p b c) : LineTimes p c := by
  have hkeep : ∀ d : Block, d.decayDl = b.decayDl → d.act = b.act → b.now ≤ d.now →
      earliestStart p d = earliestStart p b → LineTimes p d := by
    intro d hdl hact hnow hstart
    exact hb.lines.of_sub hstart hnow (fun i t ht => ⟨hdl ▸ ht, fun hi => hact ▸ hi⟩) (fun i hi => hact ▸ hi)
  cases h with
  | same => exact hb.lines
  | wrData v => exact (hkeep { b with seg := v } rfl rfl (Nat.le_refl _) rfl).renderOutputs
  | wrSelChess v hv => exact (LineTimes.selectBlock hb v).renderOutputs
  | wrSelConsole v hv =>
    rw [scheduleDebounce_frame]
    exact (LineTimes.selectBlock hb v).of_sub rfl (Nat.le_refl _) (fun i t ht => ⟨ht, id⟩) (fun i hi => hi)
  | decayFire l hl hdue =>
    have hexpired : LineTimes p (expireDecay p.variant l b) := by
      refine hb.lines.of_sub rfl (Nat.le_refl _) (fun i t ht => ?_) (fun i hi => ?_)
      · obtain ⟨hil, hdl⟩ := expireDecay_decayDl_some ht
        exact ⟨hdl, fun hact => (expireDecay_other p.variant hil b).2.trans hact⟩
      · have hact := expireDecay_act p.variant l b i.val i.isLt
        split at hact
        · exact hact.trans ((Bool.and_eq_false_iff).2 (.inl hi))
        · exact hact.trans hi
    exact hexpired.renderOutputs
  | blinkTick hv hdue => exact (hkeep (tickBlock p b) rfl rfl (Nat.le_refl _) (hb.earliestStart_tick hv hdue)).renderOutputs
  | debounceFire hv hdue => exact (hkeep { b with debDl := none } rfl rfl (Nat.le_refl _) rfl).renderOutputs
  | edge hrst => exact lineTimes_resetBlock p _
  | level v hlevel => exact hkeep _ rfl rfl (Nat.le_refl _) rfl
  | advance d hpass => exact hkeep _ rfl rfl (Nat.le_add_right _ _) rfl
  | restore c hc => exact hc.lines

/-! ## CHESS -/

/-- A recompute shows the data, and lights no decimal point (R151, R160). -/
theorem chessShown_renderOutputs {p : Params} {b : Block} (hv : p.variant = .chess)
    (hblink : ∀ t, b.blinkDl = some t →
      t ≤ b.now + p.blinkPeriod ∧ (if b.bph = true then 2 * p.blinkPeriod else p.blinkPeriod) ≤ t)
    (hdark : DecimalPointDark b) (hlamps : b.lampLose = false ∧ b.lampWin = false) :
    ChessShown p (renderOutputs p b) where
  blink := by simpa using hblink
  dark := decimalPointDark_of_recomputed hv (renderOutputs_recomputed p b b ⟨rfl, rfl, rfl⟩) hdark
  shown i hsel := by
    rw [renderOutputs_sel] at hsel
    rw [renderOutputs_out, digitOutput, if_pos hsel]
    exact (shownPattern_congr (renderOutputs_seg p b) (fun _ => renderOutputs_bph p b)).symm
  lamps := by
    obtain ⟨hlose, hwin⟩ := renderOutputs_lamps_chess p b hv
    rw [hlose, hwin]
    exact hlamps

theorem chessShown_resetBlock {p : Params} (hv : p.variant = .chess) (b : Block) : ChessShown p (resetBlock p b) where
  blink t ht := by
    have hstart : blinkStart p b.now = some t := ht
    rw [blinkStart_eq, if_pos hv] at hstart
    cases hstart
    exact ⟨Nat.le_refl _, Nat.le_add_left _ _⟩
  dark i := congrArg (BitVec.getLsbD · 7) (resetBlock_out p b i.val i.isLt)
  shown i hsel := by
    rw [show asserted p.variant (resetBlock p b).sel i.line = false from
      asserted_selReset p.variant i.line (isLine_digit _ i)] at hsel
    cases hsel
  lamps := ⟨rfl, rfl⟩

/-- Every step keeps what CHESS shows. -/
theorem BlockStep.chessShown {p : Params} {b c : Block} (hv : p.variant = .chess) (hb : Restorable p b)
    (h : BlockStep p b c) : ChessShown p c := by
  obtain ⟨hblink, hdark, hshown, hlamps⟩ := hb.chess hv
  have hconsole : p.variant ≠ .console := by simp [hv]
  cases h with
  | same => exact hb.chess hv
  | wrData v => exact chessShown_renderOutputs hv hblink hdark hlamps
  | wrSelChess v _ => exact chessShown_renderOutputs hv hblink hdark hlamps
  | wrSelConsole v hv' => exact absurd hv' hconsole
  | decayFire l hl hdue => exact chessShown_renderOutputs hv hblink hdark hlamps
  | blinkTick _ hdue =>
    obtain ⟨-, hfirst⟩ := hblink b.now hdue
    refine chessShown_renderOutputs hv (fun t ht => ?_) hdark hlamps
    cases ht
    refine ⟨Nat.le_refl _, ?_⟩
    show (if (!b.bph) = true then 2 * p.blinkPeriod else p.blinkPeriod) ≤ b.now + p.blinkPeriod
    cases hbph : b.bph with
    | true => exact Nat.le_add_left _ _
    | false =>
      rw [hbph, if_neg Bool.false_ne_true] at hfirst
      rw [Bool.not_false, if_pos rfl, Nat.two_mul]
      exact Nat.add_le_add_right hfirst _
  | debounceFire hv' _ => exact absurd hv' hconsole
  | edge hrst => exact chessShown_resetBlock hv _
  | level v hlevel => exact ⟨hblink, hdark, hshown, hlamps⟩
  | advance d hpass =>
    refine ⟨fun t ht => ?_, hdark, hshown, hlamps⟩
    obtain ⟨hnear, hfirst⟩ := hblink t ht
    exact ⟨hnear.trans (Nat.add_le_add_right (Nat.le_add_right _ _) _), hfirst⟩
  | restore c hc => exact hc.chess hv

/-! ## CONSOLE -/

/-- What CONSOLE adds, in either case. -/
def ConsoleShown (p : Params) (b : Block) : Prop :=
  (b.debDl = none → Settled p b) ∧ ∀ e, b.debDl = some e → Waiting p b e

theorem armTimes_of_sub {p : Params} {b c : Block}
    (h : ∀ (i : Line) t, c.decayDl[i] = some t → b.decayDl[i] = some t) {u : Time} (hu : u ∈ armTimes p c) :
    u ∈ armTimes p b := by
  obtain ⟨i, t, ht, rfl⟩ := (mem_armTimes p c u).1 hu
  exact (mem_armTimes p b _).2 ⟨i, t, h i t ht, rfl⟩

theorem armTimes_congr {p : Params} {b c : Block} (h : c.decayDl = b.decayDl) : armTimes p c = armTimes p b := by
  rw [armTimes, armTimes, h]

/-- A pending timer was armed by `now` (R181). -/
theorem LineTimes.armTimes_le {p : Params} {b : Block} (hv : p.variant = .console) (h : LineTimes p b) {u : Time}
    (hu : u ∈ armTimes p b) : u ≤ b.now := by
  obtain ⟨i, t, ht, rfl⟩ := (mem_armTimes p b u).1 hu
  exact Nat.sub_le_of_le_add (h.armed i t (hv ▸ isLine_console i) ht).2.2

/-- The select edges arm at `now`. -/
theorem armTimes_selectBlock {p : Params} {b : Block} {v : Byte} {u : Time} (hu : u ∈ armTimes p (selectBlock p v b)) :
    u ∈ armTimes p b ∨ u = b.now := by
  obtain ⟨i, t, ht, rfl⟩ := (mem_armTimes p _ u).1 hu
  rw [selectBlock_decayDl] at ht
  split at ht
  · cases ht
    exact .inr (Nat.add_sub_cancel _ _)
  · exact .inl ((mem_armTimes p b _).2 ⟨i, t, ht, rfl⟩)

/-- A settled lamp waits for nothing. -/
theorem lampWaits_of_eq {p : Params} {b : Block} {e : Time} {lamp : Bool} {i : Line} (h : lamp = b.act[i]) :
    LampWaits p b e lamp i := by
  cases lamp with
  | true => exact .inl rfl
  | false => exact .inr (.inl h.symm)

/-- After a recompute the outputs pass the tests of CONSOLE; what is left are those of the times. -/
theorem consoleShown_renderOutputs {p : Params} {b : Block} (hv : p.variant = .console)
    (hsettled : b.debDl = none → ((b.sel = 0 ∧ ∀ i : Line, b.act[i] = false) ∨ p.debounceDelay ≤ b.now) ∧
      writesSettled p b.now (armTimes p b) = true)
    (hwaiting : ∀ e, b.debDl = some e → p.debounceDelay ≤ e ∧ e ≤ b.now + p.debounceDelay ∧
      writesBefore p e (armTimes p b) = true) : ConsoleShown p (renderOutputs p b) := by
  have hshown : ∀ i : Digit, asserted p.variant (renderOutputs p b).sel i.line = true →
      (renderOutputs p b).out[i] = shownPattern p (renderOutputs p b) := by
    intro i hsel
    rw [renderOutputs_sel] at hsel
    rw [renderOutputs_out, digitOutput, if_pos hsel]
    exact (shownPattern_congr (renderOutputs_seg p b) (fun _ => renderOutputs_bph p b)).symm
  have hlamps : (renderOutputs p b).lampLose = (renderOutputs p b).act[4] ∧
      (renderOutputs p b).lampWin = (renderOutputs p b).act[5] := by
    simpa using renderOutputs_lamps_console p b hv
  have htimes : armTimes p (renderOutputs p b) = armTimes p b := armTimes_congr (renderOutputs_decayDl p b)
  constructor
  · intro hnone
    rw [renderOutputs_debDl] at hnone
    obtain ⟨hwritten, hwrites⟩ := hsettled hnone
    exact ⟨hshown, hlamps, by simpa using hwritten, by rw [renderOutputs_now, htimes]; exact hwrites⟩
  · intro e he
    rw [renderOutputs_debDl] at he
    obtain ⟨hbegun, hnear, hwrites⟩ := hwaiting e he
    exact ⟨hbegun, by rw [renderOutputs_now]; exact hnear, fun i hsel => .inr (.inr (hshown i hsel)),
      lampWaits_of_eq hlamps.1, lampWaits_of_eq hlamps.2, htimes.symm ▸ hwrites⟩

theorem consoleShown_resetBlock (p : Params) (b : Block) (hv : p.variant = .console) :
    ConsoleShown p (resetBlock p b) := by
  refine ⟨fun _ => ⟨fun i hsel => ?shown, ⟨rfl, rfl⟩, .inl ⟨?sel, fun i => resetBlock_act p b i.val i.isLt⟩, ?writes⟩, nofun⟩
  case shown =>
    rw [show asserted p.variant (resetBlock p b).sel i.line = false from
      asserted_selReset p.variant i.line (isLine_digit _ i)] at hsel
    cases hsel
  case sel => exact (selReset_eq p.variant).trans (if_neg (by simp [hv]))
  case writes =>
    have hnone : armTimes p (resetBlock p b) = [] := by
      refine List.eq_nil_iff_forall_not_mem.2 fun u hu => ?_
      obtain ⟨i, t, ht, -⟩ := (mem_armTimes p _ u).1 hu
      cases (resetBlock_decayDl p b i.val i.isLt).symm.trans ht
    rw [hnone, writesSettled_iff]
    exact ⟨fun _ => ⟨[], Nat.zero_le _, nofun⟩, fun _ => nofun⟩

/-- A digit after the select edges: newly selected, it has its old timer or was inactive and blank; selected before, it is as
it was. -/
theorem waitingDigit_selectBlock {p : Params} {b : Block} {v : Byte} (hb : Restorable p b) (i : Digit)
    (hsel : asserted p.variant v i.line = true)
    (hold : asserted p.variant b.sel i.line = true →
      b.decayDl[i.line] ≠ none ∨ b.out[i] = 0 ∨ b.out[i] = shownPattern p b) :
    (selectBlock p v b).decayDl[i.line] ≠ none ∨ b.out[i] = 0 ∨ b.out[i] = shownPattern p b := by
  have hdl : (selectBlock p v b).decayDl[i.line] = b.decayDl[i.line] := by
    rw [selectBlock_decayDl, if_neg (by simp [deselect, hsel])]
  rw [hdl]
  cases hwas : asserted p.variant b.sel i.line with
  | true => exact hold hwas
  | false =>
    by_cases hlit : b.out[i] = 0
    · exact .inr (.inl hlit)
    · exact .inl (hb.inv.active_armed i.line (isLine_digit _ i) hwas (hb.inv.lit_active i hlit))

/-- A lamp after the select edges waits as before: its line's timer may be armed just now. -/
theorem lampWaits_wrSel {p : Params} {b : Block} {v : Byte} {e : Time} {lamp : Bool} {i : Line}
    (hv : p.variant = .console) (hb : Restorable p b) (hnear : e ≤ b.now + p.debounceDelay)
    (h : LampWaits p b e lamp i) : LampWaits p (scheduleDebounce p (selectBlock p v b)) e lamp i := by
  unfold LampWaits
  rw [scheduleDebounce_decayDl, selectBlock_decayDl]
  rcases h with hlit | hdark | hmode | htimer
  · exact .inl hlit
  · refine .inr (.inr (.inr fun t ht => ?_))
    have hi := hv ▸ isLine_console i
    have hunasserted : asserted p.variant b.sel i = false :=
      Bool.eq_false_of_not_eq_true fun hsel => ne_true_of_eq_false hdark (hb.inv.asserted_active i hi hsel)
    rw [if_neg (by simp [deselect, hunasserted])] at ht
    exact absurd (hb.lines.armed i t hi ht).1 (ne_true_of_eq_false hdark)
  · exact .inr (.inr (.inl hmode))
  · refine .inr (.inr (.inr fun t ht => ?_))
    split at ht
    · cases ht
      calc e + p.decayDelay ≤ b.now + p.debounceDelay + p.decayDelay := Nat.add_le_add_right hnear _
        _ = b.now + p.decayDelay + p.debounceDelay := Nat.add_right_comm _ _ _
    · exact htimer t ht

/-- What waits for `u` waits for the deadline a write moved it to. -/
theorem LampWaits.moved {p : Params} {b : Block} {u e : Time} {lamp : Bool} {i : Line} (h : LampWaits p b u lamp i)
    (he : e = if p.debounceMode = .reschedule then b.now + p.debounceDelay else u) (hahead : b.now ≤ u) :
    LampWaits p b e lamp i := by
  rcases h with hlit | hdark | hmode | htimer
  · exact .inl hlit
  · exact .inr (.inl hdark)
  · exact .inr (.inr (.inl hmode))
  · by_cases hmode : p.debounceMode = .reschedule ∧ 0 < p.debounceDelay
    · exact .inr (.inr (.inl hmode))
    · have heu : e ≤ u := by
        rw [he]
        split
        · rename_i hresched
          rw [Nat.eq_zero_of_not_pos fun hpos => hmode ⟨hresched, hpos⟩]
          exact hahead
        · exact Nat.le_refl _
      exact .inr (.inr (.inr fun t ht => (Nat.add_le_add_right heu _).trans (htimer t ht)))

/-- The tests of a pending recompute after WR SEL, from those before it and the new deadline's. -/
theorem waiting_wrSel {p : Params} {b : Block} {v : Byte} {e : Time} (hv : p.variant = .console) (hb : Restorable p b)
    (hbegun : p.debounceDelay ≤ e) (hnear : e ≤ b.now + p.debounceDelay)
    (hdigit : ∀ i : Digit, asserted p.variant b.sel i.line = true →
      b.decayDl[i.line] ≠ none ∨ b.out[i] = 0 ∨ b.out[i] = shownPattern p b)
    (hlose : LampWaits p b e b.lampLose 4) (hwin : LampWaits p b e b.lampWin 5)
    (hwrites : writesBefore p e (armTimes p (selectBlock p v b)) = true) :
    Waiting p (scheduleDebounce p (selectBlock p v b)) e where
  begun := hbegun
  near := by rw [scheduleDebounce_now]; exact hnear
  digit i hsel := by
    rw [scheduleDebounce_sel] at hsel
    rw [scheduleDebounce_decayDl, scheduleDebounce_out,
      show shownPattern p (scheduleDebounce p (selectBlock p v b)) = shownPattern p b by
        rw [scheduleDebounce_frame]; rfl]
    exact waitingDigit_selectBlock hb i hsel (hdigit i)
  lose := by rw [scheduleDebounce_lampLose]; exact lampWaits_wrSel hv hb hnear hlose
  win := by rw [scheduleDebounce_lampWin]; exact lampWaits_wrSel hv hb hnear hwin
  writes := by rw [armTimes_congr (scheduleDebounce_decayDl p _)]; exact hwrites

/-- WR SEL leaves a pending recompute, and the tests of what it waits for hold (R124). -/
theorem consoleShown_wrSel {p : Params} {b : Block} (hv : p.variant = .console) (hb : Restorable p b) (v : Byte) :
    ConsoleShown p (scheduleDebounce p (selectBlock p v b)) := by
  have hdeb : (scheduleDebounce p (selectBlock p v b)).debDl =
      if b.debDl = none ∨ p.debounceMode = .reschedule then some (b.now + p.debounceDelay) else b.debDl :=
    scheduleDebounce_debDl p (selectBlock p v b)
  rw [ConsoleShown, hdeb]
  cases hold : b.debDl with
  | none =>
    rw [if_pos (.inl rfl)]
    refine ⟨nofun, fun e he => ?_⟩
    cases he
    obtain ⟨hshown, ⟨hlose, hwin⟩, -, hwrites⟩ := hb.settled hv hold
    exact waiting_wrSel hv hb (Nat.le_add_left _ _) (Nat.le_refl _) (fun i hsel => .inr (.inr (hshown i hsel)))
      (lampWaits_of_eq hlose) (lampWaits_of_eq hwin)
      (writesBefore_of_writesSettled hwrites fun t => armTimes_selectBlock)
  | some u =>
    have hmoved : (if some u = none ∨ p.debounceMode = .reschedule then some (b.now + p.debounceDelay) else some u) =
        some (if p.debounceMode = .reschedule then b.now + p.debounceDelay else u) := by
      simp only [reduceCtorEq, false_or]
      exact (apply_ite some _ _ _).symm
    rw [hmoved]
    refine ⟨nofun, fun e he => ?_⟩
    have he' : e = if p.debounceMode = .reschedule then b.now + p.debounceDelay else u := (Option.some.inj he).symm
    obtain ⟨hbegun, hnear, hdigit, hlose, hwin, hwrites⟩ := hb.waiting hv u hold
    have hahead : b.now ≤ u := hb.inv.debounce_ahead u hold
    have hbegun' : p.debounceDelay ≤ e := by
      rw [he']
      split
      · exact Nat.le_add_left _ _
      · exact hbegun
    have hnear' : e ≤ b.now + p.debounceDelay := by
      rw [he']
      split
      · exact Nat.le_refl _
      · exact hnear
    exact waiting_wrSel hv hb hbegun' hnear' hdigit (hlose.moved he' hahead) (hwin.moved he' hahead)
      (writesBefore_write hwrites hnear he' fun t => armTimes_selectBlock)

/-- Every step keeps what CONSOLE shows. -/
theorem BlockStep.consoleShown {p : Params} {b c : Block} (hv : p.variant = .console) (hb : Restorable p b)
    (h : BlockStep p b c) : ConsoleShown p c := by
  have hchess : p.variant ≠ .chess := by simp [hv]
  have hsame : ConsoleShown p b := ⟨hb.settled hv, hb.waiting hv⟩
  cases h with
  | same => exact hsame
  | wrData v =>
    exact consoleShown_renderOutputs hv (fun hnone => ⟨(hsame.1 hnone).written, (hsame.1 hnone).writes⟩)
      (fun e he => ⟨(hsame.2 e he).begun, (hsame.2 e he).near, (hsame.2 e he).writes⟩)
  | wrSelChess v hv' => exact absurd hv' hchess
  | wrSelConsole v _ => exact consoleShown_wrSel hv hb v
  | decayFire l hl hdue =>
    have hsub : ∀ u ∈ armTimes p (expireDecay p.variant l b), u ∈ armTimes p b :=
      fun u => armTimes_of_sub fun i t ht => (expireDecay_decayDl_some ht).2
    refine consoleShown_renderOutputs hv (fun hnone => ⟨?written, ?settled⟩) (fun e he => ?waiting)
    case written =>
      refine (hsame.1 hnone).written.imp_left fun ⟨hsel, hact⟩ => ⟨hsel, fun i => ?_⟩
      refine (expireDecay_act p.variant l b i.val i.isLt).trans ?_
      split
      · exact (Bool.and_eq_false_iff).2 (.inl (hact i))
      · exact hact i
    case settled => exact writesSettled_mono (hsame.1 hnone).writes (Nat.le_refl _) hsub
    case waiting => exact ⟨(hsame.2 e he).begun, (hsame.2 e he).near, writesBefore_mono (hsame.2 e he).writes hsub⟩
  | blinkTick hv' _ => exact absurd hv' hchess
  | debounceFire _ hdue =>
    obtain ⟨hbegun, -, -, -, -, hwrites⟩ := hsame.2 b.now hdue
    exact consoleShown_renderOutputs hv
      (fun _ => ⟨.inr hbegun, writesSettled_of_writesBefore hbegun hwrites fun u => hb.lines.armTimes_le hv⟩) nofun
  | edge hrst => exact consoleShown_resetBlock p _ hv
  | level v hlevel =>
    refine ⟨fun hnone => ?_, fun e he => ?_⟩
    · obtain ⟨hshown, hlamps, hwritten, hwrites⟩ := hsame.1 hnone
      exact ⟨hshown, hlamps, hwritten, hwrites⟩
    · obtain ⟨hbegun, hnear, hdigit, hlose, hwin, hwrites⟩ := hsame.2 e he
      exact ⟨hbegun, hnear, hdigit, hlose, hwin, hwrites⟩
  | advance d hpass =>
    refine ⟨fun hnone => ?_, fun e he => ?_⟩
    · obtain ⟨hshown, hlamps, hwritten, hwrites⟩ := hsame.1 hnone
      exact ⟨hshown, hlamps, hwritten.imp_right (Nat.le_trans · (Nat.le_add_right _ _)),
        writesSettled_mono hwrites (Nat.le_add_right _ _) fun _ => id⟩
    · obtain ⟨hbegun, hnear, hdigit, hlose, hwin, hwrites⟩ := hsame.2 e he
      exact ⟨hbegun, hnear.trans (Nat.add_le_add_right (Nat.le_add_right _ _) _), hdigit, hlose, hwin, hwrites⟩
  | restore c hc => exact ⟨hc.settled hv, hc.waiting hv⟩

/-! ## Every step -/

/-- The reset edge, and with it power-on, leaves a restorable block (R270, R271). -/
theorem restorable_resetBlock (p : Params) (b : Block) : Restorable p (resetBlock p b) where
  inv := inv_resetBlock p b
  lines := lineTimes_resetBlock p b
  chess hv := chessShown_resetBlock hv b
  settled hv := (consoleShown_resetBlock p b hv).1
  waiting hv := (consoleShown_resetBlock p b hv).2

/-- Every form that answers a next state leads from a restorable block to a restorable block. -/
theorem exec_keeps_restorable {i : Instr} {s t : State} (hs : Restorable s.params s.block) (h : exec i s = .next t) :
    Restorable t.params t.block := by
  have hstep := exec_blockStep h
  have hinv : Consistent t := exec_keeps_consistent hs.inv h
  have hparams := exec_params i s t h
  unfold Consistent at hinv
  rw [hparams] at hinv ⊢
  exact ⟨hinv, hstep.lineTimes hs, fun hv => hstep.chessShown hv hs, fun hv => (hstep.consoleShown hv hs).1,
    fun hv => (hstep.consoleShown hv hs).2⟩

/-- Settles O55: power-on is a reset edge at time 0. -/
theorem powerOnSnapshotIsRestorable : Obligations.PowerOnSnapshotIsRestorable :=
  fun p => (badSnapshot_snapshot_iff (State.powerOn p)).2 (restorable_resetBlock p (powerOn p))

/-- Settles O56: the image passes exactly if the block is restorable, which every form keeps. -/
theorem stepKeepsTheSnapshotRestorable : Obligations.StepKeepsTheSnapshotRestorable := by
  refine ⟨fun i s t hs h => ?form, fun s t hs h => ?step⟩
  case form =>
    rw [badSnapshot_snapshot_iff] at hs ⊢
    exact exec_keeps_restorable hs h
  case step =>
    obtain ⟨st, rest, i, -, -, hexec⟩ := step_next_exec h
    rw [badSnapshot_snapshot_iff] at hs ⊢
    exact @exec_keeps_restorable i { s with stimuli := rest } t hs hexec

/-! ## Reached states -/

/-- A reached state's block is restorable (R233). -/
theorem reaches_restorable {p : Params} {t : State} (h : Reaches p t) : Restorable t.params t.block := by
  induction h with
  | start => exact restorable_resetBlock p (powerOn p)
  | next s t i _ _ hexec ih => exact exec_keeps_restorable ih hexec

/-- RESTORE of a reached state's image replaces the block. -/
theorem exec_restore_reached {s t : State} (h : Reaches s.params t) :
    exec (.restore ⟨t.params.variant, t.block⟩) s = .next (s.withBlock t.block) := by
  have hgood := (badSnapshot_snapshot_iff t).2 (reaches_restorable h)
  rw [reaches_params h] at hgood
  rw [reaches_params h]
  refine (exec_restore_next _ s _).2 ⟨?_, rfl⟩
  rwa [snapshot, reaches_params h] at hgood

/-- Settles O47: every reached block is restorable. -/
theorem restoreTakesEveryReachableImage : Obligations.RestoreTakesEveryReachableImage :=
  fun _ _ h => exec_restore_reached h

/-- Settles O48: SAVE's image is the reached state's, and RESTORE takes it and emits nothing. -/
theorem savedImageRestoresTheSavedBlock : Obligations.SavedImageRestoresTheSavedBlock := by
  intro s t hreach h
  rw [exec_save_next] at h
  refine ⟨snapshot s, by rw [h], fun u hu => ?_⟩
  exact ⟨_, exec_restore_reached (hu ▸ hreach), rfl, rfl⟩

end Sys2Proof.Machine
end

section
/-! PROOFS. Building reached blocks (rule R233, the refusal half): which forms lead from a reached block to which, element by
element, and quiet blocks, in which no line is asserted and some lines decay. -/

namespace Sys2Proof.Machine

open Sys2Proof.Safety

/-! ## Reached blocks -/

/-- The block of a state reached from power-on without RESTORE. -/
def Reached (p : Params) (b : Block) : Prop := ∃ t, Reaches p t ∧ t.block = b

theorem Reached.restorable {p : Params} {b : Block} (h : Reached p b) : Restorable p b := by
  obtain ⟨t, ht, rfl⟩ := h
  have hres := reaches_restorable ht
  rwa [reaches_params ht] at hres

/-- A form that is no RESTORE leads from a reached block to a reached block. -/
theorem Reached.exec {p : Params} {b : Block} (h : Reached p b) (i : Instr) (hi : ¬ IsRestore i) {c : Block}
    (hexec : ∀ s : State, s.params = p → s.block = b → ∃ t, exec i s = .next t ∧ t.block = c) : Reached p c := by
  obtain ⟨s, hs, hb⟩ := h
  obtain ⟨t, ht, hc⟩ := hexec s (reaches_params hs) hb
  exact ⟨t, .next s t i hs hi ht, hc⟩

theorem Reached.advance {p : Params} {b : Block} (h : Reached p b) (d : Time)
    (hpass : ∀ u ∈ pendingDeadlines p.variant b, b.now + d ≤ u) : Reached p { b with now := b.now + d } := by
  refine h.exec (.advance d) nofun fun s hp hb => ?_
  subst hp hb
  exact ⟨_, (exec_advance_next d s _).2 ⟨hpass, rfl⟩, rfl⟩

theorem Reached.resetEdge {p : Params} {b : Block} (h : Reached p b) (hrst : b.rst = false) :
    Reached p (resetBlock p { b with rst := true }) := by
  refine h.exec (.reset true) nofun fun s hp hb => ?_
  subst hp hb
  exact ⟨_, execReset_edge s hrst, rfl⟩

theorem Reached.release {p : Params} {b : Block} (h : Reached p b) : Reached p { b with rst := false } := by
  refine h.exec (.reset false) nofun fun s hp hb => ?_
  subst hp hb
  exact ⟨_, execReset_level false s (by simp), rfl⟩

theorem Reached.blinkTick {p : Params} {b : Block} (h : Reached p b) (hv : p.variant = .chess)
    (hdue : b.blinkDl = some b.now) : Reached p (renderOutputs p (tickBlock p b)) := by
  refine h.exec .blinkTick nofun fun s hp hb => ?_
  subst hp hb
  exact ⟨_, (exec_blinkTick_next s _).2 ⟨hv, hdue, rfl⟩, rfl⟩

theorem Reached.debounceFire {p : Params} {b : Block} (h : Reached p b) (hv : p.variant = .console)
    (hdue : b.debDl = some b.now) : Reached p (renderOutputs p { b with debDl := none }) := by
  refine h.exec .debounceFire nofun fun s hp hb => ?_
  subst hp hb
  exact ⟨_, (exec_debounceFire_next s _).2 ⟨hv, hdue, rfl⟩, rfl⟩

theorem Reached.wrData {p : Params} {b : Block} (h : Reached p b) (v : Byte) :
    Reached p (renderOutputs p { b with seg := v }) := by
  refine h.exec (.wrData v) nofun fun s hp hb => ?_
  subst hp hb
  exact ⟨_, (exec_wrData_next v s _).2 rfl, rfl⟩

/-- The elements that neither write touches. -/
structure SameCore (b c : Block) : Prop where
  bph : c.bph = b.bph
  blinkDl : c.blinkDl = b.blinkDl
  rst : c.rst = b.rst
  now : c.now = b.now

/-- The deadline of the recompute that a select write at `now` leaves pending (R124). -/
def debounceAfter (p : Params) (now : Time) (deb : Option Time) : Option Time :=
  if deb = none ∨ p.debounceMode = .reschedule then some (now + p.debounceDelay) else deb

/-- What WR SEL `v` makes of block `b`, element by element. -/
structure SelWritten (p : Params) (v : Byte) (b c : Block) : Prop where
  core : SameCore b c
  sel : c.sel = v
  seg : c.seg = b.seg
  act : ∀ i : Line, c.act[i] = (b.act[i] || rising p.variant b.sel v i)
  decayDl : ∀ i : Line, c.decayDl[i] =
    if deselect p.variant b.sel v i = true then some (b.now + p.decayDelay) else b.decayDl[i]
  chess : p.variant = .chess → c.debDl = b.debDl ∧ c.lampLose = b.lampLose ∧ c.lampWin = b.lampWin ∧
    ∀ d : Digit, c.out[d] = digitOutput p (selectBlock p v b) d
  console : p.variant = .console → c.debDl = debounceAfter p b.now b.debDl ∧ SameOutputs b c

theorem selWritten_chess {p : Params} (hv : p.variant = .chess) (v : Byte) (b : Block) :
    SelWritten p v b (renderOutputs p (selectBlock p v b)) where
  core := ⟨renderOutputs_bph p _, renderOutputs_blinkDl p _, renderOutputs_rst p _, renderOutputs_now p _⟩
  sel := renderOutputs_sel p _
  seg := renderOutputs_seg p _
  act i := by rw [renderOutputs_act, selectBlock_act]
  decayDl i := by rw [renderOutputs_decayDl, selectBlock_decayDl]
  chess _ := by
    obtain ⟨hlose, hwin⟩ := renderOutputs_lamps_chess p (selectBlock p v b) hv
    exact ⟨renderOutputs_debDl p _, hlose, hwin, renderOutputs_out p _⟩
  console hv' := nomatch hv.symm.trans hv'

theorem selWritten_console {p : Params} (hv : p.variant = .console) (v : Byte) (b : Block) :
    SelWritten p v b (scheduleDebounce p (selectBlock p v b)) where
  core := ⟨scheduleDebounce_bph p _, scheduleDebounce_blinkDl p _, scheduleDebounce_rst p _, scheduleDebounce_now p _⟩
  sel := scheduleDebounce_sel p _
  seg := scheduleDebounce_seg p _
  act i := by rw [scheduleDebounce_act, selectBlock_act]
  decayDl i := by rw [scheduleDebounce_decayDl, selectBlock_decayDl]
  chess hv' := nomatch hv.symm.trans hv'
  console _ := ⟨scheduleDebounce_debDl p _, scheduleDebounce_sameOutputs p (selectBlock p v b)⟩

theorem Reached.wrSel {p : Params} {b : Block} (h : Reached p b) (v : Byte) : ∃ c, Reached p c ∧ SelWritten p v b c := by
  cases hv : p.variant with
  | chess =>
    refine ⟨renderOutputs p (selectBlock p v b), h.exec (.wrSel v) nofun fun s hp hb => ?_, selWritten_chess hv v b⟩
    subst hp hb
    exact ⟨_, (exec_wrSel_next_chess v s _ hv).2 rfl, rfl⟩
  | console =>
    refine ⟨scheduleDebounce p (selectBlock p v b), h.exec (.wrSel v) nofun fun s hp hb => ?_, selWritten_console hv v b⟩
    subst hp hb
    exact ⟨_, (exec_wrSel_next_console v s _ hv).2 rfl, rfl⟩

/-- A digit that `v` leaves unselected keeps its pattern under WR SEL, if it is blank while inactive. -/
theorem SelWritten.out_unselected {p : Params} {v : Byte} {b c : Block} (h : SelWritten p v b c) {d : Digit}
    (hsel : asserted p.variant v d.line = false) (hblank : b.act[d.line] = false → b.out[d] = 0) :
    c.out[d] = b.out[d] := by
  cases hv : p.variant with
  | console =>
    obtain ⟨-, hout, -⟩ := h.console hv
    rw [hout]
  | chess =>
    obtain ⟨-, -, -, hout⟩ := h.chess hv
    have hstored : (selectBlock p v b).sel = v := rfl
    rw [hout d, digitOutput, hstored, if_neg (ne_true_of_eq_false hsel), selectBlock_act]
    have hrising : rising p.variant b.sel v d.line = false := by simp [rising, hsel]
    rw [hrising, Bool.or_false]
    cases hact : b.act[d.line] with
    | true => rfl
    | false => exact (hblank hact).symm

/-- After WR SEL the active lines are those active before and those the byte asserts. -/
theorem SelWritten.act_iff {p : Params} {v : Byte} {b c : Block} (h : SelWritten p v b c) (hb : Reached p b) (i : Line) :
    c.act[i] = true ↔ b.act[i] = true ∨ (isLine p.variant i = true ∧ asserted p.variant v i = true) := by
  rw [h.act i, Bool.or_eq_true, rising_iff]
  refine or_congr_right' fun hinactive => and_congr_right fun hi => and_iff_right ?_
  by_contra hsel
  exact hinactive (hb.restorable.inv.asserted_active i hi (Bool.eq_true_of_not_eq_false hsel))

/-- WR SEL arms a line that was asserted and is no longer. -/
theorem SelWritten.decayDl_deselected {p : Params} {v : Byte} {b c : Block} (h : SelWritten p v b c) {i : Line}
    (hi : isLine p.variant i = true) (hold : asserted p.variant b.sel i = true)
    (hnew : asserted p.variant v i = false) : c.decayDl[i] = some (b.now + p.decayDelay) := by
  rw [h.decayDl i, if_pos ((deselect_iff _ _ _ i).2 ⟨hi, hold, hnew⟩)]

/-- WR SEL leaves the timer of a line that was not asserted or still is. -/
theorem SelWritten.decayDl_kept {p : Params} {v : Byte} {b c : Block} (h : SelWritten p v b c) {i : Line}
    (hkeep : isLine p.variant i = true → asserted p.variant b.sel i = true → asserted p.variant v i = true) :
    c.decayDl[i] = b.decayDl[i] := by
  rw [h.decayDl i, if_neg]
  intro hedge
  obtain ⟨hi, hold, hnew⟩ := (deselect_iff _ _ _ i).1 hedge
  rw [hkeep hi hold] at hnew
  cases hnew

/-- What WR DATA `v`, or another recompute, makes of block `b`, element by element; `b` has the byte stored already. -/
structure DataShown (p : Params) (b c : Block) : Prop where
  core : SameCore b c
  sel : c.sel = b.sel
  seg : c.seg = b.seg
  act : ∀ i : Line, c.act[i] = b.act[i]
  decayDl : ∀ i : Line, c.decayDl[i] = b.decayDl[i]
  debDl : c.debDl = b.debDl
  out : ∀ d : Digit, c.out[d] = digitOutput p b d
  chess : p.variant = .chess → c.lampLose = b.lampLose ∧ c.lampWin = b.lampWin
  console : p.variant = .console → c.lampLose = b.act[4] ∧ c.lampWin = b.act[5]

theorem dataShown_renderOutputs (p : Params) (b : Block) : DataShown p b (renderOutputs p b) where
  core := ⟨by simp, by simp, by simp, by simp⟩
  sel := by simp
  seg := by simp
  act i := by simp
  decayDl i := by simp
  debDl := by simp
  out := renderOutputs_out p b
  chess := renderOutputs_lamps_chess p b
  console := renderOutputs_lamps_console p b

theorem DataShown.out_selected {p : Params} {b c : Block} (h : DataShown p b c) {d : Digit}
    (hsel : asserted p.variant b.sel d.line = true) : c.out[d] = shownPattern p b := by
  rw [h.out d, digitOutput, if_pos hsel]

/-- An unselected digit keeps its pattern under a recompute, if it is blank while inactive. -/
theorem DataShown.out_unselected {p : Params} {b c : Block} (h : DataShown p b c) {d : Digit}
    (hsel : asserted p.variant b.sel d.line = false) (hblank : b.act[d.line] = false → b.out[d] = 0) :
    c.out[d] = b.out[d] := by
  rw [h.out d, digitOutput, if_neg (ne_true_of_eq_false hsel)]
  cases hact : b.act[d.line] with
  | true => rfl
  | false => exact (hblank hact).symm

/-- Two blocks with the same elements are the same. -/
theorem block_ext {b c : Block} (hcore : SameCore b c) (hsel : c.sel = b.sel) (hseg : c.seg = b.seg)
    (hact : ∀ i : Line, c.act[i] = b.act[i]) (hdl : ∀ i : Line, c.decayDl[i] = b.decayDl[i]) (hdeb : c.debDl = b.debDl)
    (hout : ∀ d : Digit, c.out[d] = b.out[d]) (hlose : c.lampLose = b.lampLose) (hwin : c.lampWin = b.lampWin) : c = b := by
  have hact' : c.act = b.act := Vector.ext fun k hk => hact ⟨k, hk⟩
  have hdl' : c.decayDl = b.decayDl := Vector.ext fun k hk => hdl ⟨k, hk⟩
  have hout' : c.out = b.out := Vector.ext fun k hk => hout ⟨k, hk⟩
  obtain ⟨hbph, hblink, hrst, hnow⟩ := hcore
  cases b
  cases c
  simp only at hsel hseg hact' hbph hout' hlose hwin hdl' hdeb hblink hrst hnow
  subst hsel hseg hact' hbph hout' hlose hwin hdl' hdeb hblink hrst hnow
  rfl

/-! ## Blank blocks -/

/-- The block at time `τ` of a machine in which nothing has happened since a start then, with the reset level `r`. -/
def blankBlock (p : Params) (r : Bool) (τ : Time) : Block :=
  { powerOn p with blinkDl := blinkStart p τ, rst := r, now := τ }

/-- Blank blocks are reached at every time, by a reset edge each nanosecond: the oscillator never comes to tick. -/
theorem reached_blankBlock {p : Params} (hperiod : 0 < p.blinkPeriod) (r : Bool) (τ : Time) :
    Reached p (blankBlock p r τ) := by
  have hedge : ∀ σ, Reached p (blankBlock p false σ) → Reached p (blankBlock p true σ) := fun σ h => h.resetEdge rfl
  have hlow : Reached p (blankBlock p false τ) := by
    induction τ with
    | zero => exact ⟨_, .start, rfl⟩
    | succ σ ih =>
      have hlater : Reached p { blankBlock p false σ with now := σ + 1 } := by
        refine ih.advance 1 fun u hu => ?_
        rcases (mem_pendingDeadlines _ _ u).1 hu with ⟨i, -, hdl⟩ | hdl | hdl
        · cases (powerOn_decayDl p i.val i.isLt).symm.trans hdl
        · cases hdl
        · have hstart : blinkStart p σ = some u := hdl
          rw [blinkStart_eq] at hstart
          split at hstart
          · cases hstart; exact Nat.add_le_add_left hperiod σ
          · cases hstart
      have hhigh : Reached p (blankBlock p true (σ + 1)) := hlater.resetEdge rfl
      exact hhigh.release
  cases r with
  | false => exact hlow
  | true => exact hedge τ hlow

/-! ## Select bytes and patterns -/

/-- There is a select byte that asserts any given lines. -/
theorem exists_select (v : Variant) (S : Line → Prop) : ∃ x : Byte, ∀ i, asserted v x i = true ↔ S i := by
  classical
  let bits : Fin 8 → Bool := fun k => if h : k.val < 6 then decide (S ⟨k.val, h⟩) != selActiveLow v else false
  refine ⟨BitVec.ofFnLE bits, fun i => ?_⟩
  have hbit : (BitVec.ofFnLE bits).getLsbD i.val = (decide (S i) != selActiveLow v) := by
    have hlt : i.val < 8 := by omega
    simp [hlt, bits]
  unfold asserted
  rw [hbit]
  cases v <;> simp [selActiveLow]

/-- A bijective wiring shows every pattern (R14). -/
theorem exists_permute {P : BitPerm} (hP : P.Bijective) (x : Byte) : ∃ s, permute P s = x := by
  have hinj : Function.Injective fun k : Fin 8 => P[k] := fun j k h => hP j k h
  let wire := Equiv.ofBijective _ (Finite.injective_iff_bijective.1 hinj)
  refine ⟨BitVec.ofFnLE fun j => x.getLsbD (wire.symm j).val, BitVec.eq_of_getLsbD_eq fun k hk => ?_⟩
  have hwire : wire.symm P[k] = ⟨k, hk⟩ := wire.symm_apply_apply ⟨k, hk⟩
  refine (permute_getLsbD P _ ⟨k, hk⟩).trans ?_
  simpa [hwire] using (BitVec.getLsbD_eq_getElem hk).symm

/-- A byte of SEG that shows a given pattern, where the phase does not matter: in CHESS one without a decimal point. -/
theorem exists_shownPattern {p : Params} (hchess : p.wiring.segPermChess.Bijective)
    (hconsole : p.wiring.segPermConsole.Bijective) (x : Byte) (hdark : p.variant = .chess → x.getLsbD 7 = false) :
    ∃ s : Byte, ∀ b : Block, b.seg = s → shownPattern p b = x := by
  cases hv : p.variant with
  | console =>
    obtain ⟨s, hs⟩ := exists_permute hconsole x
    exact ⟨s, fun b hb => by simp only [shownPattern, hv, hb, hs]⟩
  | chess =>
    obtain ⟨s, hs⟩ := exists_permute hchess x
    have hmode : blinkMode p s = false := by
      rw [blinkMode_eq, ← permute_getLsbD, hs]
      exact hdark hv
    exact ⟨s, fun b hb => by simp only [shownPattern, hv, hb, chessRender_of_not_blinkMode hmode, hs]⟩

/-! ## Quiet blocks -/

/-- The clocks of the block: what a select or data write leaves, if the debounce stays as it is. -/
structure SameClock (b c : Block) : Prop where
  core : SameCore b c
  debDl : c.debDl = b.debDl

/-- No line is asserted in `c`; the lines of `X` decay in it as in `b`, and all else is blank. -/
structure Quiet (p : Params) (b : Block) (X : Line → Prop) (c : Block) : Prop where
  present : ∀ i, X i → isLine p.variant i = true
  sel : c.sel = selReset p.variant
  act : ∀ i : Line, c.act[i] = true ↔ X i
  armed : ∀ i : Line, X i → c.decayDl[i] = b.decayDl[i]
  unarmed : ∀ i : Line, ¬ X i → c.decayDl[i] = none
  held : ∀ d : Digit, X d.line → c.out[d] = b.out[d]
  blank : ∀ d : Digit, ¬ X d.line → c.out[d] = 0
  chess_lamps : p.variant = .chess → c.lampLose = false ∧ c.lampWin = false
  console_lamps : p.variant = .console → (c.lampLose = true ↔ X 4) ∧ (c.lampWin = true ↔ X 5)

theorem Quiet.congr {p : Params} {b c : Block} {X Y : Line → Prop} (h : Quiet p b X c) (hXY : ∀ i, X i ↔ Y i) :
    Quiet p b Y c := by
  rwa [← funext fun i => propext (hXY i)]

/-- A blank block is quiet. -/
theorem quiet_blankBlock (p : Params) (b : Block) (r : Bool) (τ : Time) :
    Quiet p b (fun _ => False) (blankBlock p r τ) where
  present _ := False.elim
  sel := rfl
  act i := iff_false_intro (ne_true_of_eq_false (powerOn_act p i.val i.isLt))
  armed _ := False.elim
  unarmed i _ := powerOn_decayDl p i.val i.isLt
  held _ := False.elim
  blank d _ := powerOn_out p d.val d.isLt
  chess_lamps _ := ⟨rfl, rfl⟩
  console_lamps _ := ⟨iff_false_intro Bool.false_ne_true, iff_false_intro Bool.false_ne_true⟩

theorem Quiet.unselected {p : Params} {b c : Block} {X : Line → Prop} (h : Quiet p b X c) {i : Line}
    (hi : isLine p.variant i = true) : asserted p.variant c.sel i = false := by
  rw [h.sel]
  exact asserted_selReset p.variant i hi

/-- An inactive digit of a quiet block is blank. -/
theorem Quiet.blank_of_inactive {p : Params} {b c : Block} {X : Line → Prop} (h : Quiet p b X c) {d : Digit}
    (hact : c.act[d.line] = false) : c.out[d] = 0 :=
  h.blank d fun hX => ne_true_of_eq_false hact ((h.act d.line).2 hX)

/-- A quiet block in which only the clocks differ is quiet. -/
theorem Quiet.withClock {p : Params} {b c e : Block} {X : Line → Prop} (h : Quiet p b X c) (hsel : e.sel = c.sel)
    (hact : ∀ i : Line, e.act[i] = c.act[i]) (hdl : ∀ i : Line, e.decayDl[i] = c.decayDl[i])
    (hout : ∀ d : Digit, e.out[d] = c.out[d])
    (hlamps : p.variant = .chess → e.lampLose = c.lampLose ∧ e.lampWin = c.lampWin)
    (hlamps' : p.variant = .console → (e.lampLose = c.lampLose ∧ e.lampWin = c.lampWin) ∨
      (e.lampLose = c.act[4] ∧ e.lampWin = c.act[5])) : Quiet p b X e where
  present := h.present
  sel := hsel.trans h.sel
  act i := by rw [hact]; exact h.act i
  armed i hi := (hdl i).trans (h.armed i hi)
  unarmed i hi := (hdl i).trans (h.unarmed i hi)
  held d hd := (hout d).trans (h.held d hd)
  blank d hd := (hout d).trans (h.blank d hd)
  chess_lamps hv := by
    obtain ⟨hlose, hwin⟩ := hlamps hv
    rw [hlose, hwin]
    exact h.chess_lamps hv
  console_lamps hv := by
    rcases hlamps' hv with ⟨hlose, hwin⟩ | ⟨hlose, hwin⟩
    · rw [hlose, hwin]
      exact h.console_lamps hv
    · rw [hlose, hwin]
      exact ⟨h.act 4, h.act 5⟩

/-- A recompute leaves a quiet block quiet. -/
theorem Quiet.dataShown {p : Params} {b c d e : Block} {X : Line → Prop} (h : Quiet p b X c) (hshown : DataShown p d e)
    (hsel : d.sel = c.sel) (hact : d.act = c.act) (hdl : d.decayDl = c.decayDl) (hout : SameOutputs c d) :
    Quiet p b X e := by
  obtain ⟨hdigits, hlose, hwin⟩ := hout
  refine h.withClock (hshown.sel.trans hsel) (fun i => by rw [hshown.act, hact]) (fun i => by rw [hshown.decayDl, hdl])
    (fun i => ?_) (fun hv => ?_) (fun hv => .inr ?_)
  · have hunselected : asserted p.variant d.sel i.line = false := by rw [hsel]; exact h.unselected (isLine_digit _ i)
    have hblank : d.act[i.line] = false → d.out[i] = 0 := by rw [hact, hdigits]; exact h.blank_of_inactive
    rw [hshown.out_unselected hunselected hblank, hdigits]
  · rw [← hlose, ← hwin]
    exact hshown.chess hv
  · rw [← hact]
    exact hshown.console hv

end Sys2Proof.Machine
end

section
/-! PROOFS. Arming decay timers at one instant (rule R233, the refusal half): a line is selected, shown its pattern, and
deselected; so one after the other for any set of lines. -/

namespace Sys2Proof.Machine

open Sys2Proof.Safety

/-- A select write at this instant leaves the pending recompute as it is. -/
def Steady (p : Params) (c : Block) : Prop :=
  p.variant = .console → debounceAfter p c.now c.debDl = c.debDl

theorem SelWritten.debDl_steady {p : Params} {v : Byte} {b c : Block} (h : SelWritten p v b c) (hb : Steady p b) :
    c.debDl = b.debDl := by
  cases hv : p.variant with
  | chess => exact (h.chess hv).1
  | console => exact (h.console hv).1.trans (hb hv)

theorem SelWritten.sameClock {p : Params} {v : Byte} {b c : Block} (h : SelWritten p v b c) (hb : Steady p b) :
    SameClock b c :=
  ⟨h.core, h.debDl_steady hb⟩

theorem DataShown.sameClock {p : Params} {b c : Block} (h : DataShown p b c) : SameClock b c :=
  ⟨h.core, h.debDl⟩

theorem SameClock.trans {b c d : Block} (h : SameClock b c) (h' : SameClock c d) : SameClock b d :=
  ⟨⟨h'.core.bph.trans h.core.bph, h'.core.blinkDl.trans h.core.blinkDl, h'.core.rst.trans h.core.rst,
    h'.core.now.trans h.core.now⟩, h'.debDl.trans h.debDl⟩

theorem SameClock.steady {p : Params} {b c : Block} (h : SameClock b c) (hb : Steady p b) : Steady p c := by
  unfold Steady
  rw [h.core.now, h.debDl]
  exact hb

theorem digit_line_inj {d e : Digit} (h : d.line = e.line) : d = e := Fin.ext (congrArg (fun l : Line => l.val) h)

/-- What the arming of a line asks of the wirings and of the pattern its digit is to show. -/
structure Showable (p : Params) (b : Block) : Prop where
  chess : p.wiring.segPermChess.Bijective
  console : p.wiring.segPermConsole.Bijective
  dark : p.variant = .chess → DecimalPointDark b

/-- Some byte of SEG shows the pattern of line `i`'s digit, if it has one. -/
theorem Showable.exists_seg {p : Params} {b : Block} (h : Showable p b) (i : Line) :
    ∃ s : Byte, ∀ d : Digit, d.line = i → ∀ c : Block, c.seg = s → shownPattern p c = b.out[d] := by
  by_cases hdigit : ∃ d : Digit, d.line = i
  · obtain ⟨d, rfl⟩ := hdigit
    obtain ⟨s, hs⟩ := exists_shownPattern h.chess h.console b.out[d] fun hv => h.dark hv d
    refine ⟨s, fun e he c hc => ?_⟩
    rw [digit_line_inj he]
    exact hs c hc
  · exact ⟨0, fun d hd => absurd ⟨d, hd⟩ hdigit⟩

/-- A quiet block with the one line `i` selected, which was inactive. -/
theorem Quiet.select {p : Params} {b c c' : Block} {X : Line → Prop} {v : Byte} {i : Line} (hc : Reached p c)
    (h : Quiet p b X c) (hi : isLine p.variant i = true) (hv : ∀ j, asserted p.variant v j = true ↔ j = i)
    (hw : SelWritten p v c c') :
    (∀ j : Line, c'.act[j] = true ↔ X j ∨ j = i) ∧ (∀ j : Line, c'.decayDl[j] = c.decayDl[j]) ∧
      (∀ d : Digit, d.line ≠ i → c'.out[d] = c.out[d]) := by
  refine ⟨fun j => ?_, fun j => hw.decayDl_kept fun hj hsel => ?_, fun d hd => ?_⟩
  · rw [hw.act_iff hc, h.act j, hv j]
    refine or_congr_right ⟨And.right, ?_⟩
    rintro rfl
    exact ⟨hi, rfl⟩
  · rw [h.unselected hj] at hsel
    cases hsel
  · exact hw.out_unselected (Bool.eq_false_of_not_eq_true fun hsel => hd ((hv d.line).1 hsel)) h.blank_of_inactive

/-- `c'` is the quiet block `c` with the one line `i` selected, and its digit showing its pattern in `b`. -/
structure LineShown (p : Params) (b : Block) (X : Line → Prop) (i : Line) (c c' : Block) : Prop where
  clock : SameClock c c'
  sel : ∀ j, asserted p.variant c'.sel j = true ↔ j = i
  act : ∀ j : Line, c'.act[j] = true ↔ X j ∨ j = i
  decayDl : ∀ j : Line, c'.decayDl[j] = c.decayDl[j]
  out : ∀ d : Digit, c'.out[d] = if d.line = i then b.out[d] else c.out[d]
  chess_lamps : p.variant = .chess → c'.lampLose = false ∧ c'.lampWin = false
  console_lamps : p.variant = .console → (c'.lampLose = true ↔ X 4 ∨ 4 = i) ∧ (c'.lampWin = true ↔ X 5 ∨ 5 = i)

/-- From a quiet block a line comes to show the pattern it has in `b`: it is selected, and the byte is stored. -/
theorem Quiet.showLine {p : Params} {b c : Block} {X : Line → Prop} (hb : Showable p b) (hc : Reached p c)
    (h : Quiet p b X c) (hsteady : Steady p c) {i : Line} (hi : isLine p.variant i = true) :
    ∃ c', Reached p c' ∧ LineShown p b X i c c' := by
  obtain ⟨v, hv⟩ := exists_select p.variant (· = i)
  obtain ⟨s, hs⟩ := hb.exists_seg i
  obtain ⟨c1, hc1, hw1⟩ := hc.wrSel v
  have hw2 := dataShown_renderOutputs p { c1 with seg := s }
  obtain ⟨hact1, hdl1, hout1⟩ := h.select hc hi hv hw1
  have hsel1 : ∀ j, asserted p.variant c1.sel j = true ↔ j = i := fun j => by rw [hw1.sel]; exact hv j
  have hclock : SameClock c1 _ := ⟨⟨hw2.core.bph, hw2.core.blinkDl, hw2.core.rst, hw2.core.now⟩, hw2.debDl⟩
  refine ⟨_, hc1.wrData s, (hw1.sameClock hsteady).trans hclock,
    fun j => by rw [hw2.sel]; exact hsel1 j, fun j => by rw [hw2.act]; exact hact1 j,
    fun j => (hw2.decayDl j).trans (hdl1 j), fun d => ?out, fun hv' => ?chess, fun hv' => ?console⟩
  case out =>
    split
    · rename_i hd
      rw [hw2.out_selected ((hsel1 _).2 hd)]
      exact hs d hd _ rfl
    · rename_i hd
      refine (hw2.out_unselected (Bool.eq_false_of_not_eq_true fun hsel => hd ((hsel1 _).1 hsel)) fun hoff => ?_).trans
        (hout1 d hd)
      have hX : ¬ X d.line := fun hX => ne_true_of_eq_false hoff ((hact1 d.line).2 (.inl hX))
      exact (hout1 d hd).trans (h.blank d hX)
  case chess =>
    obtain ⟨-, hlose1, hwin1, -⟩ := hw1.chess hv'
    obtain ⟨hlose, hwin⟩ := hw2.chess hv'
    obtain ⟨hdark, hdark'⟩ := h.chess_lamps hv'
    exact ⟨hlose.trans (hlose1.trans hdark), hwin.trans (hwin1.trans hdark')⟩
  case console =>
    obtain ⟨hlose, hwin⟩ := hw2.console hv'
    rw [hlose, hwin]
    exact ⟨hact1 4, hact1 5⟩

/-- Deselecting the shown line arms it, and the block is quiet again. -/
theorem LineShown.deselect {p : Params} {b c c' d : Block} {X : Line → Prop} {i : Line} (h : LineShown p b X i c c')
    (hquiet : Quiet p b X c) (hc' : Reached p c') (hi : isLine p.variant i = true)
    (hdl : b.decayDl[i] = some (c.now + p.decayDelay)) (hw : SelWritten p (selReset p.variant) c' d) :
    Quiet p b (fun j => X j ∨ j = i) d := by
  have hreset := asserted_selReset p.variant
  have hblank : ∀ e : Digit, ¬ (X e.line ∨ e.line = i) → c'.out[e] = 0 := by
    intro e he
    rw [h.out, if_neg fun hei => he (.inr hei)]
    exact hquiet.blank e fun hX => he (.inl hX)
  have hact : ∀ j : Line, d.act[j] = true ↔ X j ∨ j = i := by
    intro j
    rw [hw.act_iff hc', h.act j]
    refine or_iff_left fun ⟨hj, hsel⟩ => ?_
    rw [hreset j hj] at hsel
    cases hsel
  have hout : ∀ e : Digit, d.out[e] = c'.out[e] := by
    intro e
    refine hw.out_unselected (hreset e.line (isLine_digit _ e)) fun hoff => hblank e fun he => ?_
    exact ne_true_of_eq_false hoff ((h.act e.line).2 he)
  have htimer : d.decayDl[i] = b.decayDl[i] := by
    rw [hw.decayDl_deselected hi ((h.sel i).2 rfl) (hreset i hi), h.clock.core.now, hdl]
  have hkept : ∀ j : Line, j ≠ i → d.decayDl[j] = c.decayDl[j] := fun j hj =>
    (hw.decayDl_kept fun _ hsel => absurd ((h.sel j).1 hsel) hj).trans (h.decayDl j)
  refine ⟨fun j hj => hj.elim (hquiet.present j) fun hji => hji ▸ hi, hw.sel, hact, fun j hj => ?armed,
    fun j hj => (hkept j fun hji => hj (.inr hji)).trans (hquiet.unarmed j fun hX => hj (.inl hX)), fun e he => ?held,
    fun e he => (hout e).trans (hblank e he), fun hv => ?chess, fun hv => ?console⟩
  case armed =>
    by_cases hji : j = i
    · exact hji ▸ htimer
    · exact (hkept j hji).trans (hquiet.armed j (hj.resolve_right hji))
  case held =>
    rw [hout, h.out]
    split
    · rfl
    · rename_i hei
      exact hquiet.held e (he.resolve_right hei)
  case chess =>
    obtain ⟨-, hlose, hwin, -⟩ := hw.chess hv
    obtain ⟨hdark, hdark'⟩ := h.chess_lamps hv
    exact ⟨hlose.trans hdark, hwin.trans hdark'⟩
  case console =>
    obtain ⟨-, -, hlose, hwin⟩ := hw.console hv
    rw [hlose, hwin]
    exact h.console_lamps hv

/-- In a quiet block a line is armed with the pattern it has in `b`: it is selected, shown, and deselected. -/
theorem Quiet.arm {p : Params} {b c : Block} {X : Line → Prop} (hb : Showable p b) (hc : Reached p c)
    (h : Quiet p b X c) (hsteady : Steady p c) {i : Line} (hi : isLine p.variant i = true)
    (hdl : b.decayDl[i] = some (c.now + p.decayDelay)) :
    ∃ e, Reached p e ∧ Quiet p b (fun j => X j ∨ j = i) e ∧ SameClock c e := by
  obtain ⟨c', hc', hshown⟩ := h.showLine hb hc hsteady hi
  obtain ⟨d, hd, hw⟩ := hc'.wrSel (selReset p.variant)
  exact ⟨d, hd, hshown.deselect h hc' hi hdl hw, hshown.clock.trans (hw.sameClock (hshown.clock.steady hsteady))⟩

/-- So any number of lines is armed at one instant. -/
theorem Quiet.armList {p : Params} {b c : Block} {X : Line → Prop} (hb : Showable p b) (hc : Reached p c)
    (h : Quiet p b X c) (hsteady : Steady p c) (is : List Line)
    (his : ∀ i ∈ is, isLine p.variant i = true ∧ b.decayDl[i] = some (c.now + p.decayDelay)) :
    ∃ e, Reached p e ∧ Quiet p b (fun j => X j ∨ j ∈ is) e ∧ SameClock c e := by
  induction is generalizing X c with
  | nil => exact ⟨c, hc, h.congr fun j => by simp, ⟨⟨rfl, rfl, rfl, rfl⟩, rfl⟩⟩
  | cons i is ih =>
    obtain ⟨hi, hdl⟩ := his i (List.mem_cons_self ..)
    obtain ⟨d, hd, hquiet, hclock⟩ := h.arm hb hc hsteady hi hdl
    have hrest : ∀ j ∈ is, isLine p.variant j = true ∧ b.decayDl[j] = some (d.now + p.decayDelay) := by
      intro j hj
      rw [hclock.core.now]
      exact his j (List.mem_cons_of_mem i hj)
    obtain ⟨e, he, hquiet', hclock'⟩ := ih hd hquiet (hclock.steady hsteady) hrest
    refine ⟨e, he, hquiet'.congr fun j => ?_, hclock.trans hclock'⟩
    rw [List.mem_cons, or_assoc]

theorem Quiet.armAll {p : Params} {b c : Block} {X : Line → Prop} (hb : Showable p b) (hc : Reached p c)
    (h : Quiet p b X c) (hsteady : Steady p c) (Y : Line → Prop)
    (hY : ∀ i, Y i → isLine p.variant i = true ∧ b.decayDl[i] = some (c.now + p.decayDelay)) :
    ∃ e, Reached p e ∧ Quiet p b (fun j => X j ∨ Y j) e ∧ SameClock c e := by
  classical
  obtain ⟨e, he, hquiet, hclock⟩ :=
    h.armList hb hc hsteady (lines.filter fun i => decide (Y i)) fun i hi => hY i (by simpa [lines] using hi)
  exact ⟨e, he, hquiet.congr fun j => by simp [lines], hclock⟩

/-- Time passes in a quiet block up to its deadlines. -/
theorem Quiet.advance {p : Params} {b c : Block} {X : Line → Prop} (hc : Reached p c) (h : Quiet p b X c) {τ : Time}
    (hle : c.now ≤ τ) (hdecay : ∀ i u, X i → b.decayDl[i] = some u → τ ≤ u) (hdeb : ∀ u, c.debDl = some u → τ ≤ u)
    (hblink : ∀ u, c.blinkDl = some u → τ ≤ u) :
    Reached p { c with now := τ } ∧ Quiet p b X { c with now := τ } := by
  have hnow : c.now + (τ - c.now) = τ := Nat.add_sub_cancel' hle
  have hreached := hc.advance (τ - c.now) ((le_pendingDeadlines_iff _ _ _).2 ⟨fun i u _ hu => ?_, ?_, ?_⟩)
  · rw [hnow] at hreached
    refine ⟨hreached, h.withClock rfl (fun _ => rfl) (fun _ => rfl) (fun _ => rfl) (fun _ => ⟨rfl, rfl⟩)
      (fun _ => .inl ⟨rfl, rfl⟩)⟩
  · rw [hnow]
    by_cases hX : X i
    · exact hdecay i u hX ((h.armed i hX).symm.trans hu)
    · cases (h.unarmed i hX).symm.trans hu
  · rw [hnow]; exact hdeb
  · rw [hnow]; exact hblink

end Sys2Proof.Machine
end

section
/-! PROOFS. Every restorable block of CHESS is reached (rule R233, the refusal half): from a blank block at the start of its
history, nanosecond by nanosecond, each line is armed when its timer says, and the oscillator ticks when it must. -/

namespace Sys2Proof.Machine

open Sys2Proof.Safety

/-- The line's timer was armed by `τ`. -/
def ArmedBy (p : Params) (b : Block) (τ : Time) (i : Line) : Prop :=
  ∃ t, b.decayDl[i] = some t ∧ t ≤ τ + p.decayDelay

theorem armedBy_succ {p : Params} {b : Block} {τ : Time} {i : Line} :
    ArmedBy p b (τ + 1) i ↔ ArmedBy p b τ i ∨ b.decayDl[i] = some (τ + 1 + p.decayDelay) := by
  constructor
  · rintro ⟨t, ht, hle⟩
    rcases Nat.lt_or_ge (τ + p.decayDelay) t with hlt | hge
    · right
      rw [ht, Nat.le_antisymm hle (Nat.add_right_comm τ 1 p.decayDelay ▸ hlt)]
    · exact .inl ⟨t, ht, hge⟩
  · rintro (⟨t, ht, hle⟩ | ht)
    · exact ⟨t, ht, hle.trans (Nat.add_le_add_right (Nat.le_succ τ) _)⟩
    · exact ⟨_, ht, Nat.le_refl _⟩

/-- A line of a restorable block with a timer exists in the variant. -/
theorem Restorable.isLine_of_armed {p : Params} {b : Block} (h : Restorable p b) {i : Line} {t : Time}
    (ht : b.decayDl[i] = some t) : isLine p.variant i = true := by
  by_contra hi
  cases ((h.lines.absent i (Bool.eq_false_of_not_eq_true hi)).2).symm.trans ht

/-- A CHESS block on the way to `b`, at time `τ`: the lines armed by then decay; the oscillator has the start of `b`'s
history, and has ticked no earlier than it must. -/
structure ChessOnWay (p : Params) (b : Block) (τ : Time) (c : Block) : Prop where
  reached : Reached p c
  quiet : Quiet p b (ArmedBy p b τ) c
  now : c.now = τ
  rst : c.rst = b.rst
  start : earliestStart p c = earliestStart p b
  lazy : ∀ u, c.blinkDl = some u → u < τ + p.blinkPeriod ∨ τ = earliestStart p b

/-- What is needed of `b`: it is restorable, its period is one and its wirings are bijections. -/
structure ChessTarget (p : Params) (b : Block) : Prop where
  variant : p.variant = .chess
  period : 0 < p.blinkPeriod
  chess : p.wiring.segPermChess.Bijective
  console : p.wiring.segPermConsole.Bijective
  restorable : Restorable p b

theorem ChessTarget.showable {p : Params} {b : Block} (h : ChessTarget p b) : Showable p b :=
  ⟨h.chess, h.console, fun hv => (h.restorable.chess hv).dark⟩

/-- Select writes do not touch the debounce in CHESS. -/
theorem ChessTarget.steady {p : Params} {b : Block} (h : ChessTarget p b) (c : Block) : Steady p c :=
  fun hv => nomatch h.variant.symm.trans hv

/-- A CHESS block's oscillator runs. -/
theorem Reached.exists_blinkDl {p : Params} {c : Block} (h : Reached p c) (hv : p.variant = .chess) :
    ∃ u, c.blinkDl = some u ∧ c.now ≤ u ∧ u ≤ c.now + p.blinkPeriod := by
  obtain ⟨u, hu⟩ := Option.ne_none_iff_exists'.1 (h.restorable.inv.chess_timers hv).1
  exact ⟨u, hu, h.restorable.inv.blink_ahead u hu, ((h.restorable.chess hv).blink u hu).1⟩

/-- At the start of the history the blank block is on the way, once the lines of that instant are armed. -/
theorem chessOnWay_start {p : Params} {b : Block} (hb : ChessTarget p b) :
    ∃ c, ChessOnWay p b (earliestStart p b) c := by
  have hblank := reached_blankBlock hb.period b.rst (earliestStart p b)
  have hstart : (blankBlock p b.rst (earliestStart p b)).blinkDl = some (earliestStart p b + p.blinkPeriod) := by
    show blinkStart p _ = _
    rw [blinkStart_eq, if_pos hb.variant]
  obtain ⟨c, hc, hquiet, hclock⟩ := (quiet_blankBlock p b b.rst (earliestStart p b)).armAll hb.showable hblank
    (hb.steady _) (fun i => b.decayDl[i] = some (earliestStart p b + p.decayDelay))
    fun i hi => ⟨hb.restorable.isLine_of_armed hi, hi⟩
  refine ⟨c, hc, hquiet.congr fun i => ?_, hclock.core.now, hclock.core.rst, ?_, fun _ _ => .inr rfl⟩
  · rw [false_or]
    constructor
    · exact fun hi => ⟨_, hi, Nat.le_refl _⟩
    · rintro ⟨t, ht, hle⟩
      obtain ⟨-, hge, -⟩ := hb.restorable.lines.armed i t (hb.restorable.isLine_of_armed ht) ht
      rw [ht, Nat.le_antisymm hle hge]
  · have hblink : c.blinkDl = some (earliestStart p b + p.blinkPeriod) := hclock.core.blinkDl.trans hstart
    have hbph : c.bph = false := hclock.core.bph
    have hlt : earliestStart p b < 2 * p.blinkPeriod := by
      obtain ⟨u, hu⟩ := Option.ne_none_iff_exists'.1 (hb.restorable.inv.chess_timers hb.variant).1
      rw [earliestStart_chess hb.variant hu]
      exact Nat.mod_lt _ (Nat.mul_pos Nat.two_pos hb.period)
    rw [earliestStart_chess hb.variant hblink, hbph, if_neg Bool.false_ne_true, Nat.add_sub_cancel, Nat.mod_eq_of_lt hlt]

/-- A due tick keeps a block on the way. -/
theorem ChessOnWay.tick {p : Params} {b c : Block} {τ : Time} (hb : ChessTarget p b) (h : ChessOnWay p b τ c)
    (hdue : c.blinkDl = some τ) :
    ∃ d, Reached p d ∧ Quiet p b (ArmedBy p b τ) d ∧ d.now = τ ∧ d.rst = b.rst ∧
      earliestStart p d = earliestStart p b ∧ d.blinkDl = some (τ + p.blinkPeriod) ∧ d.bph = !c.bph := by
  have hdue' : c.blinkDl = some c.now := hdue.trans (congrArg some h.now.symm)
  have hshown := dataShown_renderOutputs p (tickBlock p c)
  have hstart : earliestStart p (renderOutputs p (tickBlock p c)) = earliestStart p (tickBlock p c) :=
    earliestStart_congr hshown.core.bph hshown.core.blinkDl
  refine ⟨_, h.reached.blinkTick hb.variant hdue', h.quiet.dataShown hshown rfl rfl rfl ⟨rfl, rfl, rfl⟩,
    hshown.core.now.trans h.now, hshown.core.rst.trans h.rst,
    hstart.trans ((h.reached.restorable.earliestStart_tick hb.variant hdue').trans h.start), ?_, hshown.core.bph⟩
  rw [hshown.core.blinkDl, ← h.now]
  rfl

/-- One nanosecond on the way: the oscillator ticks if it must, the clock advances, and the lines of the new instant are
armed. -/
theorem ChessOnWay.succ {p : Params} {b c : Block} {τ : Time} (hb : ChessTarget p b) (h : ChessOnWay p b τ c)
    (hτ : τ + 1 ≤ b.now) : ∃ d, ChessOnWay p b (τ + 1) d := by
  have hticked : ∃ d, Reached p d ∧ Quiet p b (ArmedBy p b τ) d ∧ d.now = τ ∧ d.rst = b.rst ∧
      earliestStart p d = earliestStart p b ∧ ∃ u, d.blinkDl = some u ∧ τ + 1 ≤ u ∧ u < τ + 1 + p.blinkPeriod := by
    obtain ⟨u, hu, hahead, hnear⟩ := h.reached.exists_blinkDl hb.variant
    rw [h.now] at hahead hnear
    rcases Nat.eq_or_lt_of_le hahead with rfl | hlt
    · obtain ⟨d, hd, hquiet, hnow, hrst, hstart, hblink, -⟩ := h.tick hb hu
      exact ⟨d, hd, hquiet, hnow, hrst, hstart, _, hblink, Nat.add_le_add_left hb.period τ,
        Nat.add_lt_add_right (Nat.lt_succ_self τ) _⟩
    · exact ⟨c, h.reached, h.quiet, h.now, h.rst, h.start, u, hu, hlt,
        Nat.lt_of_le_of_lt hnear (Nat.add_lt_add_right (Nat.lt_succ_self τ) _)⟩
  obtain ⟨d, hd, hquiet, hnow, hrst, hstart, u, hu, hahead, hlazy⟩ := hticked
  have hdeb : d.debDl = none := (hd.restorable.inv.chess_timers hb.variant).2
  have hdecay : ∀ i t, ArmedBy p b τ i → b.decayDl[i] = some t → τ + 1 ≤ t := fun i t _ ht =>
    hτ.trans (hb.restorable.inv.decay_ahead i t (hb.restorable.isLine_of_armed ht) ht)
  obtain ⟨hlater, hquiet'⟩ := hquiet.advance hd (hnow ▸ Nat.le_succ τ) hdecay (fun t ht => by rw [hdeb] at ht; cases ht)
    (fun t ht => by rw [hu] at ht; cases ht; exact hahead)
  obtain ⟨e, he, hquiet'', hclock⟩ := hquiet'.armAll hb.showable hlater (hb.steady _)
    (fun i => b.decayDl[i] = some (τ + 1 + p.decayDelay)) fun i hi => ⟨hb.restorable.isLine_of_armed hi, hi⟩
  refine ⟨e, he, hquiet''.congr fun i => armedBy_succ.symm, hclock.core.now, hclock.core.rst.trans hrst,
    (earliestStart_congr hclock.core.bph hclock.core.blinkDl).trans hstart, fun t ht => .inl ?_⟩
  have htu : some t = some u := ht.symm.trans (hclock.core.blinkDl.trans hu)
  cases htu
  exact hlazy

/-- On the way the clock gets to that of the target. -/
theorem ChessTarget.onWay {p : Params} {b : Block} (hb : ChessTarget p b) : ∃ c, ChessOnWay p b b.now c := by
  have hreach : ∀ k, earliestStart p b + k ≤ b.now → ∃ c, ChessOnWay p b (earliestStart p b + k) c := by
    intro k hk
    induction k with
    | zero => exact chessOnWay_start hb
    | succ k ih =>
      obtain ⟨c, hc⟩ := ih (Nat.le_of_succ_le hk)
      exact hc.succ hb hk
  have hsum : earliestStart p b + (b.now - earliestStart p b) = b.now :=
    Nat.add_sub_cancel' hb.restorable.earliestStart_le
  obtain ⟨c, hc⟩ := hreach _ hsum.le
  exact ⟨c, by rwa [hsum] at hc⟩

/-- Two oscillators of one start, both with the next tick at most a period from `now`, agree, or one has its tick due that the
other has had. `u` is the one that ticks no earlier than it must. -/
theorem ticks_agree {P S now u T : Nat} {x y : Bool} (hP : 0 < P) (hu : (if x = true then u else u - P) % (2 * P) = S)
    (hT : (if y = true then T else T - P) % (2 * P) = S) (hu1 : now ≤ u) (hu2 : u ≤ now + P) (hT1 : now ≤ T)
    (hT2 : T ≤ now + P) (hfirst : P ≤ u) (hfirst' : (if y = true then 2 * P else P) ≤ T)
    (hlazy : u < now + P ∨ now = S) : (x = y ∧ u = T) ∨ (y = !x ∧ u = now ∧ T = now + P) := by
  have hlt : S < 2 * P := hu ▸ Nat.mod_lt _ (by omega)
  have hu' := Nat.div_add_mod (if x = true then u else u - P) (2 * P)
  have hT' := Nat.div_add_mod (if y = true then T else T - P) (2 * P)
  rw [hu, Nat.mul_assoc] at hu'
  rw [hT, Nat.mul_assoc] at hT'
  generalize (if x = true then u else u - P) / (2 * P) = k at hu'
  generalize (if y = true then T else T - P) / (2 * P) = m at hT'
  have horder : (k < m ∧ P * k + P ≤ P * m) ∨ k = m ∨ (m < k ∧ P * m + P ≤ P * k) := by
    rcases Nat.lt_trichotomy k m with h | h | h
    · exact .inl ⟨h, Nat.mul_le_mul_left P h⟩
    · exact .inr (.inl h)
    · exact .inr (.inr ⟨h, Nat.mul_le_mul_left P h⟩)
  have hzero : m = 0 → P * m = 0 := fun h => h ▸ Nat.mul_zero P
  cases x <;> cases y <;> simp only [Bool.false_eq_true, if_true, if_false] at hu' hT' hfirst' <;>
    rcases horder with ⟨-, h⟩ | rfl | ⟨-, h⟩ <;> simp <;> omega

/-- Quiet blocks are reached that have all clocks of the target. -/
theorem ChessTarget.onTime {p : Params} {b : Block} (hb : ChessTarget p b) :
    ∃ c, Reached p c ∧ Quiet p b (ArmedBy p b b.now) c ∧ SameCore b c := by
  obtain ⟨c, hc⟩ := hb.onWay
  obtain ⟨u, hu, hahead, hnear⟩ := hc.reached.exists_blinkDl hb.variant
  obtain ⟨T, hT⟩ := Option.ne_none_iff_exists'.1 (hb.restorable.inv.chess_timers hb.variant).1
  obtain ⟨hTnear, hTfirst⟩ := (hb.restorable.chess hb.variant).blink T hT
  have hfirst : p.blinkPeriod ≤ u := by
    refine Nat.le_trans ?_ ((hc.reached.restorable.chess hb.variant).blink u hu).2
    split
    · exact Nat.le_mul_of_pos_left _ Nat.two_pos
    · exact Nat.le_refl _
  have hphase := hc.start
  rw [earliestStart_chess hb.variant hu] at hphase
  rw [hc.now] at hahead hnear
  rcases ticks_agree hb.period hphase (earliestStart_chess hb.variant hT).symm hahead hnear
    (hb.restorable.inv.blink_ahead T hT) hTnear hfirst hTfirst (hc.lazy u hu) with ⟨hbph, rfl⟩ | ⟨hbph, rfl, rfl⟩
  · exact ⟨c, hc.reached, hc.quiet, hbph, hu.trans hT.symm, hc.rst, hc.now⟩
  · obtain ⟨d, hd, hquiet, hnow, hrst, -, hblink, hbph'⟩ := hc.tick hb hu
    exact ⟨d, hd, hquiet, hbph'.trans hbph.symm, hblink.trans hT.symm, hrst, hnow⟩

/-- In a restorable block every timer was armed by `now`. -/
theorem Restorable.armedBy_now {p : Params} {b : Block} (h : Restorable p b) {i : Line} {t : Time}
    (ht : b.decayDl[i] = some t) : ArmedBy p b b.now i :=
  ⟨t, ht, (h.lines.armed i t (h.isLine_of_armed ht) ht).2.2⟩

/-- The active lines of a restorable block are those that decay and those asserted. -/
theorem Restorable.act_iff {p : Params} {b : Block} (h : Restorable p b) (i : Line) :
    b.act[i] = true ↔ b.decayDl[i] ≠ none ∨ (isLine p.variant i = true ∧ asserted p.variant b.sel i = true) := by
  constructor
  · intro hact
    have hi : isLine p.variant i = true := by
      by_contra hi
      rw [(h.lines.absent i (Bool.eq_false_of_not_eq_true hi)).1] at hact
      cases hact
    cases hsel : asserted p.variant b.sel i with
    | true => exact .inr ⟨hi, rfl⟩
    | false => exact .inl (h.inv.active_armed i hi hsel hact)
  · rintro (hdl | ⟨hi, hsel⟩)
    · obtain ⟨t, ht⟩ := Option.ne_none_iff_exists'.1 hdl
      exact (h.lines.armed i t (h.isLine_of_armed ht) ht).1
    · exact h.inv.asserted_active i hi hsel

/-- Every restorable CHESS block is reached: a quiet one with its clocks gets its SEG and then its SEL. -/
theorem ChessTarget.reached {p : Params} {b : Block} (hb : ChessTarget p b) : Reached p b := by
  obtain ⟨c, hc, hquiet, hcore⟩ := hb.onTime
  have harmed : ∀ i, ArmedBy p b b.now i ↔ b.decayDl[i] ≠ none := by
    intro i
    constructor
    · rintro ⟨t, ht, -⟩
      rw [ht]
      exact nofun
    · intro hdl
      obtain ⟨t, ht⟩ := Option.ne_none_iff_exists'.1 hdl
      exact hb.restorable.armedBy_now ht
  have hquiet' := hquiet.congr harmed
  have hc1 := hc.wrData b.seg
  have hw1 := dataShown_renderOutputs p { c with seg := b.seg }
  have hquiet1 : Quiet p b (fun i => b.decayDl[i] ≠ none) (renderOutputs p { c with seg := b.seg }) :=
    hquiet'.dataShown hw1 rfl rfl rfl ⟨rfl, rfl, rfl⟩
  have hseg1 : (renderOutputs p { c with seg := b.seg }).seg = b.seg := hw1.seg
  have hcore1 : SameCore b (renderOutputs p { c with seg := b.seg }) :=
    ⟨hw1.core.bph.trans hcore.bph, hw1.core.blinkDl.trans hcore.blinkDl, hw1.core.rst.trans hcore.rst,
      hw1.core.now.trans hcore.now⟩
  generalize renderOutputs p { c with seg := b.seg } = d at hc1 hquiet1 hseg1 hcore1
  obtain ⟨e, he, hw⟩ := hc1.wrSel b.sel
  obtain ⟨hdeb, hlose, hwin, hout⟩ := hw.chess hb.variant
  obtain ⟨-, -, hshown, hloseb, hwinb⟩ := hb.restorable.chess hb.variant
  obtain ⟨hlosed, hwind⟩ := hquiet1.chess_lamps hb.variant
  have hact : ∀ i : Line, e.act[i] = b.act[i] := fun i => Bool.eq_iff_iff.2 <| by
    rw [hw.act_iff hc1, hquiet1.act, hb.restorable.act_iff]
  have heq : e = b := by
    refine block_ext ⟨hw.core.bph.trans hcore1.bph, hw.core.blinkDl.trans hcore1.blinkDl, hw.core.rst.trans hcore1.rst,
      hw.core.now.trans hcore1.now⟩ hw.sel (hw.seg.trans hseg1) hact (fun i => ?timer) ?deb (fun i => ?digit)
      (hlose.trans (hlosed.trans hloseb.symm)) (hwin.trans (hwind.trans hwinb.symm))
    case timer =>
      have hkept : e.decayDl[i] = d.decayDl[i] := hw.decayDl_kept fun hi hsel => by
        rw [hquiet1.unselected hi] at hsel
        cases hsel
      rw [hkept]
      by_cases hdl : b.decayDl[i] = none
      · rw [hdl, hquiet1.unarmed i (not_not.2 hdl)]
      · exact hquiet1.armed i hdl
    case deb =>
      rw [hdeb, (hb.restorable.inv.chess_timers hb.variant).2]
      exact (hc1.restorable.inv.chess_timers hb.variant).2
    case digit =>
      cases hsel : asserted p.variant b.sel i.line with
      | true =>
        have hpattern : shownPattern p (selectBlock p b.sel d) = shownPattern p b :=
          shownPattern_congr hseg1 fun _ => hcore1.bph
        rw [hout i, digitOutput, if_pos (show asserted p.variant (selectBlock p b.sel d).sel i.line = true from hsel),
          hpattern, hshown i hsel]
      | false =>
        rw [hw.out_unselected hsel hquiet1.blank_of_inactive]
        by_cases hdl : b.decayDl[i.line] = none
        · rw [hquiet1.blank i (not_not.2 hdl)]
          by_contra hlit
          exact hb.restorable.inv.active_armed i.line (isLine_digit _ i) hsel
            (hb.restorable.inv.lit_active i (Ne.symm hlit)) hdl
        · exact hquiet1.held i hdl
  rwa [heq] at he

end Sys2Proof.Machine
end

section
/-! PROOFS. Debounce periods of CONSOLE (rule R233, the refusal half): a select write opens a period, lines are armed in it
at their times, and the recompute at its end leaves a quiet block with nothing pending. -/

namespace Sys2Proof.Machine

open Sys2Proof.Safety

/-- What is needed of `b`: it is restorable, the wirings are bijections, and the blink period that CONSOLE does not use is
one. -/
structure ConsoleTarget (p : Params) (b : Block) : Prop where
  variant : p.variant = .console
  period : 0 < p.blinkPeriod
  chess : p.wiring.segPermChess.Bijective
  console : p.wiring.segPermConsole.Bijective
  restorable : Restorable p b

theorem ConsoleTarget.showable {p : Params} {b : Block} (h : ConsoleTarget p b) : Showable p b :=
  ⟨h.chess, h.console, fun hv => nomatch h.variant.symm.trans hv⟩

theorem ConsoleTarget.isLine {p : Params} {b : Block} (h : ConsoleTarget p b) (i : Line) : isLine p.variant i = true :=
  h.variant ▸ isLine_console i

/-- Every timer of the target lies ahead of its clock, and was armed by it at the latest. -/
theorem ConsoleTarget.timer {p : Params} {b : Block} (h : ConsoleTarget p b) {i : Line} {t : Time}
    (ht : b.decayDl[i] = some t) : b.now ≤ t ∧ p.decayDelay ≤ t ∧ t ≤ b.now + p.decayDelay := by
  obtain ⟨-, hfirst, hlast⟩ := h.restorable.lines.armed i t (h.isLine i) ht
  exact ⟨h.restorable.inv.decay_ahead i t (h.isLine i) ht, (Nat.le_add_left _ _).trans hfirst, hlast⟩

/-- There is no oscillator in CONSOLE. -/
theorem Reached.blinkDl_none {p : Params} {c : Block} (h : Reached p c) (hv : p.variant = .console) :
    c.blinkDl = none ∧ c.bph = false :=
  h.restorable.inv.console_blink hv

/-- A pending recompute stays where it is: with KEEP always, without a delay at the instant it is due. -/
def KeepsPending (p : Params) : Prop := p.debounceMode = .keep ∨ p.debounceDelay = 0

theorem steady_of_keepsPending {p : Params} {c : Block} {e : Time} (hkeep : KeepsPending p) (he : c.debDl = some e)
    (hzero : p.debounceDelay = 0 → e = c.now) : Steady p c := by
  intro _
  rw [he, debounceAfter]
  rcases hkeep with hmode | hdelay
  · rw [if_neg (by simp [hmode])]
  · rw [hdelay, hzero hdelay, ite_eq_right_iff]
    exact fun _ => rfl

/-- A select write that selects nothing leaves a quiet block quiet. -/
theorem Quiet.writeReset {p : Params} {b c d : Block} {X : Line → Prop} (hv : p.variant = .console) (hc : Reached p c)
    (h : Quiet p b X c) (hw : SelWritten p (selReset p.variant) c d) : Quiet p b X d := by
  obtain ⟨-, hout, hlose, hwin⟩ := hw.console hv
  refine h.withClock (hw.sel.trans h.sel.symm) (fun i => Bool.eq_iff_iff.2 ?_) (fun i => hw.decayDl_kept fun hi hsel => ?_)
    (fun i => by rw [hout]) (fun hv' => nomatch hv.symm.trans hv') (fun _ => .inl ⟨hlose, hwin⟩)
  · rw [hw.act_iff hc]
    refine or_iff_left fun ⟨hi, hsel⟩ => ?_
    rw [asserted_selReset p.variant i hi] at hsel
    cases hsel
  · rw [h.unselected hi] at hsel
    cases hsel

/-- A quiet block of CONSOLE on the way to `b`, at time `τ`. -/
structure QuietAt (p : Params) (b : Block) (X : Line → Prop) (τ : Time) (deb : Option Time) (c : Block) : Prop where
  reached : Reached p c
  quiet : Quiet p b X c
  now : c.now = τ
  rst : c.rst = b.rst
  debDl : c.debDl = deb

theorem quietAt_blankBlock {p : Params} {b : Block} (hb : ConsoleTarget p b) (τ : Time) :
    QuietAt p b (fun _ => False) τ none (blankBlock p b.rst τ) :=
  ⟨reached_blankBlock hb.period b.rst τ, quiet_blankBlock p b b.rst τ, rfl, rfl, rfl⟩

theorem QuietAt.congr {p : Params} {b c : Block} {X Y : Line → Prop} {τ : Time} {deb : Option Time}
    (h : QuietAt p b X τ deb c) (hXY : ∀ i, X i ↔ Y i) : QuietAt p b Y τ deb c :=
  { h with quiet := h.quiet.congr hXY }

/-- A select write opens a debounce period. -/
theorem QuietAt.openPeriod {p : Params} {b c : Block} {X : Line → Prop} {τ : Time} (hb : ConsoleTarget p b)
    (h : QuietAt p b X τ none c) : ∃ d, QuietAt p b X τ (some (τ + p.debounceDelay)) d := by
  obtain ⟨d, hd, hw⟩ := h.reached.wrSel (selReset p.variant)
  refine ⟨d, hd, h.quiet.writeReset hb.variant h.reached hw, hw.core.now.trans h.now, hw.core.rst.trans h.rst, ?_⟩
  rw [(hw.console hb.variant).1, h.debDl, h.now, debounceAfter, if_pos (.inl rfl)]

/-- Time passes up to the target's clock and the pending recompute. -/
theorem QuietAt.advance {p : Params} {b c : Block} {X : Line → Prop} {τ σ : Time} {deb : Option Time}
    (hb : ConsoleTarget p b) (h : QuietAt p b X τ deb c) (hle : τ ≤ σ) (hnow : σ ≤ b.now)
    (hdeb : ∀ u, deb = some u → σ ≤ u) : ∃ d, QuietAt p b X σ deb d := by
  obtain ⟨hreached, hquiet⟩ := h.quiet.advance h.reached (h.now.trans_le hle)
    (fun i u _ hu => hnow.trans (hb.timer hu).1) (fun u hu => hdeb u (h.debDl.symm.trans hu))
    (fun u hu => nomatch (h.reached.blinkDl_none hb.variant).1.symm.trans hu)
  exact ⟨_, hreached, hquiet, rfl, h.rst, h.debDl⟩

/-- Lines whose timer says so are armed, if a select write leaves the pending recompute. -/
theorem QuietAt.armAll {p : Params} {b c : Block} {X : Line → Prop} {τ : Time} {deb : Option Time} (hb : ConsoleTarget p b)
    (h : QuietAt p b X τ deb c) (hsteady : Steady p c) (Y : Line → Prop)
    (hY : ∀ i, Y i → b.decayDl[i] = some (τ + p.decayDelay)) : ∃ d, QuietAt p b (fun i => X i ∨ Y i) τ deb d := by
  obtain ⟨d, hd, hquiet, hclock⟩ := h.quiet.armAll hb.showable h.reached hsteady Y
    fun i hi => ⟨hb.isLine i, by rw [h.now]; exact hY i hi⟩
  exact ⟨d, hd, hquiet, hclock.core.now.trans h.now, hclock.core.rst.trans h.rst, hclock.debDl.trans h.debDl⟩

/-- In an open period the lines of `E` are armed at their times, up to any instant of the period. -/
theorem QuietAt.armUpTo {p : Params} {b c : Block} {X : Line → Prop} {w : Time} (hb : ConsoleTarget p b)
    (hkeep : KeepsPending p) (h : QuietAt p b X w (some (w + p.debounceDelay)) c) (E : Line → Prop)
    (hE : ∀ i t, E i → b.decayDl[i] = some t → w + p.decayDelay ≤ t) (k : Nat) (hk : k ≤ p.debounceDelay)
    (hnow : w + k ≤ b.now) :
    ∃ d, QuietAt p b (fun i => X i ∨ (E i ∧ ArmedBy p b (w + k) i)) (w + k) (some (w + p.debounceDelay)) d := by
  have hsteady : ∀ {Y : Line → Prop} {j : Nat} {d : Block}, j ≤ p.debounceDelay →
      QuietAt p b Y (w + j) (some (w + p.debounceDelay)) d → Steady p d := by
    intro Y j d hj hd
    refine steady_of_keepsPending hkeep hd.debDl fun hzero => ?_
    rw [hzero] at hj ⊢
    rw [hd.now, Nat.le_zero.1 hj]
  induction k with
  | zero =>
    obtain ⟨d, hd⟩ := h.armAll hb (hsteady (Nat.zero_le _) h) (fun i => E i ∧ b.decayDl[i] = some (w + p.decayDelay))
      fun i hi => hi.2
    refine ⟨d, hd.congr fun i => or_congr_right (and_congr_right fun hi => ⟨fun ht => ⟨_, ht, Nat.le_refl _⟩, ?_⟩)⟩
    rintro ⟨t, ht, hle⟩
    exact ht.trans (congrArg some (Nat.le_antisymm hle (hE i t hi ht)))
  | succ k ih =>
    obtain ⟨d, hd⟩ := ih (Nat.le_of_succ_le hk) (Nat.le_of_succ_le hnow)
    obtain ⟨d', hd'⟩ := hd.advance hb (Nat.le_succ (w + k)) hnow
      fun u hu => Option.some.inj hu ▸ Nat.add_le_add_left hk w
    obtain ⟨d'', hd''⟩ := hd'.armAll hb (hsteady hk hd')
      (fun i => E i ∧ b.decayDl[i] = some (w + k + 1 + p.decayDelay)) fun i hi => hi.2
    refine ⟨d'', hd''.congr fun i => ?_⟩
    rw [or_assoc, ← and_or_left]
    exact or_congr_right (and_congr_right fun _ => armedBy_succ.symm)

/-- At its end a period's recompute fires. -/
theorem QuietAt.closePeriod {p : Params} {b c : Block} {X : Line → Prop} {τ : Time} (hb : ConsoleTarget p b)
    (h : QuietAt p b X τ (some τ) c) : ∃ d, QuietAt p b X τ none d := by
  have hshown := dataShown_renderOutputs p { c with debDl := none }
  exact ⟨_, h.reached.debounceFire hb.variant (h.debDl.trans (congrArg some h.now.symm)),
    h.quiet.dataShown hshown rfl rfl rfl ⟨rfl, rfl, rfl⟩, hshown.core.now.trans h.now, hshown.core.rst.trans h.rst,
    hshown.debDl⟩

/-- Through a whole period: the lines of `E`, whose times lie in it, are armed. -/
theorem QuietAt.period {p : Params} {b c : Block} {X : Line → Prop} {w : Time} (hb : ConsoleTarget p b)
    (hkeep : KeepsPending p) (h : QuietAt p b X w none c) (hnow : w + p.debounceDelay ≤ b.now) (E : Line → Prop)
    (hE : ∀ i, E i → ∃ t, b.decayDl[i] = some t ∧ w + p.decayDelay ≤ t ∧ t ≤ w + p.debounceDelay + p.decayDelay) :
    ∃ d, QuietAt p b (fun i => X i ∨ E i) (w + p.debounceDelay) none d := by
  obtain ⟨c1, hc1⟩ := h.openPeriod hb
  have hbegin : ∀ i t, E i → b.decayDl[i] = some t → w + p.decayDelay ≤ t := by
    intro i t hi ht
    obtain ⟨u, hu, hle, -⟩ := hE i hi
    obtain rfl : t = u := Option.some.inj (ht.symm.trans hu)
    exact hle
  obtain ⟨c2, hc2⟩ := hc1.armUpTo hb hkeep E hbegin p.debounceDelay (Nat.le_refl _) hnow
  obtain ⟨c3, hc3⟩ := hc2.closePeriod hb
  refine ⟨c3, hc3.congr fun i => or_congr_right (and_iff_left_of_imp fun hi => ?_)⟩
  obtain ⟨t, ht, -, hle⟩ := hE i hi
  exact ⟨t, ht, hle⟩

/-- Through any periods that fit: the lines of `E`, each with its time in one of them, are armed. -/
theorem QuietAt.periods {p : Params} {b c : Block} {X : Line → Prop} {q limit : Time} (hb : ConsoleTarget p b)
    (hkeep : KeepsPending p) {ws : List Nat} (hfit : PeriodsFit p.debounceDelay limit q ws) (hlimit : limit ≤ b.now)
    (h : QuietAt p b X q none c) (E : Line → Prop)
    (hE : ∀ i, E i → ∃ t, b.decayDl[i] = some t ∧ InPeriod p.debounceDelay ws (t - p.decayDelay)) :
    ∃ d, QuietAt p b (fun i => X i ∨ E i) limit none d := by
  induction ws generalizing q X c E with
  | nil =>
    obtain ⟨d, hd⟩ := h.advance hb hfit hlimit nofun
    refine ⟨d, hd.congr fun i => (or_iff_left fun hi => ?_).symm⟩
    obtain ⟨t, -, w, hw, -⟩ := hE i hi
    cases hw
  | cons w ws ih =>
    obtain ⟨hqw, hfit⟩ := hfit
    have hend : w + p.debounceDelay ≤ b.now := hfit.le_limit.trans hlimit
    obtain ⟨c1, hc1⟩ := h.advance hb hqw ((Nat.le_add_right _ _).trans hend) nofun
    obtain ⟨c2, hc2⟩ := hc1.period hb hkeep hend
      (fun i => E i ∧ ∃ t, b.decayDl[i] = some t ∧ w + p.decayDelay ≤ t ∧ t ≤ w + p.debounceDelay + p.decayDelay)
      fun i hi => hi.2
    obtain ⟨c3, hc3⟩ := ih hfit hc2
      (fun i => E i ∧ ∃ t, b.decayDl[i] = some t ∧ InPeriod p.debounceDelay ws (t - p.decayDelay)) fun i hi => hi.2
    refine ⟨c3, hc3.congr fun i => ?_⟩
    rw [or_assoc, ← and_or_left]
    refine or_congr_right (and_iff_left_of_imp fun hi => ?_)
    obtain ⟨t, ht, w', hw', hle, hge⟩ := hE i hi
    have hdelay : p.decayDelay ≤ t := (hb.timer ht).2.1
    rcases List.mem_cons.1 hw' with rfl | hw'
    · exact .inl ⟨t, ht, Nat.add_le_of_le_sub hdelay hle, Nat.le_add_of_sub_le hge⟩
    · exact .inr ⟨t, ht, w', hw', hle, hge⟩

/-- Periods of no length can take in any times. -/
theorem covered_zero {limit : Nat} {times : List Nat} (h : ∀ t ∈ times, t ≤ limit) : Covered 0 limit times := by
  have hfit : ∀ n q p, q ≤ p → p + n = limit + 1 → q ≤ limit → PeriodsFit 0 limit q (List.range' p n) := by
    intro n
    induction n with
    | zero => exact fun q p _ _ hq => hq
    | succ n ih => exact fun q p hqp hn hq => ⟨hqp, ih (p + 0) (p + 1) (by omega) (by omega) (by omega)⟩
  refine ⟨List.range' 0 (limit + 1), hfit (limit + 1) 0 0 (Nat.le_refl _) (by omega) (Nat.zero_le _), fun t ht => ?_⟩
  exact ⟨t, by simpa [List.mem_range'] using Nat.lt_succ_of_le (h t ht), Nat.le_refl _, Nat.le_refl _⟩

/-- Where a recompute is pending at `e`, the lines armed before its period are armed in a quiet block at its beginning. -/
theorem ConsoleTarget.beforePeriod {p : Params} {b : Block} {e : Time} (hb : ConsoleTarget p b) (hkeep : KeepsPending p)
    (hw : Waiting p b e) :
    ∃ c, QuietAt p b (fun i => ∃ t, b.decayDl[i] = some t ∧ t - p.decayDelay + p.debounceDelay < e)
      (e - p.debounceDelay) none c := by
  have hcovered : Covered p.debounceDelay (e - p.debounceDelay)
      ((armTimes p b).filter fun t => decide (t + p.debounceDelay < e)) := by
    rcases hkeep with hmode | hzero
    · exact ((writesBefore_iff p e _).1 hw.writes).1 hmode
    · rw [hzero]
      refine covered_zero fun t ht => ?_
      have hlt := of_decide_eq_true (List.mem_filter.1 ht).2
      exact Nat.le_of_lt hlt
  obtain ⟨starts, hfit, hin⟩ := hcovered
  have hperiod : ∀ i : Line, (∃ t, b.decayDl[i] = some t ∧ t - p.decayDelay + p.debounceDelay < e) →
      ∃ t, b.decayDl[i] = some t ∧ InPeriod p.debounceDelay starts (t - p.decayDelay) := by
    rintro i ⟨t, ht, hlt⟩
    exact ⟨t, ht, hin _ (List.mem_filter.2 ⟨(mem_armTimes p b _).2 ⟨i, t, ht, rfl⟩, decide_eq_true hlt⟩)⟩
  obtain ⟨c, hc⟩ := (quietAt_blankBlock hb 0).periods hb hkeep hfit (Nat.sub_le_of_le_add hw.near) _ hperiod
  exact ⟨c, hc.congr fun i => iff_of_eq (false_or _)⟩

end Sys2Proof.Machine
end

section
/-! PROOFS. The open period of CONSOLE (rule R233, the refusal half): at one instant every pattern and lamp of the target is
shown, then the lines still to be armed are held selected until their times, so that no recompute comes in between. -/

namespace Sys2Proof.Machine

open Sys2Proof.Safety

/-! ## Lines -/

/-- The line has no lamp, or its lamp is lit (R30). -/
def LampLit (b : Block) (i : Line) : Prop := (i = 4 → b.lampLose = true) ∧ (i = 5 → b.lampWin = true)

/-- The line is selected, without a timer, and shows what a recompute shows: it was selected at the last one. -/
def ShownLine (p : Params) (b : Block) (i : Line) : Prop :=
  asserted p.variant b.sel i = true ∧ b.decayDl[i] = none ∧ LampLit b i ∧
    ∀ d : Digit, d.line = i → b.out[d] = shownPattern p b

/-- The line's timer will be armed after `τ`. -/
def OpenAt (p : Params) (b : Block) (τ : Time) (i : Line) : Prop :=
  ∃ t, b.decayDl[i] = some t ∧ τ + p.decayDelay < t

theorem lampLit_digit (b : Block) (d : Digit) : LampLit b d.line := by
  refine ⟨fun h => absurd (congrArg (fun l : Line => l.val) h) ?_, fun h => absurd (congrArg (fun l : Line => l.val) h) ?_⟩
  · exact Nat.ne_of_lt d.isLt
  · exact Nat.ne_of_lt (Nat.lt_succ_of_lt d.isLt)

/-- The lines that shine: with a timer, or selected and shown. -/
def LitLine (p : Params) (b : Block) (i : Line) : Prop := (b.decayDl[i] ≠ none ∧ LampLit b i) ∨ ShownLine p b i

/-- The lamps of a target are those of its lit lines. -/
theorem ConsoleTarget.lamps_iff {p : Params} {b : Block} (hb : ConsoleTarget p b) :
    (LitLine p b 4 ↔ b.lampLose = true) ∧ (LitLine p b 5 ↔ b.lampWin = true) := by
  have hlamp : ∀ i : Line, (∀ d : Digit, d.line ≠ i) → b.act[i] = true → LampLit b i → LitLine p b i := by
    intro i hi hact hlit
    rcases (hb.restorable.act_iff i).1 hact with hdl | ⟨-, hsel⟩
    · exact .inl ⟨hdl, hlit⟩
    · by_cases hdl : b.decayDl[i] = none
      · exact .inr ⟨hsel, hdl, hlit, fun d hd => absurd hd (hi d)⟩
      · exact .inl ⟨hdl, hlit⟩
  obtain ⟨hlose, hwin⟩ := hb.restorable.inv.lamps_active hb.variant
  have hlit : ∀ {i : Line}, LitLine p b i → LampLit b i := fun h => h.elim And.right fun h => h.2.2.1
  exact ⟨⟨fun h => (hlit h).1 rfl, fun h => hlamp 4 (by decide) (hlose h) ⟨fun _ => h, fun h45 => absurd h45 (by decide)⟩⟩,
    ⟨fun h => (hlit h).2 rfl, fun h => hlamp 5 (by decide) (hwin h) ⟨fun h54 => absurd h54 (by decide), fun _ => h⟩⟩⟩

/-! ## Holding -/

/-- A block on the way to `b` that shows all of its outputs; its selected lines are the shown ones of `b` and those of `O`,
still to be armed. -/
structure Held (p : Params) (b : Block) (O : Line → Prop) (τ : Time) (deb : Option Time) (c : Block) : Prop where
  reached : Reached p c
  sel : ∀ i, asserted p.variant c.sel i = true ↔ ShownLine p b i ∨ O i
  act : ∀ i : Line, c.act[i] = true ↔ b.decayDl[i] ≠ none ∨ ShownLine p b i
  timer : ∀ i : Line, ¬ O i → c.decayDl[i] = b.decayDl[i]
  ahead : ∀ (i : Line) u, c.decayDl[i] = some u → b.now ≤ u
  seg : c.seg = b.seg
  out : SameOutputs b c
  rst : c.rst = b.rst
  now : c.now = τ
  debDl : c.debDl = deb

theorem sameOutputs_trans {b c d : Block} (h : SameOutputs b c) (h' : SameOutputs c d) : SameOutputs b d :=
  ⟨h'.1.trans h.1, h'.2.1.trans h.2.1, h'.2.2.trans h.2.2⟩

theorem Held.advance {p : Params} {b c : Block} {O : Line → Prop} {τ σ : Time} {deb : Option Time}
    (hb : ConsoleTarget p b) (h : Held p b O τ deb c) (hle : τ ≤ σ) (hnow : σ ≤ b.now) (hdeb : ∀ u, deb = some u → σ ≤ u) :
    ∃ d, Held p b O σ deb d := by
  have hsum : c.now + (σ - τ) = σ := by rw [h.now]; exact Nat.add_sub_cancel' hle
  have hreached := h.reached.advance (σ - τ) ((le_pendingDeadlines_iff _ _ _).2 (by
    rw [hsum]
    exact ⟨fun i u _ hu => hnow.trans (h.ahead i u hu), fun u hu => hdeb u (h.debDl.symm.trans hu),
      fun u hu => nomatch (h.reached.blinkDl_none hb.variant).1.symm.trans hu⟩))
  rw [hsum] at hreached
  exact ⟨_, hreached, h.sel, h.act, h.timer, h.ahead, h.seg, h.out, h.rst, rfl, h.debDl⟩

/-- A select write arms the held lines whose time is now and goes on holding those still to come. -/
theorem Held.armNow {p : Params} {b c : Block} {O : Line → Prop} {τ : Time} {deb : Option Time} (hb : ConsoleTarget p b)
    (h : Held p b O τ deb c) (hO : ∀ i, O i → ∃ t, b.decayDl[i] = some t ∧ τ + p.decayDelay ≤ t) :
    ∃ d, Held p b (OpenAt p b τ) τ (debounceAfter p τ deb) d := by
  obtain ⟨v, hv⟩ := exists_select p.variant fun i => ShownLine p b i ∨ OpenAt p b τ i
  obtain ⟨d, hd, hw⟩ := h.reached.wrSel v
  obtain ⟨hdeb, hout⟩ := hw.console hb.variant
  have hnow : ∀ i, O i → ¬ OpenAt p b τ i → d.decayDl[i] = b.decayDl[i] := by
    intro i hi hclosed
    obtain ⟨t, ht, hle⟩ := hO i hi
    have htime : t = τ + p.decayDelay := Nat.le_antisymm (Nat.le_of_not_lt fun hlt => hclosed ⟨t, ht, hlt⟩) hle
    have hnew : asserted p.variant v i = false := by
      refine Bool.eq_false_of_not_eq_true fun hsel => ?_
      rcases (hv i).1 hsel with ⟨-, hdl, -⟩ | hstill
      · rw [ht] at hdl; cases hdl
      · exact hclosed hstill
    rw [hw.decayDl_deselected (hb.isLine i) ((h.sel i).2 (.inr hi)) hnew, h.now, ht, htime]
  have hkept : ∀ i, ¬ (O i ∧ ¬ OpenAt p b τ i) → d.decayDl[i] = c.decayDl[i] := by
    intro i hi
    refine hw.decayDl_kept fun _ hsel => (hv i).2 ?_
    exact ((h.sel i).1 hsel).imp_right fun hO => by_contra fun hclosed => hi ⟨hO, hclosed⟩
  refine ⟨d, hd, fun i => by rw [hw.sel]; exact hv i, fun i => ?act, fun i hclosed => ?timer, fun i u hu => ?ahead,
    hw.seg.trans h.seg, sameOutputs_trans h.out hout, hw.core.rst.trans h.rst, hw.core.now.trans h.now,
    by rw [hdeb, h.now, h.debDl]⟩
  case act =>
    rw [hw.act_iff h.reached, h.act i, hv i]
    refine or_iff_left_of_imp fun ⟨_, hsel⟩ => hsel.elim .inr fun ⟨t, ht, _⟩ => .inl ?_
    rw [ht]
    exact nofun
  case timer =>
    by_cases hi : O i
    · exact hnow i hi hclosed
    · rw [hkept i fun hO => hi hO.1]
      exact h.timer i hi
  case ahead =>
    by_cases hi : O i ∧ ¬ OpenAt p b τ i
    · rw [hnow i hi.1 hi.2] at hu
      exact (hb.timer hu).1
    · rw [hkept i hi] at hu
      exact h.ahead i u hu

/-- How the pending recompute goes from instant to instant while lines are held: it is not reached, and each write leaves
what the next instant finds. -/
def PendingAlong (p : Params) (deb : Time → Option Time) (ρ f : Time) : Prop :=
  ∀ τ, ρ ≤ τ → τ < f → (∀ u, deb τ = some u → τ + 1 ≤ u) ∧ debounceAfter p (τ + 1) (deb τ) = deb (τ + 1)

/-- Lines are held and armed, each at its time, from `ρ` to `f`. -/
theorem Held.upTo {p : Params} {b c : Block} {ρ f : Time} {deb : Time → Option Time} (hb : ConsoleTarget p b)
    (h : Held p b (OpenAt p b ρ) ρ (deb ρ) c) (hρ : ρ ≤ f) (hf : f ≤ b.now) (hdeb : PendingAlong p deb ρ f) :
    ∃ d, Held p b (OpenAt p b f) f (deb f) d := by
  have hstep : ∀ k, ρ + k ≤ f → ∃ d, Held p b (OpenAt p b (ρ + k)) (ρ + k) (deb (ρ + k)) d := by
    intro k hk
    induction k with
    | zero => exact ⟨c, h⟩
    | succ k ih =>
      obtain ⟨d, hd⟩ := ih (Nat.le_of_succ_le hk)
      obtain ⟨hahead, hafter⟩ := hdeb (ρ + k) (Nat.le_add_right _ _) hk
      obtain ⟨d', hd'⟩ := hd.advance hb (Nat.le_succ _) (Nat.le_trans hk hf) hahead
      obtain ⟨d'', hd''⟩ := hd'.armNow hb fun i ⟨t, ht, hlt⟩ => ⟨t, ht, Nat.add_right_comm (ρ + k) 1 _ ▸ hlt⟩
      rw [hafter] at hd''
      exact ⟨d'', hd''⟩
  have hsum : ρ + (f - ρ) = f := Nat.add_sub_cancel' hρ
  obtain ⟨d, hd⟩ := hstep (f - ρ) hsum.le
  rw [hsum] at hd
  exact ⟨d, hd⟩

/-- Once every line is armed, the target's own select write, and the time up to its clock, give the target. -/
theorem Held.finish {p : Params} {b c : Block} {f : Time} {deb : Option Time} {e : Time} (hb : ConsoleTarget p b)
    (h : Held p b (OpenAt p b f) f deb c) (hf : f ≤ b.now) (hclosed : ∀ i, ¬ OpenAt p b f i)
    (hdeb : debounceAfter p f deb = some e) (he : b.debDl = some e) : Reached p b := by
  obtain ⟨d, hd, hw⟩ := h.reached.wrSel b.sel
  obtain ⟨hdeb', hout⟩ := hw.console hb.variant
  have htimer : ∀ i : Line, d.decayDl[i] = b.decayDl[i] := by
    intro i
    rw [hw.decayDl_kept fun _ hsel => (((h.sel i).1 hsel).resolve_right (hclosed i)).1]
    exact h.timer i (hclosed i)
  have hnow : d.now = f := hw.core.now.trans h.now
  have hdebd : d.debDl = b.debDl := by rw [hdeb', h.now, h.debDl, hdeb, he]
  have hsum : d.now + (b.now - f) = b.now := by rw [hnow]; exact Nat.add_sub_cancel' hf
  have hreached := hd.advance (b.now - f) ((le_pendingDeadlines_iff _ _ _).2 (by
    rw [hsum]
    exact ⟨fun i u _ hu => (hb.timer ((htimer i).symm.trans hu)).1,
      fun u hu => hb.restorable.inv.debounce_ahead u (hdebd.symm.trans hu),
      fun u hu => nomatch (hd.blinkDl_none hb.variant).1.symm.trans hu⟩))
  rw [hsum] at hreached
  obtain ⟨hblink, hbph⟩ := hb.restorable.inv.console_blink hb.variant
  obtain ⟨hblinkd, hbphd⟩ := hd.blinkDl_none hb.variant
  obtain ⟨hdigits, hlose, hwin⟩ := sameOutputs_trans h.out hout
  have heq : { d with now := b.now } = b := by
    refine block_ext ⟨hbphd.trans hbph.symm, hblinkd.trans hblink.symm, hw.core.rst.trans h.rst, rfl⟩ hw.sel
      (hw.seg.trans h.seg) (fun i => Bool.eq_iff_iff.2 ?_) htimer hdebd (fun i => congrArg (·[i]) hdigits) hlose hwin
    rw [show ({ d with now := b.now } : Block).act[i] = d.act[i] from rfl, hw.act_iff h.reached, h.act i,
      hb.restorable.act_iff, or_assoc]
    refine or_congr_right (or_iff_right_of_imp fun hshown => ⟨hb.isLine i, hshown.1⟩)
  rwa [heq] at hreached

/-! ## Showing -/

/-- `b` with the timers that are armed at `ρ` for now: those of the lines of `X` stay. -/
def Provisional (p : Params) (b : Block) (X : Line → Prop) (ρ : Time) (c : Block) : Prop :=
  c.out = b.out ∧ ∀ i : Line, (X i → c.decayDl[i] = b.decayDl[i]) ∧ (¬ X i → c.decayDl[i] = some (ρ + p.decayDelay))

theorem exists_provisional (p : Params) (b : Block) (X : Line → Prop) (ρ : Time) : ∃ c, Provisional p b X ρ c := by
  classical
  refine ⟨{ b with decayDl := .ofFn fun i : Line => if X i then b.decayDl[i] else some (ρ + p.decayDelay) }, rfl,
    fun i => ⟨fun hi => ?_, fun hi => ?_⟩⟩
  · simp [hi]
  · simp [hi]

/-- A quiet block of `b` is one of the block with provisional timers, and gets them for the lines of `Y`. -/
theorem QuietAt.armProvisional {p : Params} {b c : Block} {X : Line → Prop} {ρ : Time} {deb : Option Time}
    (hb : ConsoleTarget p b) (h : QuietAt p b X ρ deb c) (hsteady : Steady p c) (Y : Line → Prop) :
    ∃ b' d, Provisional p b X ρ b' ∧ Reached p d ∧ Quiet p b' (fun i => X i ∨ (Y i ∧ ¬ X i)) d ∧ SameClock c d := by
  obtain ⟨b', hout, htimers⟩ := exists_provisional p b X ρ
  have hquiet : Quiet p b' X c :=
    { h.quiet with
      armed := fun i hi => (h.quiet.armed i hi).trans ((htimers i).1 hi).symm
      held := fun d hd => (h.quiet.held d hd).trans (by rw [hout]) }
  obtain ⟨d, hd, hquiet', hclock⟩ := hquiet.armAll ⟨hb.chess, hb.console, fun hv => nomatch hb.variant.symm.trans hv⟩
    h.reached hsteady (fun i => Y i ∧ ¬ X i) fun i hi => ⟨hb.isLine i, by rw [h.now]; exact (htimers i).2 hi.2⟩
  exact ⟨b', d, ⟨hout, htimers⟩, hd, hquiet', hclock⟩

/-- A digit of the target whose line has no timer and is not shown is blank. -/
theorem ConsoleTarget.blank_of_not_shown {p : Params} {b : Block} (hb : ConsoleTarget p b) {e : Time}
    (hwait : Waiting p b e) {d : Digit} (hdl : b.decayDl[d.line] = none) (hshown : ¬ ShownLine p b d.line) :
    b.out[d] = 0 := by
  by_contra hlit
  rcases (hb.restorable.act_iff d.line).1 (hb.restorable.inv.lit_active d hlit) with hpend | ⟨-, hsel⟩
  · exact hpend hdl
  · rcases hwait.digit d hsel with hpend | hzero | hpattern
    · exact hpend hdl
    · exact hlit hzero
    · exact hshown ⟨hsel, hdl, lampLit_digit b d, fun d' hd' => by rw [digit_line_inj hd']; exact hpattern⟩

/-- With the shown lines of the target selected over a quiet block in which the lines with a timer and no dark lamp decay,
the recompute gives the target's digits. -/
theorem Quiet.showAll_digit {p : Params} {b b' c c1 c2 : Block} (hb : ConsoleTarget p b) {e : Time}
    (hwait : Waiting p b e) (h : Quiet p b' (fun i => b.decayDl[i] ≠ none ∧ LampLit b i) c) (hout' : b'.out = b.out)
    (hsel : ∀ i, asserted p.variant c1.sel i = true ↔ ShownLine p b i)
    (hact : ∀ i : Line, c1.act[i] = true ↔ LitLine p b i) (hout : c1.out = c.out)
    (hw : DataShown p { c1 with seg := b.seg } c2) (d : Digit) : c2.out[d] = b.out[d] := by
  by_cases hshown : ShownLine p b d.line
  · rw [hw.out_selected ((hsel d.line).2 hshown), hshown.2.2.2 d rfl]
    exact shownPattern_congr rfl fun hv => nomatch hb.variant.symm.trans hv
  · have hunsel : asserted p.variant c1.sel d.line = false :=
      Bool.eq_false_of_not_eq_true fun hon => hshown ((hsel _).1 hon)
    have hold : c1.out[d] = c.out[d] := by rw [hout]
    by_cases hdl : b.decayDl[d.line] = none
    · have hblank : c1.out[d] = 0 := hold.trans (h.blank d fun hX => hX.1 hdl)
      rw [hb.blank_of_not_shown hwait hdl hshown]
      exact (hw.out_unselected hunsel fun _ => hblank).trans hblank
    · have hlit : LampLit b d.line := lampLit_digit b d
      have hactive : c1.act[d.line] = true := (hact d.line).2 (.inl ⟨hdl, hlit⟩)
      refine (hw.out_unselected hunsel fun hoff => absurd hactive (ne_true_of_eq_false hoff)).trans (hold.trans ?_)
      exact (h.held d ⟨hdl, hlit⟩).trans (by rw [hout'])

/-- Over a quiet block in which the lines with a timer and no dark lamp decay, the shown lines are selected and the target's
byte is stored: the recompute gives the target's outputs. -/
theorem Quiet.showAll {p : Params} {b b' c : Block} (hb : ConsoleTarget p b) {e : Time} (hwait : Waiting p b e)
    (hc : Reached p c) (h : Quiet p b' (fun i => b.decayDl[i] ≠ none ∧ LampLit b i) c) (hout' : b'.out = b.out)
    (hsteady : Steady p c) :
    ∃ d, Reached p d ∧ (∀ i, asserted p.variant d.sel i = true ↔ ShownLine p b i) ∧
      (∀ i : Line, d.act[i] = true ↔ LitLine p b i) ∧ (∀ i : Line, d.decayDl[i] = c.decayDl[i]) ∧ d.seg = b.seg ∧
      SameOutputs b d ∧ SameClock c d := by
  obtain ⟨v, hv⟩ := exists_select p.variant (ShownLine p b)
  obtain ⟨c1, hc1, hw1⟩ := hc.wrSel v
  obtain ⟨-, hout1, -⟩ := hw1.console hb.variant
  have hw2 := dataShown_renderOutputs p { c1 with seg := b.seg }
  have hclock2 : SameClock c1 (renderOutputs p { c1 with seg := b.seg }) :=
    ⟨⟨hw2.core.bph, hw2.core.blinkDl, hw2.core.rst, hw2.core.now⟩, hw2.debDl⟩
  have hact1 : ∀ i : Line, c1.act[i] = true ↔ LitLine p b i := by
    intro i
    rw [hw1.act_iff hc, h.act i, hv i]
    exact or_congr_right (and_iff_right (hb.isLine i))
  have hsel1 : ∀ i, asserted p.variant c1.sel i = true ↔ ShownLine p b i := fun i => by rw [hw1.sel]; exact hv i
  have hdigits := h.showAll_digit hb hwait hout' hsel1 hact1 hout1 hw2
  obtain ⟨hlose, hwin⟩ := hw2.console hb.variant
  obtain ⟨hlose', hwin'⟩ := hb.lamps_iff
  refine ⟨_, hc1.wrData b.seg, fun i => by rw [hw2.sel]; exact hsel1 i, fun i => by rw [hw2.act]; exact hact1 i,
    fun i => (hw2.decayDl i).trans (hw1.decayDl_kept fun hi hsel => ?_), hw2.seg,
    ⟨Vector.ext fun k hk => hdigits ⟨k, hk⟩, hlose.trans (Bool.eq_iff_iff.2 ((hact1 4).trans hlose')),
      hwin.trans (Bool.eq_iff_iff.2 ((hact1 5).trans hwin'))⟩, (hw1.sameClock hsteady).trans hclock2⟩
  rw [h.unselected hi] at hsel
  cases hsel

/-- From a quiet block at `ρ` in which the lines of `X` decay, the rest of the target's timed lines come to be held, with all
outputs of the target shown. -/
theorem QuietAt.hold {p : Params} {b c : Block} {X : Line → Prop} {ρ e : Time} {deb : Option Time}
    (hb : ConsoleTarget p b) (hwait : Waiting p b e) (h : QuietAt p b X ρ deb c) (hsteady : Steady p c)
    (hX : ∀ i, X i → b.decayDl[i] ≠ none ∧ LampLit b i)
    (hahead : ∀ i t, ¬ X i → b.decayDl[i] = some t → b.now ≤ ρ + p.decayDelay) :
    ∃ d, Held p b (fun i => b.decayDl[i] ≠ none ∧ ¬ X i) ρ deb d := by
  obtain ⟨b', c1, ⟨hout', htimers⟩, hc1, hquiet1, hclock1⟩ :=
    h.armProvisional hb hsteady fun i => b.decayDl[i] ≠ none ∧ LampLit b i
  have hlit : ∀ i, (X i ∨ (b.decayDl[i] ≠ none ∧ LampLit b i) ∧ ¬ X i) ↔ b.decayDl[i] ≠ none ∧ LampLit b i := by
    intro i
    by_cases hi : X i
    · exact iff_of_true (.inl hi) (hX i hi)
    · rw [or_iff_right hi]
      exact and_iff_left hi
  replace hquiet1 := hquiet1.congr hlit
  obtain ⟨c2, hc2, hsel2, hact2, hdl2, hseg2, hout2, hclock2⟩ :=
    hquiet1.showAll hb hwait hc1 hout' (hclock1.steady hsteady)
  obtain ⟨v, hv⟩ := exists_select p.variant fun i => ShownLine p b i ∨ (b.decayDl[i] ≠ none ∧ ¬ X i)
  obtain ⟨d, hd, hw⟩ := hc2.wrSel v
  have hclock3 : SameClock c d :=
    (hclock1.trans hclock2).trans (hw.sameClock ((hclock1.trans hclock2).steady hsteady))
  have hdl : ∀ i : Line, d.decayDl[i] = c1.decayDl[i] := by
    intro i
    refine (hw.decayDl_kept fun _ hsel => ?_).trans (hdl2 i)
    exact (hv i).2 (.inl ((hsel2 i).1 hsel))
  refine ⟨d, hd, fun i => by rw [hw.sel]; exact hv i, fun i => ?act, fun i hi => ?timer, fun i u hu => ?ahead,
    hw.seg.trans hseg2, sameOutputs_trans hout2 (hw.console hb.variant).2, hclock3.core.rst.trans h.rst,
    hclock3.core.now.trans h.now, hclock3.debDl.trans h.debDl⟩
  case act =>
    rw [hw.act_iff hc2, hact2 i, hv i, and_iff_right (hb.isLine i), LitLine]
    have := hX i
    tauto
  case timer =>
    rw [hdl i]
    by_cases hpend : b.decayDl[i] = none
    · rw [hpend]
      exact hquiet1.unarmed i fun hX' => hX'.1 hpend
    · have hXi : X i := by_contra fun hXi => hi ⟨hpend, hXi⟩
      rw [hquiet1.armed i (hX i hXi)]
      exact (htimers i).1 hXi
  case ahead =>
    rw [hdl i] at hu
    have hlit' : b.decayDl[i] ≠ none ∧ LampLit b i := by
      by_contra hno
      rw [hquiet1.unarmed i hno] at hu
      cases hu
    rw [hquiet1.armed i hlit'] at hu
    by_cases hXi : X i
    · rw [(htimers i).1 hXi] at hu
      exact (hb.timer hu).1
    · rw [(htimers i).2 hXi] at hu
      cases hu
      obtain ⟨t, ht⟩ := Option.ne_none_iff_exists'.1 hlit'.1
      exact hahead i t hXi ht

end Sys2Proof.Machine
end

section
/-! PROOFS. Every restorable block of CONSOLE is reached, and with CHESS that RESTORE refuses every other image (rule R233):
a recompute that stays where it is has its periods before; one that every select write moves is moved from the first timer
on; and a settled block is one that waited, after the fire. -/

namespace Sys2Proof.Machine

open Sys2Proof.Safety

/-- There is an instant from `lo` to `f` that is the first time of the lines still to be armed, if there are any. -/
theorem exists_first_time {p : Params} {b : Block} (X : Line → Prop) {lo f : Time} (hle : lo ≤ f)
    (hlo : ∀ i t, ¬ X i → b.decayDl[i] = some t → lo + p.decayDelay ≤ t)
    (hf : ∀ i t, ¬ X i → b.decayDl[i] = some t → t ≤ f + p.decayDelay)
    (hnow : ∀ (i : Line) t, b.decayDl[i] = some t → b.now ≤ t) :
    ∃ ρ, lo ≤ ρ ∧ ρ ≤ f ∧
      ∀ i t, ¬ X i → b.decayDl[i] = some t → ρ + p.decayDelay ≤ t ∧ b.now ≤ ρ + p.decayDelay := by
  classical
  by_cases hany : ∃ ρ i, ¬ X i ∧ b.decayDl[i] = some (ρ + p.decayDelay)
  · obtain ⟨i, hi, ht⟩ := Nat.find_spec hany
    refine ⟨Nat.find hany, Nat.le_of_add_le_add_right (hlo i _ hi ht), Nat.le_of_add_le_add_right (hf i _ hi ht),
      fun j u hj hu => ⟨?_, hnow i _ ht⟩⟩
    have hdelay : p.decayDelay ≤ u := (Nat.le_add_left _ _).trans (hlo j u hj hu)
    have hfirst : Nat.find hany ≤ u - p.decayDelay :=
      Nat.find_min' hany ⟨j, hj, by rw [Nat.sub_add_cancel hdelay]; exact hu⟩
    exact Nat.add_le_of_le_sub hdelay hfirst
  · refine ⟨f, hle, Nat.le_refl _, fun i t hi ht => absurd ⟨t - p.decayDelay, i, hi, ?_⟩ hany⟩
    rw [Nat.sub_add_cancel ((Nat.le_add_left _ _).trans (hlo i t hi ht))]
    exact ht

/-- From a quiet block at `ρ` with a recompute pending, through the holding of lines up to `f`, to the target. -/
theorem QuietAt.reach {p : Params} {b c : Block} {X : Line → Prop} {ρ e : Time} (f : Time) (deb : Time → Option Time)
    (hb : ConsoleTarget p b) (he : b.debDl = some e) (hwait : Waiting p b e) (h : QuietAt p b X ρ (deb ρ) c)
    (hsteady : debounceAfter p ρ (deb ρ) = deb ρ) (hX : ∀ i, X i → b.decayDl[i] ≠ none ∧ LampLit b i)
    (hlate : ∀ i t, ¬ X i → b.decayDl[i] = some t → ρ + p.decayDelay ≤ t ∧ b.now ≤ ρ + p.decayDelay)
    (hρ : ρ ≤ f) (hf : f ≤ b.now) (hdeb : PendingAlong p deb ρ f)
    (hclosed : ∀ (i : Line) t, b.decayDl[i] = some t → t ≤ f + p.decayDelay)
    (hlast : debounceAfter p f (deb f) = some e) : Reached p b := by
  obtain ⟨c1, hc1⟩ := h.hold hb hwait (fun _ => by rw [h.now, h.debDl]; exact hsteady) hX
    fun i t hi ht => (hlate i t hi ht).2
  obtain ⟨c2, hc2⟩ := hc1.armNow hb fun i hi => by
    obtain ⟨t, ht⟩ := Option.ne_none_iff_exists'.1 hi.1
    exact ⟨t, ht, (hlate i t hi.2 ht).1⟩
  rw [hsteady] at hc2
  obtain ⟨c3, hc3⟩ := hc2.upTo hb hρ hf hdeb
  exact hc3.finish hb hf (fun i ⟨t, ht, hlt⟩ => absurd (hclosed i t ht) (Nat.not_le_of_lt hlt)) hlast he

/-- A target with a recompute pending that stays where it is: the lines armed before its period are armed before. -/
theorem ConsoleTarget.reached_keeping {p : Params} {b : Block} {e : Time} (hb : ConsoleTarget p b) (hkeep : KeepsPending p)
    (he : b.debDl = some e) (hwait : Waiting p b e) : Reached p b := by
  have hnow : b.now ≤ e := hb.restorable.inv.debounce_ahead e he
  have hbegin : e - p.debounceDelay ≤ b.now := Nat.sub_le_of_le_add hwait.near
  obtain ⟨c0, hc0⟩ := hb.beforePeriod hkeep hwait
  obtain ⟨c1, hc1⟩ := hc0.openPeriod hb
  rw [Nat.sub_add_cancel hwait.begun] at hc1
  have hlate : ∀ (i : Line) t, ¬ (∃ t, b.decayDl[i] = some t ∧ t - p.decayDelay + p.debounceDelay < e) →
      b.decayDl[i] = some t → e - p.debounceDelay + p.decayDelay ≤ t := by
    intro i t hi ht
    have hge : e ≤ t - p.decayDelay + p.debounceDelay := Nat.le_of_not_lt fun hlt => hi ⟨t, ht, hlt⟩
    exact Nat.add_le_of_le_sub (hb.timer ht).2.1 (Nat.sub_le_of_le_add hge)
  obtain ⟨ρ, hlo, hρ, hfirst⟩ := exists_first_time _ hbegin hlate (fun i t _ ht => (hb.timer ht).2.2)
    fun i t ht => (hb.timer ht).1
  obtain ⟨c2, hc2⟩ := hc1.advance hb hlo hρ fun u hu => Option.some.inj hu ▸ hρ.trans hnow
  have hstay : ∀ τ, ρ ≤ τ → τ ≤ b.now → debounceAfter p τ (some e) = some e := by
    intro τ hτ hτ'
    have hsteady : Steady p { b with debDl := some e, now := τ } := steady_of_keepsPending hkeep rfl fun hzero => by
      have hzero' : e - p.debounceDelay = e := by rw [hzero]; rfl
      exact Nat.le_antisymm (hzero' ▸ hlo.trans hτ) (hτ'.trans hnow)
    exact hsteady hb.variant
  refine hc2.reach b.now (fun _ => some e) hb he hwait (hstay ρ (Nat.le_refl _) hρ) (fun i hi => ?_) hfirst
    hρ (Nat.le_refl _) (fun τ hτ hlt => ⟨fun u hu => Option.some.inj hu ▸ Nat.le_trans hlt hnow,
      hstay (τ + 1) (Nat.le_succ_of_le hτ) hlt⟩) (fun i t ht => (hb.timer ht).2.2) (hstay b.now hρ (Nat.le_refl _))
  obtain ⟨t, ht, hlt⟩ := hi
  have hlamp : ∀ lamp : Bool, LampWaits p b e lamp i → lamp = true := by
    rintro lamp (hlit | hdark | ⟨hmode, hpos⟩ | htimer)
    · exact hlit
    · rw [(hb.restorable.act_iff i).2 (.inl (by rw [ht]; exact nofun))] at hdark
      cases hdark
    · rcases hkeep with hmode' | hzero
      · exact nomatch hmode.symm.trans hmode'
      · exact absurd hzero (Nat.ne_of_gt hpos)
    · have hge := htimer t ht
      have hdelay := (hb.timer ht).2.1
      refine absurd hlt (Nat.not_lt_of_le ?_)
      rw [← Nat.sub_add_comm hdelay]
      exact Nat.le_sub_of_add_le hge
  refine ⟨by rw [ht]; exact nofun, ?_, ?_⟩
  · rintro rfl
    exact hlamp _ hwait.lose
  · rintro rfl
    exact hlamp _ hwait.win

/-- A target with a recompute pending that every select write has moved: it is held off from the first timer on. -/
theorem ConsoleTarget.reached_moving {p : Params} {b : Block} {e : Time} (hb : ConsoleTarget p b)
    (hmode : p.debounceMode = .reschedule) (hpos : 0 < p.debounceDelay) (he : b.debDl = some e) (hwait : Waiting p b e) :
    Reached p b := by
  have hlast : e - p.debounceDelay ≤ b.now := Nat.sub_le_of_le_add hwait.near
  have hafter : ∀ τ deb, debounceAfter p τ deb = some (τ + p.debounceDelay) := fun τ deb => if_pos (.inr hmode)
  have hclosed : ∀ (i : Line) t, b.decayDl[i] = some t → t ≤ e - p.debounceDelay + p.decayDelay := by
    intro i t ht
    have hwrite := ((writesBefore_iff p e _).1 hwait.writes).2 hmode _ ((mem_armTimes p b _).2 ⟨i, t, ht, rfl⟩)
    exact Nat.le_add_of_sub_le (Nat.le_sub_of_add_le hwrite)
  obtain ⟨ρ, -, hρ, hfirst⟩ := exists_first_time (fun _ => False) (Nat.zero_le (e - p.debounceDelay))
    (fun i t _ ht => (Nat.zero_add _).trans_le (hb.timer ht).2.1) (fun i t _ ht => hclosed i t ht)
    fun i t ht => (hb.timer ht).1
  obtain ⟨c, hc⟩ := (quietAt_blankBlock hb ρ).openPeriod hb
  refine hc.reach (e - p.debounceDelay) (fun τ => some (τ + p.debounceDelay)) hb he hwait (hafter ρ _)
    (fun _ => False.elim) hfirst hρ hlast (fun τ _ _ => ⟨fun u hu => ?_, hafter (τ + 1) _⟩) hclosed ?_
  · exact Option.some.inj hu ▸ Nat.add_le_add_left hpos τ
  · rw [hafter, Nat.sub_add_cancel hwait.begun]

/-- Every restorable block with a recompute pending is reached. -/
theorem ConsoleTarget.reached_waiting {p : Params} {b : Block} {e : Time} (hb : ConsoleTarget p b)
    (he : b.debDl = some e) : Reached p b := by
  have hwait := hb.restorable.waiting hb.variant e he
  by_cases hkeep : KeepsPending p
  · exact hb.reached_keeping hkeep he hwait
  · obtain ⟨hmode, hzero⟩ := not_or.1 hkeep
    have hmode' : p.debounceMode = .reschedule := by
      cases hm : p.debounceMode with
      | keep => exact absurd hm hmode
      | reschedule => rfl
    exact hb.reached_moving hmode' (Nat.pos_of_ne_zero hzero) he hwait

/-! ## Settled blocks -/

theorem PeriodsFit.concat {delay limit q w : Nat} {ws : List Nat} (h : PeriodsFit delay limit q (ws ++ [w])) :
    PeriodsFit delay w q ws ∧ w + delay ≤ limit := by
  induction ws generalizing q with
  | nil => exact h
  | cons x ws ih => exact ⟨⟨h.1, (ih h.2).1⟩, (ih h.2).2⟩

/-- Settled writes had a last recompute, or can have had one just now. -/
theorem exists_last_recompute {p : Params} {now : Time} {times : List Time} (h : writesSettled p now times = true)
    (hdelay : p.debounceDelay ≤ now) :
    ∃ e, p.debounceDelay ≤ e ∧ e ≤ now ∧ (∀ u ∈ times, u ≤ e) ∧ writesBefore p e times = true := by
  simp only [writesBefore_iff]
  rw [writesSettled_iff] at h
  cases hmode : p.debounceMode with
  | reschedule =>
    have hwrites := h.2 hmode
    exact ⟨now, hdelay, Nat.le_refl _, fun u hu => (Nat.le_add_right _ _).trans (hwrites u hu), nofun, fun _ => hwrites⟩
  | keep =>
    obtain ⟨starts, hfit, hin⟩ := h.1 hmode
    rcases List.eq_nil_or_concat starts with rfl | ⟨ws, w, rfl⟩
    · have hnone : ∀ u, u ∉ times := fun u hu => by obtain ⟨w, hw, -⟩ := hin u hu; cases hw
      refine ⟨now, hdelay, Nat.le_refl _, fun u hu => absurd hu (hnone u), fun _ => ⟨[], Nat.zero_le _, fun u hu => ?_⟩, nofun⟩
      exact absurd (List.mem_filter.1 hu).1 (hnone u)
    · rw [List.concat_eq_append] at hfit hin
      obtain ⟨hfit', hend⟩ := hfit.concat
      refine ⟨w + p.debounceDelay, Nat.le_add_left _ _, hend, fun u hu => ?_, fun _ => ⟨ws, ?_, fun u hu => ?_⟩, nofun⟩
      · obtain ⟨x, hx, -, hle⟩ := hin u hu
        rcases List.mem_append.1 hx with hx | hx
        · obtain ⟨vs, -, hvs, -⟩ := hfit'.split hx
          exact hle.trans (hvs.le_limit.trans (Nat.le_add_right _ _))
        · rwa [List.mem_singleton.1 hx] at hle
      · rwa [Nat.add_sub_cancel]
      · obtain ⟨hu, hlt⟩ := List.mem_filter.1 hu
        obtain ⟨x, hx, hge, hle⟩ := hin u hu
        rcases List.mem_append.1 hx with hx | hx
        · exact ⟨x, hx, hge, hle⟩
        · rw [List.mem_singleton.1 hx] at hge
          exact absurd hge (Nat.not_le_of_lt (Nat.lt_of_add_lt_add_right (of_decide_eq_true hlt)))

/-- A settled block, a recompute at `e` before: it waited for it then. -/
theorem ConsoleTarget.beforeRecompute {p : Params} {b : Block} {e : Time} (hb : ConsoleTarget p b) (hset : Settled p b)
    (hdelay : p.debounceDelay ≤ e) (hnow : e ≤ b.now) (htimes : ∀ u ∈ armTimes p b, u ≤ e)
    (hwrites : writesBefore p e (armTimes p b) = true) : Restorable p { b with debDl := some e, now := e } where
  inv :=
    { hb.restorable.inv with
      decay_ahead := fun i t _ ht => hnow.trans (hb.timer ht).1
      debounce_ahead := fun t ht => (Option.some.inj ht).le
      blink_ahead := fun t ht => nomatch (hb.restorable.inv.console_blink hb.variant).1.symm.trans ht
      chess_timers := fun hv => nomatch hb.variant.symm.trans hv }
  lines :=
    { armed := fun i t hi ht => by
        obtain ⟨hact, hfirst, -⟩ := hb.restorable.lines.armed i t hi ht
        exact ⟨hact, hfirst, Nat.le_add_of_sub_le (htimes _ ((mem_armTimes p b _).2 ⟨i, t, ht, rfl⟩))⟩
      absent := hb.restorable.lines.absent }
  chess hv := nomatch hb.variant.symm.trans hv
  settled _ := nofun
  waiting _ u hu := by
    obtain rfl := Option.some.inj hu
    exact ⟨hdelay, Nat.le_add_right _ _, fun i hsel => .inr (.inr (hset.shown i hsel)), lampWaits_of_eq hset.lamps.1,
      lampWaits_of_eq hset.lamps.2, hwrites⟩

/-- The recompute of a settled block is the block. -/
theorem ConsoleTarget.recomputed {p : Params} {b : Block} (hb : ConsoleTarget p b) (hset : Settled p b) :
    renderOutputs p b = b := by
  have hw := dataShown_renderOutputs p b
  obtain ⟨hlose, hwin⟩ := hw.console hb.variant
  refine block_ext hw.core hw.sel hw.seg hw.act hw.decayDl hw.debDl (fun d => ?_) (hlose.trans hset.lamps.1.symm)
    (hwin.trans hset.lamps.2.symm)
  cases hsel : asserted p.variant b.sel d.line with
  | true => rw [hw.out_selected hsel, hset.shown d hsel]
  | false =>
    refine hw.out_unselected hsel fun hinactive => by_contra fun hlit => ?_
    rw [hb.restorable.inv.lit_active d hlit] at hinactive
    cases hinactive

/-- A block in which nothing has been selected is a blank one with its data byte stored. -/
theorem ConsoleTarget.reached_unselected {p : Params} {b : Block} (hb : ConsoleTarget p b) (hset : Settled p b)
    (hnone : b.debDl = none) (hsel : b.sel = 0) (hact : ∀ i : Line, b.act[i] = false) : Reached p b := by
  have hblank := quietAt_blankBlock hb b.now
  have hw := dataShown_renderOutputs p { blankBlock p b.rst b.now with seg := b.seg }
  have hquiet := hblank.quiet.dataShown hw rfl rfl rfl ⟨rfl, rfl, rfl⟩
  have hreached := hblank.reached.wrData b.seg
  obtain ⟨hblink, hbph⟩ := hb.restorable.inv.console_blink hb.variant
  obtain ⟨hblink', hbph'⟩ := hreached.blinkDl_none hb.variant
  have hact' : ∀ i : Line, (renderOutputs p { blankBlock p b.rst b.now with seg := b.seg }).act[i] = false :=
    fun i => Bool.eq_false_of_not_eq_true fun hon => (hquiet.act i).1 hon
  have heq : renderOutputs p { blankBlock p b.rst b.now with seg := b.seg } = b := by
    obtain ⟨hlose, hwin⟩ := hw.console hb.variant
    have hdark : ∀ i : Line, (blankBlock p b.rst b.now).act[i] = false := fun i => powerOn_act p i.val i.isLt
    refine block_ext ⟨hbph'.trans hbph.symm, hblink'.trans hblink.symm, hw.core.rst, hw.core.now⟩
      (hquiet.sel.trans ?sel) hw.seg (fun i => (hact' i).trans (hact i).symm) (fun i => ?timer)
      (hw.debDl.trans hnone.symm) (fun d => ?digit) ?lose ?win
    case sel => rw [hsel, selReset_eq, if_neg (by simp [hb.variant])]
    case timer =>
      rw [hquiet.unarmed i not_false]
      by_contra hdl
      have hon := (hb.restorable.act_iff i).2 (.inl (Ne.symm hdl))
      rw [hact i] at hon
      cases hon
    case digit =>
      rw [hquiet.blank d not_false]
      by_contra hlit
      have hon := hb.restorable.inv.lit_active d (Ne.symm hlit)
      rw [hact] at hon
      cases hon
    case lose => rw [hlose, hset.lamps.1]; exact (hdark 4).trans (hact 4).symm
    case win => rw [hwin, hset.lamps.2]; exact (hdark 5).trans (hact 5).symm
  rwa [heq] at hreached

/-- Every restorable settled block is reached: by the fire of the last recompute, and time. -/
theorem ConsoleTarget.reached_settled {p : Params} {b : Block} (hb : ConsoleTarget p b) (hnone : b.debDl = none) :
    Reached p b := by
  have hset := hb.restorable.settled hb.variant hnone
  rcases hset.written with ⟨hsel, hact⟩ | hdelay
  · exact hb.reached_unselected hset hnone hsel hact
  · obtain ⟨e, hbegun, hnow, htimes, hwrites⟩ := exists_last_recompute hset.writes hdelay
    have hbefore : ConsoleTarget p { b with debDl := some e, now := e } :=
      { hb with restorable := hb.beforeRecompute hset hbegun hnow htimes hwrites }
    have hfired := (hbefore.reached_waiting rfl).debounceFire hb.variant rfl
    have hrecomputed : renderOutputs p { b with debDl := none, now := e } = { b with debDl := none, now := e } := by
      have hrender : renderOutputs p { b with debDl := none, now := e } =
          { renderOutputs p b with debDl := none, now := e } := by
        unfold renderOutputs
        split <;> rfl
      rw [hrender, hb.recomputed hset]
    rw [show renderOutputs p { ({ b with debDl := some e, now := e } : Block) with debDl := none } = _ from hrecomputed]
      at hfired
    have hsum : e + (b.now - e) = b.now := Nat.add_sub_cancel' hnow
    have hreached := hfired.advance (b.now - e) ((le_pendingDeadlines_iff _ _ _).2
      ⟨fun i u _ hu => hsum.trans_le (hb.timer hu).1, nofun,
        fun u hu => nomatch (hb.restorable.inv.console_blink hb.variant).1.symm.trans hu⟩)
    have heq : { b with debDl := none, now := e + (b.now - e) } = b := by rw [hsum, ← hnone]
    exact heq ▸ hreached

/-! ## Every restorable block -/

/-- A restorable block is reached, with a blink period above 0 and bijective wirings (R8, R14). -/
theorem Restorable.reached {p : Params} {b : Block} (h : Restorable p b) (hperiod : 0 < p.blinkPeriod)
    (hchess : p.wiring.segPermChess.Bijective) (hconsole : p.wiring.segPermConsole.Bijective) : Reached p b := by
  cases hv : p.variant with
  | chess =>
    have hb : ChessTarget p b := ⟨hv, hperiod, hchess, hconsole, h⟩
    exact hb.reached
  | console =>
    have hb : ConsoleTarget p b := ⟨hv, hperiod, hchess, hconsole, h⟩
    cases hdeb : b.debDl with
    | none => exact hb.reached_settled hdeb
    | some e => exact hb.reached_waiting hdeb

/-- Settles O52: an image that is not refused is of the variant and of a restorable block, and such blocks are reached. -/
theorem restoreRefusesEveryUnreachableImage : Obligations.RestoreRefusesEveryUnreachableImage := by
  intro s img hperiod hchess hconsole hunreachable
  refine if_pos (Bool.eq_true_of_not_eq_false fun hgood => hunreachable ?_)
  obtain ⟨hv, hres⟩ := (badSnapshot_iff_restorable s.params img).1 hgood
  obtain ⟨t, ht, hblock⟩ := hres.reached hperiod hchess hconsole
  exact ⟨t, ht, by rw [reaches_params ht, hblock, ← hv]⟩

end Sys2Proof.Machine
end
